-- ==== Sys2Proof/Word.lean ====
section
/-! DEFINITION. The widths of NITROGFX-XF (spec 00_scope.md rules R7, R8): bytes of MEM, 16-bit fields, 32-bit registers. -/

namespace Sys2Proof

/-- A byte of MEM (R60). -/
abbrev Byte := BitVec 8

/-- A 16-bit field or word (R35, R36, R39, R40, R230). -/
abbrev Half := BitVec 16

/-- A 32-bit register (R22). -/
abbrev Word := BitVec 32

end Sys2Proof
end

