-- ==== Sys2Proof/Config.lean ====
section
/-! DEFINITION. What an implementation fixes (the parameters of spec 00_scope.md rule R7) and the free values of the
model (the draws of spec 93_implementation_defined.md, U1 to U5 and U17), which nothing in Lean can evaluate. -/

namespace Sys2Proof

/-- The parameters of R7. They are held in `State.params`, which no step changes, so that a statement about every state
is a statement about every choice of them (log entry 1). -/
structure Params where
  /-- `MEM_BYTES`, the size of MEM in bytes (D2). -/
  memBytes : Nat
  /-- `NTR_BOM`, the byte-order-marker value (D28). -/
  ntrBom : Half
  /-- `NTR_VER_A`, an accepted container version (D29). -/
  ntrVerA : Half
  /-- `NTR_VER_B`, the other accepted container version (D29). -/
  ntrVerB : Half
  deriving DecidableEq, Repr

/-- The constraints R7 puts on the parameters. -/
abbrev Params.Ok (p : Params) : Prop :=
  64 ≤ p.memBytes ∧ p.memBytes ≤ 2 ^ 32 ∧ p.ntrVerA ≠ p.ntrVerB

/-- The default column of R7, which the spec's test vectors use.
DESIGN CHOICE (log entry 1): `State.reset` carries these. -/
def Params.standard : Params where
  memBytes := 65536
  ntrBom := 0xFEFF#16
  ntrVerA := 0x0100#16
  ntrVerB := 0x0101#16

/-- The value the byte at address `a` holds after the power-on numbered `n` until something writes it
(R291, U1, U17): a free value (log entry 2). -/
opaque Config.powerOnByte (n a : Nat) : Byte

/-- The free byte numbered `n`, for each byte the spec calls unspecified in a run (R264, R292, R300; U2 to U5)
(log entry 3). -/
opaque Config.freeByte (n : Nat) : Byte

end Sys2Proof
end

