-- ==== Sys2Proof/Syntax.lean ====
section
/-! DEFINITION. The commands (spec 30_encoding.md rule R93), the names of the registers (10_state.md rule R22), the
agents (R20) and the actions of the host and the platform (20_memory.md rule R68, 30_encoding.md rule R97,
70_reset_and_hazards.md rule R290). -/

namespace Sys2Proof

/-- The ten commands. A command word has no operand fields: every operand is an implicit operand register (R90, R94). -/
inductive Instr where
  | ntrParse
  | ntrBuild
  | pix2tile
  | tile2pix
  | tileHflip
  | tileVflip
  | oamDec
  | oamEnc
  | cipher
  | decipher
  deriving DecidableEq, Repr

/-- The defined registers of the register file, in offset order (R22). -/
inductive Reg where
  | id
  | cmd
  | status
  | irqen
  | srcAddr
  | srcLen
  | dstAddr
  | dstCap
  | width
  | keyIn
  | keyOut
  | resultLen
  | oamW0
  | oamW1
  | oamW2
  | recPos
  | recAttr
  | ntrTag
  | ntrVer
  | ntrNblk
  | ntrTotal
  deriving DecidableEq, Repr

/-- The two agents of R20. -/
inductive Agent where
  | host
  | engine
  deriving DecidableEq, Repr

/-- One action of the host on its bus, or of the platform on RESET and power. Offsets and addresses count from the base
of their aperture (R66). -/
inductive HostAction where
  /-- A register write of `width` bytes at byte offset `off` (R68; `W off v` of R97). -/
  | regWrite (width off : Nat) (v : Word)
  /-- A register read of `width` bytes at byte offset `off` (R68; `R off` of R97). -/
  | regRead (width off : Nat)
  /-- Writes of the bytes, in order, at `addr`, `addr + 1`, ...: a byte write, a wider write as the sequence of its byte
  accesses (R68), or the statement `mw` (R97). -/
  | memWrite (addr : Nat) (bytes : List Byte)
  /-- Reads of the `n` bytes at `addr`, `addr + 1`, ... in order (R68; `mr` of R97). -/
  | memRead (addr n : Nat)
  /-- Read STATUS until bit 0 reads 0 (R97). -/
  | wait
  /-- The platform asserts and deasserts RESET (R290 to R292). -/
  | reset
  /-- A power-on reset: as RESET, and every byte of MEM holds an unspecified value (R290, R291). -/
  | powerOn
  deriving DecidableEq, Repr

end Sys2Proof
end

