-- ==== Sys2Proof/WellFormed.lean ====
section
/-! DEFINITION. Which instructions and host actions are well formed: every command is (it has no operand fields, spec
30_encoding.md rule R90); a host access is if it is inside the interface of 20_memory.md rule R68. -/

namespace Sys2Proof

/-- A command has no field that could be out of range (R90, R96). -/
def Instr.wf : Instr → Bool
  | .ntrParse | .ntrBuild | .pix2tile | .tile2pix | .tileHflip | .tileVflip
  | .oamDec | .oamEnc | .cipher | .decipher => true

/-- R68: registers take 32-bit accesses at multiples of 4 inside the 256-byte aperture; a MEM access lies in
[0, MEM_BYTES) with every byte of it. -/
def HostAction.wf (p : Params) : HostAction → Bool
  | .regWrite width off _ | .regRead width off => width == 4 && off % 4 == 0 && off < 0x100
  | .memWrite addr bytes => bytes.isEmpty || addr + bytes.length ≤ p.memBytes
  | .memRead addr n => n == 0 || addr + n ≤ p.memBytes
  | .wait | .reset | .powerOn => true

end Sys2Proof
end

