-- ==== Sys2Proof/Decode.lean ====
section
/-! DEFINITION. The decoder and the encoder of the CMD word (spec 30_encoding.md rules R90, R93, R95). -/

namespace Sys2Proof

/-- Why a CMD word names no command. -/
inductive DecodeError where
  /-- OPCODE is not in the opcode map (R95). -/
  | illegalOpcode (op : Byte)
  deriving DecidableEq, Repr

/-- The opcode map of R93, in its order: OPCODE, command. Every mask is 0xFF. -/
def opcodeMap : List (Byte × Instr) :=
  [(0x10#8, .ntrParse), (0x11#8, .ntrBuild),
   (0x20#8, .pix2tile), (0x21#8, .tile2pix), (0x22#8, .tileHflip), (0x23#8, .tileVflip),
   (0x30#8, .oamDec), (0x31#8, .oamEnc),
   (0x40#8, .cipher), (0x41#8, .decipher)]

/-- The command an OPCODE selects, or the name of the rejection (R93, R95). -/
def decodeOpcode (op : Byte) : Except DecodeError Instr :=
  match opcodeMap.find? (fun row => row.1 == op) with
  | some row => .ok row.2
  | none => .error (.illegalOpcode op)

/-- The field OPCODE of a CMD word, bits [7:0] (R90). -/
def opcodeField (w : Word) : Byte := w.extractLsb' 0 8

/-- Decoding of a CMD word: bits [31:8] are ignored (R90). Total. -/
def decode (w : Word) : Except DecodeError Instr := decodeOpcode (opcodeField w)

/-- The OPCODE of a command (R93). -/
def Instr.opcode : Instr → Byte
  | .ntrParse => 0x10#8
  | .ntrBuild => 0x11#8
  | .pix2tile => 0x20#8
  | .tile2pix => 0x21#8
  | .tileHflip => 0x22#8
  | .tileVflip => 0x23#8
  | .oamDec => 0x30#8
  | .oamEnc => 0x31#8
  | .cipher => 0x40#8
  | .decipher => 0x41#8

/-- The CMD word of a command, with the given ignored bits [31:8] (R90). -/
def encodeWith (ignored : BitVec 24) (i : Instr) : Word := ignored ++ i.opcode

/-- The CMD word of a command, as `cmd` of R97 writes it. -/
def encode (i : Instr) : Word := encodeWith 0 i

/-- What the decoder reads from an opcode-table word: a command is one 32-bit CMD write (R96). -/
def decodeTableWord (nbits w : Nat) : Option Instr :=
  match decode (BitVec.ofNat 32 (w % 2 ^ nbits)) with
  | .ok i => some i
  | .error _ => none

end Sys2Proof
end

