-- ==== Sys2Proof/Machine/Bytes.lean ====
section
/-! DEFINITION. The notation of spec 00_scope.md rules R10 and R11: byte sequences, little-endian readers and writers,
and the modular bias of signed fields. -/

namespace Sys2Proof.Machine

/-- Byte `i` of a byte sequence (R11). Callers ask only for bytes it has. -/
def byteOf (b : List Byte) (i : Nat) : Byte := b.getD i 0

/-- `b[o .. o+n]`: the `n` bytes from byte `o` (R11). -/
def sliceOf (b : List Byte) (o n : Nat) : List Byte := (b.drop o).take n

/-- The little-endian unsigned integer of a byte sequence (R11, R12). -/
def leNat : List Byte → Nat
  | [] => 0
  | b :: rest => b.toNat + 256 * leNat rest

/-- `u16le(b, o)` (R11). -/
def u16le (b : List Byte) (o : Nat) : Nat :=
  (byteOf b o).toNat + 256 * (byteOf b (o + 1)).toNat

/-- `u32le(b, o)` (R11). -/
def u32le (b : List Byte) (o : Nat) : Nat :=
  (byteOf b o).toNat + 2 ^ 8 * (byteOf b (o + 1)).toNat
    + 2 ^ 16 * (byteOf b (o + 2)).toNat + 2 ^ 24 * (byteOf b (o + 3)).toNat

/-- `le16(v)` (R11). -/
def le16 (v : Nat) : List Byte := [BitVec.ofNat 8 v, BitVec.ofNat 8 (v / 2 ^ 8)]

/-- `le32(v)` (R11). -/
def le32 (v : Nat) : List Byte :=
  [BitVec.ofNat 8 v, BitVec.ofNat 8 (v / 2 ^ 8), BitVec.ofNat 8 (v / 2 ^ 16), BitVec.ofNat 8 (v / 2 ^ 24)]

/-- `bias_N(v)`, for v in [0, 2^N) (R10). -/
def bias (n v : Nat) : Int := if v ≥ 2 ^ (n - 1) then (v : Int) - 2 ^ n else v

/-- `unbias_N(s)` (R10). -/
def unbias (n : Nat) (s : Int) : Int := if s < 0 then s + 2 ^ n else s

end Sys2Proof.Machine
end

