-- ==== Sys2Proof/Machine/State.lean ====
section
/-! DEFINITION. The state of the machine (spec 10_state.md rules R22 to R48), plain data, and the state right after the
power-on reset (70_reset_and_hazards.md rules R290, R291). -/

namespace Sys2Proof.Machine

/-- The fault the spec names. It is recorded in `State.hazard` and ends no step (R300). -/
inductive Fault where
  /-- A host write to a byte of the running command's footprint while BUSY = 1. Raised by `hostMemWrite`, recorded as
  sticky in the state, never final (R300). Safe: no claim is made about the hardware in a run that contains one. -/
  | footprintHazard
  deriving DecidableEq, Repr

/-- Why a step has no meaning. -/
inductive Refusal where
  /-- An instruction that has no meaning yet: none of this model. Safe. -/
  | notModelled (mnemonic : String)
  /-- A host register access that is not 32 bits wide at a multiple of 4 inside the aperture: outside the interface
  (R68, U6). Raised by `hostRegWrite` and `hostRegRead`. Safe. -/
  | registerAccess (width off : Nat)
  /-- A host MEM access at an address not below MEM_BYTES: outside the interface (R68, U7). Raised by `hostMemWrite` and
  `hostMemRead`. Safe. -/
  | memoryAccess (addr : Nat)
  deriving DecidableEq, Repr

/-- The fields of STATUS (R25). Reserved bits have no storage: they read 0. -/
structure Status where
  busy : Bool
  done : Bool
  err : Bool
  ovr : Bool
  errClass : BitVec 4
  errCode : BitVec 8
  deriving DecidableEq, Repr

/-- The fields of REC_ATTR (R37). -/
structure RecAttr where
  affine : Bool
  disable : Bool
  mosaic : Bool
  hflip : Bool
  vflip : Bool
  color8 : Bool
  objMode : BitVec 2
  shape : BitVec 2
  size : BitVec 2
  tile : BitVec 10
  priority : BitVec 2
  palette : BitVec 4
  deriving DecidableEq, Repr

/-- What one host read returned. -/
inductive HostRead where
  /-- A register read at byte offset `off`. -/
  | reg (off : Nat) (v : Word)
  /-- A MEM byte read. -/
  | mem (addr : Nat) (v : Byte)
  deriving DecidableEq, Repr

/-- The bytes of MEM that have been written since power-on, addresses strictly rising. An unlisted address holds no
written value (log entry 2). -/
abbrev Memory := List Host.Cell

/-- The architectural state (R48) and, from `params` on, the model's own fields. -/
structure State where
  /-- MEM (R46, R60). -/
  mem : Memory
  /-- CMD.OPCODE (R24); with BUSY = 1 it is the pending command (R47). -/
  opcode : Byte
  /-- STATUS (R25). -/
  status : Status
  /-- IRQEN.IE (R26). -/
  ie : Bool
  /-- SRC_ADDR (R27). -/
  srcAddr : Word
  /-- SRC_LEN (R28). -/
  srcLen : Word
  /-- DST_ADDR (R29). -/
  dstAddr : Word
  /-- DST_CAP (R30). -/
  dstCap : Word
  /-- WIDTH.TILES (R31). -/
  tiles : Half
  /-- KEY_IN (R32). -/
  keyIn : Word
  /-- KEY_OUT (R33). -/
  keyOut : Word
  /-- RESULT_LEN (R34). -/
  resultLen : Word
  /-- OAM_W0.WORD (R35). -/
  oamW0 : Half
  /-- OAM_W1.WORD (R35). -/
  oamW1 : Half
  /-- OAM_W2.WORD (R35). -/
  oamW2 : Half
  /-- REC_POS.X (R36). -/
  recX : Half
  /-- REC_POS.Y (R36). -/
  recY : Half
  /-- REC_ATTR (R37). -/
  recAttr : RecAttr
  /-- NTR_TAG (R38). -/
  ntrTag : Word
  /-- NTR_VER.VERSION (R39). -/
  ntrVer : Half
  /-- NTR_NBLK.COUNT (R40). -/
  ntrNblk : Half
  /-- NTR_TOTAL (R41). -/
  ntrTotal : Word
  /-- The sticky hazard fault (R300). -/
  hazard : Option Fault
  /-- The parameters of R7: no step changes them (log entry 1). -/
  params : Params
  /-- How many power-ons came before: it names the draws MEM holds (R291; log entry 2). -/
  powerOns : Nat
  /-- How many free bytes have been drawn (log entry 3). -/
  draws : Nat
  /-- The host's and the platform's actions still to come (log entry 5). -/
  script : List HostAction
  /-- Who moves next while BUSY = 1, one entry a step (log entry 4). -/
  turns : List Agent
  /-- What the host's reads returned, newest first (log entry 5). -/
  reads : List HostRead
  deriving DecidableEq, Repr

/-- STATUS at reset: every field 0 (R290). -/
def Status.reset : Status where
  busy := false
  done := false
  err := false
  ovr := false
  errClass := 0
  errCode := 0

/-- REC_ATTR at reset: every field 0 (R37). -/
def RecAttr.reset : RecAttr where
  affine := false
  disable := false
  mosaic := false
  hflip := false
  vflip := false
  color8 := false
  objMode := 0
  shape := 0
  size := 0
  tile := 0
  priority := 0
  palette := 0

/-- The machine right after the power-on reset: every register at its reset value, no pending command, no byte of MEM
written (R22, R290, R291). The fields from `params` on are the model's own (log entries 1 to 5). -/
def State.reset : State where
  mem := []
  opcode := 0
  status := Status.reset
  ie := false
  srcAddr := 0
  srcLen := 0
  dstAddr := 0
  dstCap := 0
  tiles := 0
  keyIn := 0
  keyOut := 0
  resultLen := 0
  oamW0 := 0
  oamW1 := 0
  oamW2 := 0
  recX := 0
  recY := 0
  recAttr := RecAttr.reset
  ntrTag := 0
  ntrVer := 0
  ntrNblk := 0
  ntrTotal := 0
  hazard := none
  params := Params.standard
  powerOns := 0
  draws := 0
  script := []
  turns := []
  reads := []

end Sys2Proof.Machine
end

