-- ==== Sys2Proof/Machine/Flags.lean ====
section
/-! DEFINITION. The error classes and codes (spec 60_exceptions.md rules R260, R261), every change of STATUS
(10_state.md rules R25, R45; 30_encoding.md rules R91, R92) and the interrupt output (60_exceptions.md rule R266). -/

namespace Sys2Proof.Machine

/-- The errors a command can report (R261). -/
inductive ErrCode where
  | illegalOpcode
  | srcRange
  | dstRange
  | overlap
  | dstCap
  | tileLen
  | tileWidthZero
  | tileWidth
  | oamShape
  | oamXRange
  | oamYRange
  | oamRecShape
  | cipherOdd
  | cipherEmpty
  | ntrTrunc
  | ntrBom
  | ntrVersion
  | ntrHdrSize
  | ntrBlkSize
  | ntrVerArg
  deriving DecidableEq, Repr

/-- The value of ERRCODE (R261, column code). -/
def ErrCode.code : ErrCode → BitVec 8
  | .illegalOpcode => 0x01#8
  | .srcRange => 0x02#8
  | .dstRange => 0x03#8
  | .overlap => 0x04#8
  | .dstCap => 0x05#8
  | .tileLen => 0x10#8
  | .tileWidthZero => 0x11#8
  | .tileWidth => 0x12#8
  | .oamShape => 0x20#8
  | .oamXRange => 0x21#8
  | .oamYRange => 0x22#8
  | .oamRecShape => 0x23#8
  | .cipherOdd => 0x30#8
  | .cipherEmpty => 0x31#8
  | .ntrTrunc => 0x40#8
  | .ntrBom => 0x41#8
  | .ntrVersion => 0x42#8
  | .ntrHdrSize => 0x43#8
  | .ntrBlkSize => 0x44#8
  | .ntrVerArg => 0x45#8

/-- `class(code)`, the value of ERRCLASS (R260, R261): 1 malformed-input, 2 unsupported-variant, 3
precondition-violation, 4 illegal-command. -/
def ErrCode.errClass : ErrCode → BitVec 4
  | .illegalOpcode => 4#4
  | .srcRange | .dstRange | .overlap | .dstCap
  | .tileLen | .tileWidthZero | .tileWidth
  | .oamXRange | .oamYRange | .oamRecShape
  | .cipherOdd | .cipherEmpty | .ntrVerArg => 3#4
  | .oamShape | .ntrBom | .ntrVersion => 2#4
  | .ntrTrunc | .ntrHdrSize | .ntrBlkSize => 1#4

/-- Whether the error leaves W(DST_ADDR, DST_CAP) unspecified: every error but ILLEGAL_OPCODE, SRC_RANGE, DST_RANGE,
OVERLAP and the OAM errors (R264, point 3). -/
def ErrCode.spoilsDst : ErrCode → Bool
  | .illegalOpcode | .srcRange | .dstRange | .overlap
  | .oamShape | .oamXRange | .oamYRange | .oamRecShape => false
  | .dstCap | .tileLen | .tileWidthZero | .tileWidth | .cipherOdd | .cipherEmpty
  | .ntrTrunc | .ntrBom | .ntrVersion | .ntrHdrSize | .ntrBlkSize | .ntrVerArg => true

/-- STATUS as a register word (R25). -/
def Status.toWord (f : Status) : Word :=
  0#8 ++ f.errCode ++ 0#4 ++ f.errClass ++ 0#4
    ++ BitVec.ofBool f.ovr ++ BitVec.ofBool f.err ++ BitVec.ofBool f.done ++ BitVec.ofBool f.busy

/-- Starting a command: BUSY becomes 1; DONE, ERR, ERRCLASS and ERRCODE become 0; OVR stays (R91, R25). -/
def Status.start (f : Status) : Status :=
  { f with busy := true, done := false, err := false, errClass := 0, errCode := 0 }

/-- Completion without error (R92). -/
def Status.finishOk (f : Status) : Status := { f with busy := false, done := true }

/-- Completion with an error (R92; R264, point 1). -/
def Status.finishErr (f : Status) (e : ErrCode) : Status :=
  { f with busy := false, done := false, err := true, errClass := e.errClass, errCode := e.code }

/-- A CMD write while BUSY = 1 (R44, R268). -/
def Status.overrun (f : Status) : Status := { f with ovr := true }

/-- A host write of STATUS: DONE, ERR and OVR are W1C, every other bit ignores the write (R25, R43). -/
def Status.clear (f : Status) (v : Word) : Status :=
  { f with
    done := f.done && !v.getLsbD 1
    err := f.err && !v.getLsbD 2
    ovr := f.ovr && !v.getLsbD 3 }

/-- The interrupt output: IRQ = IRQEN.IE and (STATUS.DONE or STATUS.ERR) (R266). -/
def State.irq (s : State) : Bool := s.ie && (s.status.done || s.status.err)

/-- The pending command: OPCODE together with BUSY = 1 (R47). -/
def State.pending (s : State) : Option Byte := if s.status.busy then some s.opcode else none

end Sys2Proof.Machine
end

