-- ==== Sys2Proof/Machine/Ops.lean ====
section
/-! DEFINITION. The named operations over MEM and the registers: the primitives of spec 00_scope.md rule R12, the register
file of 10_state.md rules R22 to R44, starting and completing a command (30_encoding.md rules R91, R92), the error
commit, which is this block's exception entry (60_exceptions.md rules R264, R265), and reset (70_reset_and_hazards.md
rules R290 to R292). -/

namespace Sys2Proof.Machine

/-! ## MEM -/

/-- The canonical form: addresses strictly rising. An unlisted address holds no written value, so no entry can equal what
an unlisted address reads as (log entry 2). -/
abbrev Memory.wf (m : Memory) : Prop := m.Pairwise (fun x y => x.1 < y.1)

/-- Every listed address exists (R60). -/
abbrev Memory.inside (m : Memory) (memBytes : Nat) : Prop := ∀ c ∈ m, c.1 < memBytes

/-- The value written last at an address since power-on, if any. -/
def Memory.stored : Memory → Nat → Option Byte
  | [], _ => none
  | (x, v) :: rest, a => if x = a then some v else Memory.stored rest a

/-- The cells of a byte sequence laid out from address `a` upwards. -/
def cellsFrom : Nat → List Byte → Memory
  | _, [] => []
  | a, b :: bs => (a, b) :: cellsFrom (a + 1) bs

/-- Writing a byte sequence at [a, a + len): one block between what lies below and what lies above. -/
def Memory.write (m : Memory) (a : Nat) (bs : List Byte) : Memory :=
  m.filter (fun c => c.1 < a) ++ cellsFrom a bs ++ m.filter (fun c => a + bs.length ≤ c.1)

/-- MEM[a]: the byte written last, or the free value the byte holds since power-on (R60, R291, U17; log entry 2). -/
def State.byteAt (s : State) (a : Nat) : Byte :=
  match s.mem.stored a with
  | some v => v
  | none => Config.powerOnByte s.powerOns a

/-- `MemBytes(a, n)` (R12). -/
def State.memBytes (s : State) (a n : Nat) : List Byte := (List.range n).map (fun i => s.byteAt (a + i))

/-- `MemRead(a, n)` (R12, R61). -/
def State.memRead (s : State) (a n : Nat) : Nat := leNat (s.memBytes a n)

/-- `MemWriteBytes(a, b)` (R12). -/
def State.writeBytes (s : State) (a : Nat) (bs : List Byte) : State := { s with mem := s.mem.write a bs }

/-- `n` fresh free bytes (log entry 3). -/
def State.drawn (s : State) (n : Nat) : List Byte := (List.range n).map (fun i => Config.freeByte (s.draws + i))

/-- Each byte of the window [a, a + n) that lies in MEM holds an unspecified value (R264, R292, U2, U3; log entries
3 and 9). -/
def State.spoil (s : State) (a n : Nat) : State :=
  { s with
    mem := s.mem.write a (s.drawn (min n (s.params.memBytes - a)))
    draws := s.draws + min n (s.params.memBytes - a) }

/-! ## The register file -/

end Sys2Proof.Machine

namespace Sys2Proof

/-- The byte offset of a register (R22). -/
def Reg.offset : Reg → Nat
  | .id => 0x00
  | .cmd => 0x04
  | .status => 0x08
  | .irqen => 0x0C
  | .srcAddr => 0x10
  | .srcLen => 0x14
  | .dstAddr => 0x18
  | .dstCap => 0x1C
  | .width => 0x20
  | .keyIn => 0x24
  | .keyOut => 0x28
  | .resultLen => 0x2C
  | .oamW0 => 0x30
  | .oamW1 => 0x34
  | .oamW2 => 0x38
  | .recPos => 0x3C
  | .recAttr => 0x40
  | .ntrTag => 0x44
  | .ntrVer => 0x48
  | .ntrNblk => 0x4C
  | .ntrTotal => 0x50

end Sys2Proof

namespace Sys2Proof.Machine

/-- The defined registers (R22). -/
def allRegs : List Reg :=
  [.id, .cmd, .status, .irqen, .srcAddr, .srcLen, .dstAddr, .dstCap, .width, .keyIn, .keyOut, .resultLen,
   .oamW0, .oamW1, .oamW2, .recPos, .recAttr, .ntrTag, .ntrVer, .ntrNblk, .ntrTotal]

/-- The register at an offset; none at a reserved offset (R22, R42). -/
def regAt (off : Nat) : Option Reg := allRegs.find? (fun r => r.offset == off)

/-- REC_ATTR as a register word: bits [31:28] read 0 (R37). -/
def RecAttr.toWord (a : RecAttr) : Word :=
  0#4 ++ a.palette ++ a.priority ++ a.tile ++ a.size ++ a.shape ++ a.objMode
    ++ BitVec.ofBool a.color8 ++ BitVec.ofBool a.vflip ++ BitVec.ofBool a.hflip
    ++ BitVec.ofBool a.mosaic ++ BitVec.ofBool a.disable ++ BitVec.ofBool a.affine

/-- The fields a write of REC_ATTR stores: bits [31:28] are ignored (R37). -/
def recAttrOfWord (v : Word) : RecAttr where
  affine := v.getLsbD 0
  disable := v.getLsbD 1
  mosaic := v.getLsbD 2
  hflip := v.getLsbD 3
  vflip := v.getLsbD 4
  color8 := v.getLsbD 5
  objMode := v.extractLsb' 6 2
  shape := v.extractLsb' 8 2
  size := v.extractLsb' 10 2
  tile := v.extractLsb' 12 10
  priority := v.extractLsb' 22 2
  palette := v.extractLsb' 24 4

/-- `R[NAME]` read (R12, R22): reserved bits read 0, and no read has a side effect (R43). -/
def State.readReg (s : State) : Reg → Word
  | .id => 0x4E545258#32
  | .cmd => s.opcode.setWidth 32
  | .status => s.status.toWord
  | .irqen => (BitVec.ofBool s.ie).setWidth 32
  | .srcAddr => s.srcAddr
  | .srcLen => s.srcLen
  | .dstAddr => s.dstAddr
  | .dstCap => s.dstCap
  | .width => s.tiles.setWidth 32
  | .keyIn => s.keyIn
  | .keyOut => s.keyOut
  | .resultLen => s.resultLen
  | .oamW0 => s.oamW0.setWidth 32
  | .oamW1 => s.oamW1.setWidth 32
  | .oamW2 => s.oamW2.setWidth 32
  | .recPos => s.recY ++ s.recX
  | .recAttr => s.recAttr.toWord
  | .ntrTag => s.ntrTag
  | .ntrVer => s.ntrVer.setWidth 32
  | .ntrNblk => s.ntrNblk.setWidth 32
  | .ntrTotal => s.ntrTotal

/-- What a host read at an offset returns: a reserved offset reads 0 (R42, R43). -/
def State.readOffset (s : State) (off : Nat) : Word :=
  match regAt off with
  | some r => s.readReg r
  | none => 0

/-- Storing a host write in a register of access type RW; RO registers, and the registers whose writes are not plain
stores, ignore it (R22, R43). -/
def State.storeReg (s : State) (v : Word) : Reg → State
  | .id | .cmd | .status | .irqen | .keyOut | .resultLen | .ntrTotal => s
  | .srcAddr => { s with srcAddr := v }
  | .srcLen => { s with srcLen := v }
  | .dstAddr => { s with dstAddr := v }
  | .dstCap => { s with dstCap := v }
  | .width => { s with tiles := v.extractLsb' 0 16 }
  | .keyIn => { s with keyIn := v }
  | .oamW0 => { s with oamW0 := v.extractLsb' 0 16 }
  | .oamW1 => { s with oamW1 := v.extractLsb' 0 16 }
  | .oamW2 => { s with oamW2 := v.extractLsb' 0 16 }
  | .recPos => { s with recX := v.extractLsb' 0 16, recY := v.extractLsb' 16 16 }
  | .recAttr => { s with recAttr := recAttrOfWord v }
  | .ntrTag => { s with ntrTag := v }
  | .ntrVer => { s with ntrVer := v.extractLsb' 0 16 }
  | .ntrNblk => { s with ntrNblk := v.extractLsb' 0 16 }

/-! ## Starting and completing a command -/

/-- The accepted CMD write: OPCODE is latched and the command is pending (R24, R91). -/
def State.startCommand (s : State) (v : Word) : State :=
  { s with opcode := v.extractLsb' 0 8, status := s.status.start }

/-- What a host register write does: CMD starts a command or overruns, STATUS is W1C, IRQEN is written at any time, and
every other register is written only while BUSY = 0 (R24, R25, R26, R43, R44). -/
def State.hostWriteReg (s : State) (r : Reg) (v : Word) : State :=
  match r with
  | .cmd => if s.status.busy then { s with status := s.status.overrun } else s.startCommand v
  | .status => { s with status := s.status.clear v }
  | .irqen => { s with ie := v.getLsbD 0 }
  | _ => if s.status.busy then s else s.storeReg v r

/-- A host register write at an offset: a reserved offset ignores it (R42). -/
def State.writeOffset (s : State) (off : Nat) (v : Word) : State :=
  match regAt off with
  | some r => s.hostWriteReg r v
  | none => s

/-- Completion without error (R92). -/
def State.finish (s : State) : State := { s with status := s.status.finishOk }

/-- STATUS reports an error (R92; R264, point 1). -/
def State.report (s : State) (e : ErrCode) : State := { s with status := s.status.finishErr e }

/-- Completion with an error, the one entry every error takes (R264): STATUS reports it, no other register changes, and
the destination window is unspecified after the errors R264 names. -/
def State.fail (s : State) (e : ErrCode) : State :=
  if e.spoilsDst then (s.spoil s.dstAddr.toNat s.dstCap.toNat).report e else s.report e

/-- The engine's atomic event (R92): the writes of a successful command and DONE, or the error commit. -/
def State.complete (s : State) : Except ErrCode State → State
  | .ok t => t.finish
  | .error e => s.fail e

/-- One check of a command: whether it is violated, and the error it reports. -/
abbrev Check := Bool × ErrCode

/-- R263: a command reports the first check, in its written order, that fails. -/
def firstError : List Check → Option ErrCode
  | [] => none
  | (violated, e) :: rest => if violated then some e else firstError rest

/-- The result of a command whose checks are `cs` and whose writes, when every check passes, lead to `t` (R262, R263). -/
def checked (cs : List Check) (t : State) : Except ErrCode State :=
  match firstError cs with
  | some e => .error e
  | none => .ok t

/-! ## Reset -/

/-- Every register at its reset value and no pending command (R290). MEM, the sticky hazard (R300) and the model's own
fields stay (log entry 7). -/
def State.resetRegs (s : State) : State :=
  { State.reset with
    mem := s.mem
    hazard := s.hazard
    params := s.params
    powerOns := s.powerOns
    draws := s.draws
    script := s.script
    turns := s.turns
    reads := s.reads }

/-- Every byte of MEM holds a fresh unspecified value (R291; log entry 2). -/
def State.powerOnMem (s : State) : State := { s with mem := [], powerOns := s.powerOns + 1 }

end Sys2Proof.Machine
end

