-- ==== Sys2Proof/Machine/Operands.lean ====
section
/-! DEFINITION. Operand assembly (spec 30_encoding.md rule R94), windows and footprints (20_memory.md rules R63 to R65),
descriptors (40_ntr_container.md rule R124) and the window checks every memory command begins with
(60_exceptions.md rule R262). -/

namespace Sys2Proof.Machine

/-- The window W(start, len) (R63). -/
structure Window where
  start : Nat
  len : Nat
  deriving DecidableEq, Repr

/-- Whether an address lies in the window (R63). -/
def Window.has (w : Window) (a : Nat) : Bool := w.start ≤ a && a < w.start + w.len

/-- A window is in MEM, with sums that never wrap (R63, R9). -/
def Window.inMem (w : Window) (p : Params) : Bool := w.start + w.len ≤ p.memBytes

/-- Two windows overlap (R63). -/
def Window.overlaps (w v : Window) : Bool :=
  0 < w.len && 0 < v.len && w.start < v.start + v.len && v.start < w.start + w.len

/-- W(SRC_ADDR, SRC_LEN) (R94). -/
def State.srcWindow (s : State) : Window := ⟨s.srcAddr.toNat, s.srcLen.toNat⟩

/-- W(DST_ADDR, DST_CAP) (R94). -/
def State.dstWindow (s : State) : Window := ⟨s.dstAddr.toNat, s.dstCap.toNat⟩

/-- W(DST_ADDR, 64), the tile of a flip (R94, R168). -/
def State.tileWindow (s : State) : Window := ⟨s.dstAddr.toNat, 64⟩

/-- W(SRC_ADDR, 12·COUNT), the descriptor table of NTR_BUILD (R94). -/
def State.tableWindow (s : State) : Window := ⟨s.srcAddr.toNat, 12 * s.ntrNblk.toNat⟩

/-- The bytes of the source window (R94). -/
def State.srcBytes (s : State) : List Byte := s.memBytes s.srcAddr.toNat s.srcLen.toNat

/-- A descriptor: a block's tag, its payload's address and its payload's length (R124). -/
structure Descriptor where
  tag : List Byte
  addr : Nat
  len : Nat
  deriving DecidableEq, Repr

/-- The payload window a descriptor names (R124). -/
def Descriptor.payload (d : Descriptor) : Window := ⟨d.addr, d.len⟩

/-- Descriptor k of the table at SRC_ADDR (R124, R131). -/
def State.descriptor (s : State) (k : Nat) : Descriptor where
  tag := s.memBytes (s.srcAddr.toNat + 12 * k) 4
  addr := s.memRead (s.srcAddr.toNat + 12 * k + 4) 4
  len := s.memRead (s.srcAddr.toNat + 12 * k + 8) 4

/-- The descriptors NTR_BUILD reads, in order (R131). -/
def State.descriptors (s : State) : List Descriptor := (List.range s.ntrNblk.toNat).map s.descriptor

/-- The window checks of a command that reads `w` and writes into W(DST_ADDR, DST_CAP) (R262, R65). -/
def State.windowChecks (s : State) (w : Window) : List Check :=
  [(!w.inMem s.params, .srcRange),
   (!s.dstWindow.inMem s.params, .dstRange),
   (w.overlaps s.dstWindow, .overlap)]

/-- The payload windows the descriptor table names: those of the descriptors that lie in MEM (R300; log entry 8). -/
def State.namedPayloads (s : State) : List Window :=
  ((List.range s.ntrNblk.toNat).filter
      (fun k => Window.inMem ⟨s.srcAddr.toNat + 12 * k, 12⟩ s.params)).map
    (fun k => (s.descriptor k).payload)

/-- The windows a command reads (R64, column reads). -/
def State.readWindows (s : State) : Instr → List Window
  | .ntrParse | .pix2tile | .tile2pix | .cipher | .decipher => [s.srcWindow]
  | .ntrBuild => s.tableWindow :: s.namedPayloads
  | .tileHflip | .tileVflip => [s.tileWindow]
  | .oamDec | .oamEnc => []

/-- The window inside which a command writes: none for the OAM commands (R64, column writes). -/
def State.writeWindow (s : State) : Instr → Option Window
  | .ntrParse | .ntrBuild | .pix2tile | .tile2pix | .cipher | .decipher => some s.dstWindow
  | .tileHflip | .tileVflip => some s.tileWindow
  | .oamDec | .oamEnc => none

/-- A command's destination window, of which the footprint is made and which an abandoned command leaves unspecified:
W(DST_ADDR, DST_CAP), or W(DST_ADDR, 64) for the flips (R64, R292). -/
def State.destWindow (s : State) : Instr → Window
  | .ntrParse | .ntrBuild | .pix2tile | .tile2pix | .oamDec | .oamEnc | .cipher | .decipher => s.dstWindow
  | .tileHflip | .tileVflip => s.tileWindow

/-- The command the pending OPCODE selects (R92, R93). -/
def State.fetch (s : State) : Except DecodeError Instr := decodeOpcode s.opcode

/-- The windows the pending command reads: none for a reserved OPCODE (R64, R95). -/
def State.pendingReads (s : State) : List Window :=
  match s.fetch with
  | .ok i => s.readWindows i
  | .error _ => []

/-- The destination window of the pending command: that of a reserved OPCODE is W(DST_ADDR, DST_CAP) too (R64, R292;
log entry 14). -/
def State.pendingDest (s : State) : Window :=
  match s.fetch with
  | .ok i => s.destWindow i
  | .error _ => s.dstWindow

/-- The running command's footprint: the windows it reads and its destination window (R64); empty while BUSY = 0. -/
def State.footprint (s : State) : List Window :=
  if s.status.busy then s.pendingReads ++ [s.pendingDest] else []

/-- Whether an address is in the running command's footprint (R64, R300). -/
def State.inFootprint (s : State) (a : Nat) : Bool := s.footprint.any (fun w => w.has a)

end Sys2Proof.Machine
end

