-- ==== Sys2Proof/Machine/Bus.lean ====
section
/-! DEFINITION. What the host's accesses and the platform's resets do (spec 20_memory.md rules R68, R69, 10_state.md rules
R24, R25, R42 to R44, 70_reset_and_hazards.md rules R290 to R292, R300), and which agent moves next (R20, R303). -/

namespace Sys2Proof.Machine

/-- Whether a register access is inside the interface: 32 bits wide, at a multiple of 4, in the 256-byte aperture (R68,
R66). -/
def regAccessOk (width off : Nat) : Bool := width == 4 && off % 4 == 0 && off < 0x100

/-- The host's register write (R68). -/
def hostRegWrite (width off : Nat) (v : Word) (s : State) : Host.Outcome State Fault Refusal :=
  if regAccessOk width off then .next (s.writeOffset off v) else .refused (.registerAccess width off)

/-- A value returned to the host (log entry 5). -/
def State.record (s : State) (r : HostRead) : State := { s with reads := r :: s.reads }

/-- The host's register read (R68): no side effect (R43). -/
def hostRegRead (width off : Nat) (s : State) : Host.Outcome State Fault Refusal :=
  if regAccessOk width off then .next (s.record (.reg off (s.readOffset off)))
  else .refused (.registerAccess width off)

/-- One host MEM byte write in MEM. In the running command's footprint it is the hazard: the sticky fault is recorded and
the byte holds a free value (R300, U4; log entry 6). -/
def State.storeByte (s : State) (a : Nat) (b : Byte) : State :=
  if s.inFootprint a then { s.spoil a 1 with hazard := some .footprintHazard } else s.writeBytes a [b]

/-- One host MEM byte write (R68). -/
def hostMemWrite (a : Nat) (b : Byte) (s : State) : Host.Outcome State Fault Refusal :=
  if a < s.params.memBytes then .next (s.storeByte a b) else .refused (.memoryAccess a)

/-- One host MEM byte read in MEM. In the running command's footprint it returns a draw (R300, U5). -/
def State.loadByte (s : State) (a : Nat) : State :=
  if s.inFootprint a then { s.record (.mem a (Config.freeByte s.draws)) with draws := s.draws + 1 }
  else s.record (.mem a (s.byteAt a))

/-- One host MEM byte read (R68). -/
def hostMemRead (a : Nat) (s : State) : Host.Outcome State Fault Refusal :=
  if a < s.params.memBytes then .next (s.loadByte a) else .refused (.memoryAccess a)

/-- The pending command is abandoned: each byte of its destination window is unspecified (R292). -/
def State.abandon (s : State) : State :=
  if s.status.busy then s.spoil s.pendingDest.start s.pendingDest.len else s

/-- RESET (R290 to R292; log entry 7). -/
def platformReset (s : State) : Host.Outcome State Fault Refusal := .next s.abandon.resetRegs

/-- Power-on reset (R290, R291; log entries 2 and 7). -/
def platformPowerOn (s : State) : Host.Outcome State Fault Refusal := .next s.resetRegs.powerOnMem

/-- The actions that remain after the first byte of a MEM write. -/
def moreWrites (a : Nat) (bs : List Byte) (rest : List HostAction) : List HostAction :=
  match bs with
  | [] => rest
  | b :: bs => .memWrite a (b :: bs) :: rest

/-- The actions that remain after the first byte of a MEM read. -/
def moreReads (a n : Nat) (rest : List HostAction) : List HostAction :=
  match n with
  | 0 => rest
  | n + 1 => .memRead a (n + 1) :: rest

/-- The actions that remain after one read of STATUS in `wait`: none of its own once BUSY reads 0 (R97). -/
def moreWait (busy : Bool) (rest : List HostAction) : List HostAction := if busy then .wait :: rest else rest

/-- The actions still to come (log entry 5). -/
def State.withScript (s : State) (script : List HostAction) : State := { s with script := script }

/-- The turns still to come (log entry 4). -/
def State.withTurns (s : State) (turns : List Agent) : State := { s with turns := turns }

/-- The host's next access, one at a time in its program order (R69, R71, R97). With nothing left to do it idles. -/
def hostStep (s : State) : Host.Outcome State Fault Refusal :=
  match s.script with
  | [] => .next s
  | .regWrite width off v :: rest => hostRegWrite width off v (s.withScript rest)
  | .regRead width off :: rest => hostRegRead width off (s.withScript rest)
  | .memWrite _ [] :: rest => .next (s.withScript rest)
  | .memWrite a (b :: bs) :: rest => hostMemWrite a b (s.withScript (moreWrites (a + 1) bs rest))
  | .memRead _ 0 :: rest => .next (s.withScript rest)
  | .memRead a (n + 1) :: rest => hostMemRead a (s.withScript (moreReads (a + 1) n rest))
  | .wait :: rest => hostRegRead 4 (Reg.offset .status) (s.withScript (moreWait s.status.busy rest))
  | .reset :: rest => platformReset (s.withScript rest)
  | .powerOn :: rest => platformPowerOn (s.withScript rest)

/-- Which agent moves next: the engine only while BUSY = 1, when its turn has come, no turn is left, or the host has
nothing left to do (R20, R303; log entry 4). -/
def State.nextAgent (s : State) : Agent :=
  if s.status.busy then
    match s.script, s.turns with
    | _ :: _, .host :: _ => .host
    | _, _ => .engine
  else .host

/-- A turn is used up by each step while BUSY = 1 (log entry 4). -/
def State.endTurn (s : State) : State := if s.status.busy then s.withTurns s.turns.tail else s

/-- The completion of a reserved OPCODE: ILLEGAL_OPCODE and nothing else (R95, R264). -/
def illegalCommand (s : State) : Host.Outcome State Fault Refusal := .next (s.complete (.error .illegalOpcode))

end Sys2Proof.Machine
end

