-- ==== Sys2Proof/Machine/Tile.lean ====
section
/-! DEFINITION. The tile/pixel rearrange transform: PIX2TILE, TILE2PIX, TILE_HFLIP and TILE_VFLIP
(spec 41_tile_transform.md). -/

namespace Sys2Proof.Machine

/-- The tile-major index map π_w (R161). -/
def tileIndex (w i : Nat) : Nat :=
  64 * (i / (8 * w) / 8 * w + i % (8 * w) / 8) + 8 * (i / (8 * w) % 8) + i % (8 * w) % 8

/-- The inverse of π_w (R161). -/
def pixelIndex (w j : Nat) : Nat :=
  (8 * (j / 64 / w) + j % 64 / 8) * (8 * w) + 8 * (j / 64 % w) + j % 8

/-- `pixels_to_tiles(p, w)` on its domain: byte π_w(i) of the result is p[i], so byte j is p[π_w⁻¹(j)] (R162). -/
def pixelsToTiles (p : List Byte) (w : Nat) : List Byte :=
  (List.range p.length).map (fun j => byteOf p (pixelIndex w j))

/-- `tiles_to_pixels(q, w)` on its domain: byte i of the result is q[π_w(i)] (R163). -/
def tilesToPixels (q : List Byte) (w : Nat) : List Byte :=
  (List.range q.length).map (fun i => byteOf q (tileIndex w i))

/-- The checks of PIX2TILE and TILE2PIX, in order (R164, R165, R162). -/
def State.tileChecks (s : State) : List Check :=
  s.windowChecks s.srcWindow
    ++ [(s.srcLen.toNat % 64 != 0, .tileLen),
        (s.tiles.toNat == 0, .tileWidthZero),
        (s.srcLen.toNat / 64 % s.tiles.toNat != 0, .tileWidth),
        (decide (s.srcLen.toNat > s.dstCap.toNat), .dstCap)]

/-- The writes of a command whose output has the length of its input: the bytes at DST_ADDR, and RESULT_LEN (R164,
R237). -/
def State.writeSameLength (s : State) (out : List Byte) : State :=
  { s.writeBytes s.dstAddr.toNat out with resultLen := s.srcLen }

/-- PIX2TILE (R164). -/
def execPix2tile (s : State) : Host.Outcome State Fault Refusal :=
  .next (s.complete (checked s.tileChecks (s.writeSameLength (pixelsToTiles s.srcBytes s.tiles.toNat))))

/-- TILE2PIX (R165). -/
def execTile2pix (s : State) : Host.Outcome State Fault Refusal :=
  .next (s.complete (checked s.tileChecks (s.writeSameLength (tilesToPixels s.srcBytes s.tiles.toNat))))

/-- `hflip(T)`: each row mirrored left to right (R166). -/
def hflip (t : List Byte) : List Byte := (List.range 64).map (fun j => byteOf t (8 * (j / 8) + (7 - j % 8)))

/-- `vflip(T)`: the rows mirrored top to bottom (R167). -/
def vflip (t : List Byte) : List Byte := (List.range 64).map (fun j => byteOf t (8 * (7 - j / 8) + j % 8))

/-- The only check of a flip (R168, R169). -/
def State.flipChecks (s : State) : List Check := [(!s.tileWindow.inMem s.params, .dstRange)]

/-- The writes of a flip: the tile at DST_ADDR in place, and RESULT_LEN = 64 (R168, R169). -/
def State.writeFlipped (s : State) (flip : List Byte → List Byte) : State :=
  { s.writeBytes s.dstAddr.toNat (flip (s.memBytes s.dstAddr.toNat 64)) with resultLen := 64 }

/-- TILE_HFLIP (R168). -/
def execTileHflip (s : State) : Host.Outcome State Fault Refusal :=
  .next (s.complete (checked s.flipChecks (s.writeFlipped hflip)))

/-- TILE_VFLIP (R169). -/
def execTileVflip (s : State) : Host.Outcome State Fault Refusal :=
  .next (s.complete (checked s.flipChecks (s.writeFlipped vflip)))

end Sys2Proof.Machine
end

