-- ==== Sys2Proof/Machine/Cipher.lean ====
section
/-! DEFINITION. The LCG-driven XOR stream cipher: CIPHER and DECIPHER (spec 43_stream_cipher.md). -/

namespace Sys2Proof.Machine

/-- The forward step L (R230). -/
def lcgNext (k : Word) : Word := 24691#32 + 1103515245#32 * k

/-- The backward step L⁻¹ (R230). -/
def lcgPrev (k : Word) : Word := 4005161829#32 * (k - 24691#32)

/-- The mask a key gives: key[15:0] (R231, R235). -/
def keyMask (k : Word) : Half := k.extractLsb' 0 16

/-- The 16-bit little-endian words of an even-length byte sequence (R231). -/
def halves : List Byte → List Half
  | lo :: hi :: rest => (hi ++ lo) :: halves rest
  | _ => []

/-- The cipher's walk over words given last to first, each output word in big-endian order (R231). -/
def cipherWalk : List Half → Word → List Byte
  | [], _ => []
  | w :: ws, key =>
    let c := w ^^^ keyMask (lcgPrev key)
    c.extractLsb' 8 8 :: c.extractLsb' 0 8 :: cipherWalk ws (lcgPrev key)

/-- `cipher(d, K)` of an even-length byte sequence: last word to first, then the whole output reversed (R231). -/
def cipher (d : List Byte) (key : Word) : List Byte := (cipherWalk (halves d).reverse key).reverse

/-- The decipher's walk, first word to last: the output and the final key (R235). -/
def decipherWalk : List Half → Word → List Byte × Word
  | [], key => ([], key)
  | v :: vs, key =>
    let p := v ^^^ keyMask key
    let r := decipherWalk vs (lcgNext key)
    (p.extractLsb' 0 8 :: p.extractLsb' 8 8 :: r.1, r.2)

/-- The seed: the first ciphered word, zero extended (R235). -/
def seedOf (c : List Byte) : Word := ((halves c).headD 0).setWidth 32

/-- `decipher(c)` of an even-length byte sequence of at least two bytes (R235). -/
def decipher (c : List Byte) : List Byte × Word := decipherWalk (halves c) (seedOf c)

/-- The checks of CIPHER, in order (R237). -/
def State.cipherChecks (s : State) : List Check :=
  s.windowChecks s.srcWindow
    ++ [(s.srcLen.toNat % 2 != 0, .cipherOdd),
        (decide (s.srcLen.toNat > s.dstCap.toNat), .dstCap)]

/-- CIPHER (R237). -/
def execCipher (s : State) : Host.Outcome State Fault Refusal :=
  .next (s.complete (checked s.cipherChecks (s.writeSameLength (cipher s.srcBytes s.keyIn))))

/-- The checks of DECIPHER, in order (R241). -/
def State.decipherChecks (s : State) : List Check :=
  s.windowChecks s.srcWindow
    ++ [(s.srcLen.toNat % 2 != 0, .cipherOdd),
        (s.srcLen.toNat == 0, .cipherEmpty),
        (decide (s.srcLen.toNat > s.dstCap.toNat), .dstCap)]

/-- The writes of a successful DECIPHER (R241). -/
def State.writeDeciphered (s : State) : State :=
  { s.writeSameLength (decipher s.srcBytes).1 with keyOut := (decipher s.srcBytes).2 }

/-- DECIPHER (R241). -/
def execDecipher (s : State) : Host.Outcome State Fault Refusal :=
  .next (s.complete (checked s.decipherChecks s.writeDeciphered))

end Sys2Proof.Machine
end

