-- ==== Sys2Proof/Machine/Container.lean ====
section
/-! DEFINITION. The NTR container marshaller: NTR_PARSE and NTR_BUILD (spec 40_ntr_container.md). -/

namespace Sys2Proof.Machine

/-- What `ntr_parse` returns of one block: tag, payload offset in the container, payload length (R125). -/
structure Block where
  tag : List Byte
  off : Nat
  len : Nat
  deriving DecidableEq, Repr

/-- What `ntr_parse` returns (R125). -/
structure Parsed where
  tag : List Byte
  ver : Nat
  total : Nat
  count : Nat
  blocks : List Block
  deriving DecidableEq, Repr

/-- Whether a version is one of the two accepted ones (R121, D29). -/
def versionKnown (p : Params) (ver : Nat) : Bool := ver == p.ntrVerA.toNat || ver == p.ntrVerB.toNat

/-- The block loop of `ntr_parse`: `k` blocks from the cursor `o` (R125). -/
def parseBlocks (b : List Byte) : Nat → Nat → Except ErrCode (List Block)
  | 0, _ => .ok []
  | k + 1, o =>
    if o + 8 > b.length then .error .ntrTrunc
    else if u32le b (o + 4) < 8 then .error .ntrBlkSize
    else if o + u32le b (o + 4) > b.length then .error .ntrTrunc
    else
      match parseBlocks b k (o + u32le b (o + 4)) with
      | .ok rest => .ok (⟨sliceOf b o 4, o + 8, u32le b (o + 4) - 8⟩ :: rest)
      | .error e => .error e

/-- The header checks of `ntr_parse`, in cursor order, with the capacity check last (R125, D33). -/
def headerChecks (p : Params) (b : List Byte) (cap : Nat) : List Check :=
  [(decide (0 + 4 > b.length), .ntrTrunc),
   (decide (4 + 2 > b.length), .ntrTrunc),
   (u16le b 4 != p.ntrBom.toNat, .ntrBom),
   (decide (6 + 2 > b.length), .ntrTrunc),
   (!versionKnown p (u16le b 6), .ntrVersion),
   (decide (8 + 4 > b.length), .ntrTrunc),
   (decide (12 + 2 > b.length), .ntrTrunc),
   (u16le b 12 != 16, .ntrHdrSize),
   (decide (14 + 2 > b.length), .ntrTrunc),
   (decide (12 * u16le b 14 > cap), .dstCap)]

/-- `ntr_parse(b, cap)` (R125). The total-size field is read and not checked (R126). -/
def ntrParse (p : Params) (b : List Byte) (cap : Nat) : Except ErrCode Parsed :=
  match firstError (headerChecks p b cap) with
  | some e => .error e
  | none =>
    match parseBlocks b (u16le b 14) 16 with
    | .error e => .error e
    | .ok blocks => .ok ⟨sliceOf b 0 4, u16le b 6, u32le b 8, u16le b 14, blocks⟩

/-- The 12 bytes of the descriptor NTR_PARSE writes for a block, the payload named by its MEM address (R124, R127). -/
def blockDescriptor (base : Nat) (k : Block) : List Byte := k.tag ++ le32 (base + k.off) ++ le32 k.len

/-- NTR_TAG of the four tag bytes in file order (R38, R127). -/
def tagWord (tag : List Byte) : Word := BitVec.ofNat 32 (u32le tag 0)

/-- The four tag bytes of NTR_TAG in file order (R38, R131). -/
def tagBytes (v : Word) : List Byte :=
  [v.extractLsb' 0 8, v.extractLsb' 8 8, v.extractLsb' 16 8, v.extractLsb' 24 8]

/-- The writes of a successful NTR_PARSE (R127). -/
def State.writeParsed (s : State) (r : Parsed) : State :=
  { s.writeBytes s.dstAddr.toNat (r.blocks.flatMap (blockDescriptor s.srcAddr.toNat)) with
    ntrTag := tagWord r.tag
    ntrVer := BitVec.ofNat 16 r.ver
    ntrNblk := BitVec.ofNat 16 r.count
    ntrTotal := BitVec.ofNat 32 r.total
    resultLen := BitVec.ofNat 32 (12 * r.count) }

/-- The semantic function of NTR_PARSE (R127). -/
def ntrParseResult (s : State) : Except ErrCode State :=
  match firstError (s.windowChecks s.srcWindow) with
  | some e => .error e
  | none =>
    match ntrParse s.params s.srcBytes s.dstCap.toNat with
    | .error e => .error e
    | .ok r => .ok (s.writeParsed r)

/-- NTR_PARSE (R127). -/
def execNtrParse (s : State) : Host.Outcome State Fault Refusal := .next (s.complete (ntrParseResult s))

/-- The bytes of one block: tag, size field, payload (R122, R128). -/
def blockBytes (tag payload : List Byte) : List Byte := tag ++ le32 (payload.length + 8) ++ payload

/-- `ntr_build(tag, ver, blocks)`, each block a tag and its payload (R128). -/
def ntrBuild (p : Params) (tag : List Byte) (ver : Nat) (blocks : List (List Byte × List Byte)) : List Byte :=
  tag ++ le16 p.ntrBom.toNat ++ le16 ver
    ++ le32 (16 + (blocks.flatMap (fun k => blockBytes k.1 k.2)).length)
    ++ le16 16 ++ le16 blocks.length
    ++ blocks.flatMap (fun k => blockBytes k.1 k.2)

/-- The total size of the container NTR_BUILD makes: 16 and, for each block, its payload length and 8 (R131). -/
def State.buildTotal (s : State) : Nat := 16 + (s.descriptors.map (fun d => d.len + 8)).sum

/-- The blocks NTR_BUILD frames: each descriptor's tag and the payload it names (R131). -/
def State.buildBlocks (s : State) : List (List Byte × List Byte) :=
  s.descriptors.map (fun d => (d.tag, s.memBytes d.addr d.len))

/-- The checks of NTR_BUILD, in order (R131, R263). -/
def State.buildChecks (s : State) : List Check :=
  s.windowChecks s.tableWindow
    ++ [(!versionKnown s.params s.ntrVer.toNat, .ntrVerArg)]
    ++ s.descriptors.flatMap (fun d =>
        [(!d.payload.inMem s.params, .srcRange), (d.payload.overlaps s.dstWindow, .overlap)])
    ++ [(decide (s.buildTotal > s.dstCap.toNat), .dstCap)]

/-- The writes of a successful NTR_BUILD (R131). -/
def State.writeBuilt (s : State) : State :=
  { s.writeBytes s.dstAddr.toNat (ntrBuild s.params (tagBytes s.ntrTag) s.ntrVer.toNat s.buildBlocks) with
    ntrTotal := BitVec.ofNat 32 s.buildTotal
    resultLen := BitVec.ofNat 32 s.buildTotal }

/-- NTR_BUILD (R131). -/
def execNtrBuild (s : State) : Host.Outcome State Fault Refusal :=
  .next (s.complete (checked s.buildChecks s.writeBuilt))

end Sys2Proof.Machine
end

