-- ==== Sys2Proof/Machine/Oam.lean ====
section
/-! DEFINITION. The sprite OAM codec: OAM_DEC and OAM_ENC (spec 42_oam_codec.md). -/

namespace Sys2Proof.Machine

/-- An OAM record: signed X and Y, and the fields of REC_ATTR (R192). -/
structure OamRec where
  x : Int
  y : Int
  attr : RecAttr
  deriving DecidableEq, Repr

/-- `oam_decode(w0, w1, w2)` (R196, at the positions of R190). W1[11:9] are not read (R197). -/
def oamDecode (w0 w1 w2 : Half) : Except ErrCode OamRec :=
  if w0.extractLsb' 14 2 = 3 then .error .oamShape
  else .ok
    { x := bias 9 (w1.extractLsb' 0 9).toNat
      y := bias 8 (w0.extractLsb' 0 8).toNat
      attr :=
        { affine := w0.getLsbD 8
          disable := w0.getLsbD 9
          objMode := w0.extractLsb' 10 2
          mosaic := w0.getLsbD 12
          color8 := w0.getLsbD 13
          shape := w0.extractLsb' 14 2
          hflip := w1.getLsbD 12
          vflip := w1.getLsbD 13
          size := w1.extractLsb' 14 2
          tile := w2.extractLsb' 0 10
          priority := w2.extractLsb' 10 2
          palette := w2.extractLsb' 12 4 } }

/-- The checks of `oam_encode`, in order (R198, R211). -/
def encodeChecks (r : OamRec) : List Check :=
  [(decide (r.x < -256 ∨ r.x > 255), .oamXRange),
   (decide (r.y < -128 ∨ r.y > 127), .oamYRange),
   (r.attr.shape == 3, .oamRecShape)]

/-- Attribute word 0 of a record (R198, R190). -/
def encodeW0 (r : OamRec) : Half :=
  r.attr.shape ++ BitVec.ofBool r.attr.color8 ++ BitVec.ofBool r.attr.mosaic ++ r.attr.objMode
    ++ BitVec.ofBool r.attr.disable ++ BitVec.ofBool r.attr.affine ++ BitVec.ofInt 8 (unbias 8 r.y)

/-- Attribute word 1 of a record: W1[11:9] are 0 (R198, R190, R197). -/
def encodeW1 (r : OamRec) : Half :=
  r.attr.size ++ BitVec.ofBool r.attr.vflip ++ BitVec.ofBool r.attr.hflip ++ 0#3
    ++ BitVec.ofInt 9 (unbias 9 r.x)

/-- Attribute word 2 of a record (R198, R190). -/
def encodeW2 (r : OamRec) : Half := r.attr.palette ++ r.attr.priority ++ r.attr.tile

/-- `oam_encode(rec)` (R198). -/
def oamEncode (r : OamRec) : Except ErrCode (Half × Half × Half) :=
  match firstError (encodeChecks r) with
  | some e => .error e
  | none => .ok (encodeW0 r, encodeW1 r, encodeW2 r)

/-- The writes of a successful OAM_DEC: the record goes to REC_POS, each half the low 16 bits of the value, and to REC_ATTR
(R200). -/
def State.writeRecord (s : State) (r : OamRec) : State :=
  { s with recX := BitVec.ofInt 16 r.x, recY := BitVec.ofInt 16 r.y, recAttr := r.attr }

/-- The semantic function of OAM_DEC (R200). -/
def oamDecResult (s : State) : Except ErrCode State :=
  match oamDecode s.oamW0 s.oamW1 s.oamW2 with
  | .error e => .error e
  | .ok r => .ok (s.writeRecord r)

/-- OAM_DEC (R200). -/
def execOamDec (s : State) : Host.Outcome State Fault Refusal := .next (s.complete (oamDecResult s))

/-- The record REC_POS and REC_ATTR hold: X and Y read as sext_16 (R94, R210). -/
def State.oamRec (s : State) : OamRec := ⟨s.recX.toInt, s.recY.toInt, s.recAttr⟩

/-- The writes of a successful OAM_ENC (R210). -/
def State.writeTriple (s : State) (w : Half × Half × Half) : State :=
  { s with oamW0 := w.1, oamW1 := w.2.1, oamW2 := w.2.2 }

/-- The semantic function of OAM_ENC (R210). -/
def oamEncResult (s : State) : Except ErrCode State :=
  match oamEncode s.oamRec with
  | .error e => .error e
  | .ok w => .ok (s.writeTriple w)

/-- OAM_ENC (R210). -/
def execOamEnc (s : State) : Host.Outcome State Fault Refusal := .next (s.complete (oamEncResult s))

end Sys2Proof.Machine
end

