-- ==== Sys2Proof/Machine/Dispatch.lean ====
section
/-! DEFINITION. exec: the engine's completion of a command, one arm per constructor (spec 30_encoding.md rules R92, R93). -/

namespace Sys2Proof.Machine

/-- The engine's one event, complete, for the command `i` (R92). -/
def exec (i : Instr) (s : State) : Host.Outcome State Fault Refusal :=
  match i with
  | .ntrParse => Sys2Proof.Machine.execNtrParse s
  | .ntrBuild => Sys2Proof.Machine.execNtrBuild s
  | .pix2tile => Sys2Proof.Machine.execPix2tile s
  | .tile2pix => Sys2Proof.Machine.execTile2pix s
  | .tileHflip => Sys2Proof.Machine.execTileHflip s
  | .tileVflip => Sys2Proof.Machine.execTileVflip s
  | .oamDec => Sys2Proof.Machine.execOamDec s
  | .oamEnc => Sys2Proof.Machine.execOamEnc s
  | .cipher => Sys2Proof.Machine.execCipher s
  | .decipher => Sys2Proof.Machine.execDecipher s

end Sys2Proof.Machine
end

