-- ==== Sys2Proof/Machine/Step.lean ====
section
/-! DEFINITION. One step of the machine: the host's next action or the engine's completion of the pending command
(spec 10_state.md rule R20, 30_encoding.md rule R92). -/

namespace Sys2Proof.Machine

/-- One step: of the host, or of the engine, which completes the command the pending OPCODE selects (R20, R92, R95). -/
def step (s : State) : Host.Outcome State Fault Refusal :=
  match s.nextAgent with
  | .host => hostStep s.endTurn
  | .engine =>
    match s.fetch with
    | .ok i => exec i s.endTurn
    | .error _ => illegalCommand s.endTurn

/-- The state in which the CMD write of the word `w` has just been accepted (R91) and the engine moves next: nothing is
fetched from memory (R21), so the accepted write stands for loading an instruction (log entry 5). -/
def State.withFetchWord (s : State) (nbits w : Nat) : State :=
  { s.startCommand (BitVec.ofNat 32 (w % 2 ^ nbits)) with turns := [] }

end Sys2Proof.Machine
end

