-- ==== Sys2Proof/Machine/Script.lean ====
section
/-! DEFINITION. The host-script statements and pseudo-instructions (spec 30_encoding.md rules R97 to R99) as the actions
they stand for. -/

namespace Sys2Proof.Machine

/-- `wr REG, imm` (R97). -/
def wr (r : Reg) (v : Word) : HostAction := .regWrite 4 r.offset v

/-- `rd REG` (R97). -/
def rd (r : Reg) : HostAction := .regRead 4 r.offset

/-- `cmd MNEMONIC` (R97). -/
def cmd (i : Instr) : HostAction := wr .cmd (encode i)

/-- `ack`: clear DONE, ERR and OVR (R97). -/
def ack : HostAction := wr .status 0x0000000E#32

/-- `ntr.parse dst, cap, src, len` (R98). -/
def scriptNtrParse (dst cap src len : Word) : List HostAction :=
  [wr .srcAddr src, wr .srcLen len, wr .dstAddr dst, wr .dstCap cap, cmd .ntrParse, .wait]

/-- `ntr.build dst, cap, tbl, tag, ver, n` (R98). -/
def scriptNtrBuild (dst cap tbl tag ver n : Word) : List HostAction :=
  [wr .srcAddr tbl, wr .dstAddr dst, wr .dstCap cap, wr .ntrTag tag, wr .ntrVer ver, wr .ntrNblk n,
   cmd .ntrBuild, .wait]

/-- `pix2tile dst, cap, src, len, w` (R98). -/
def scriptPix2tile (dst cap src len w : Word) : List HostAction :=
  [wr .srcAddr src, wr .srcLen len, wr .dstAddr dst, wr .dstCap cap, wr .width w, cmd .pix2tile, .wait]

/-- `tile2pix dst, cap, src, len, w` (R98). -/
def scriptTile2pix (dst cap src len w : Word) : List HostAction :=
  [wr .srcAddr src, wr .srcLen len, wr .dstAddr dst, wr .dstCap cap, wr .width w, cmd .tile2pix, .wait]

/-- `tile.hflip a` (R98, R99). -/
def scriptTileHflip (a : Word) : List HostAction := [wr .dstAddr a, cmd .tileHflip, .wait]

/-- `tile.vflip a` (R98). -/
def scriptTileVflip (a : Word) : List HostAction := [wr .dstAddr a, cmd .tileVflip, .wait]

/-- `oam.dec w0, w1, w2` (R98). -/
def scriptOamDec (w0 w1 w2 : Word) : List HostAction :=
  [wr .oamW0 w0, wr .oamW1 w1, wr .oamW2 w2, cmd .oamDec, .wait]

/-- `oam.enc pos, attr` (R98). -/
def scriptOamEnc (pos attr : Word) : List HostAction := [wr .recPos pos, wr .recAttr attr, cmd .oamEnc, .wait]

/-- `cipher dst, cap, src, len, key` (R98). -/
def scriptCipher (dst cap src len key : Word) : List HostAction :=
  [wr .srcAddr src, wr .srcLen len, wr .dstAddr dst, wr .dstCap cap, wr .keyIn key, cmd .cipher, .wait]

/-- `decipher dst, cap, src, len` (R98). -/
def scriptDecipher (dst cap src len : Word) : List HostAction :=
  [wr .srcAddr src, wr .srcLen len, wr .dstAddr dst, wr .dstCap cap, cmd .decipher, .wait]

end Sys2Proof.Machine
end

