-- ==== Sys2Proof/Safety.lean ====
section
/-! DEFINITION. The terms claims are stated in: what a run about which claims are made is, frames over registers and MEM,
and the invariants of the machine. -/

namespace Sys2Proof.Machine

/-- No hazard has been recorded: only of such runs is a claim made about the hardware (R300). -/
abbrev State.Clean (s : State) : Prop := s.hazard = none

/-- The answer of a step that has a next state. -/
abbrev Answer := Host.Outcome State Fault Refusal

/-! ## Frames -/

/-- Every register outside the list reads in `t` as in `s` (R22, R94). -/
def SameRegs (written : List Reg) (s t : State) : Prop := ∀ r : Reg, r ∉ written → t.readReg r = s.readReg r

/-- Every byte of MEM reads in `t` as in `s`. -/
def SameMem (s t : State) : Prop := ∀ a : Nat, t.byteAt a = s.byteAt a

/-- Every byte of MEM outside the window reads in `t` as in `s` (R64). -/
def SameMemOutside (w : Window) (s t : State) : Prop :=
  ∀ a : Nat, ¬ (w.start ≤ a ∧ a < w.start + w.len) → t.byteAt a = s.byteAt a

/-- The hazard, the parameters and the model's own fields but `draws` are the same. -/
def SameSurroundings (s t : State) : Prop :=
  t.hazard = s.hazard ∧ t.params = s.params ∧ t.powerOns = s.powerOns
    ∧ t.script = s.script ∧ t.turns = s.turns ∧ t.reads = s.reads

/-- STATUS after a completion without error: BUSY 0, DONE 1, the other fields as they were (R92, R25). -/
def DoneStatus (s t : State) : Prop := t.status = { s.status with busy := false, done := true }

/-- STATUS after a completion with the error of this class and code: BUSY 0, DONE 0, ERR 1, OVR as it was (R264). -/
def ErrStatus (cls : BitVec 4) (code : BitVec 8) (s t : State) : Prop :=
  t.status = { busy := false, done := false, err := true, ovr := s.status.ovr, errClass := cls, errCode := code }

/-- The registers a command may write besides STATUS, by the family rules (R127, R131, R164, R165, R168, R169, R200, R210,
R237, R241). -/
def writtenRegs : Instr → List Reg
  | .ntrParse => [.ntrTag, .ntrVer, .ntrNblk, .ntrTotal, .resultLen]
  | .ntrBuild => [.ntrTotal, .resultLen]
  | .pix2tile | .tile2pix | .tileHflip | .tileVflip | .cipher => [.resultLen]
  | .oamDec => [.recPos, .recAttr]
  | .oamEnc => [.oamW0, .oamW1, .oamW2]
  | .decipher => [.keyOut, .resultLen]

/-- The command completes without error in a state with `P`: exec answers a next state; STATUS has BUSY 0 and DONE 1; no
register changes but STATUS and those the command's rule writes; no free byte is drawn, and the hazard, the parameters
and the model's own fields stay (R92). -/
def Completes (i : Instr) (s : State) (P : State → Prop) : Prop :=
  ∃ t, exec i s = .next t ∧ DoneStatus s t ∧ SameRegs (.status :: writtenRegs i) s t
    ∧ SameSurroundings s t ∧ t.draws = s.draws ∧ P t

/-- A command that fails with this class and code and leaves MEM unchanged (R264): no register but STATUS changes. -/
def FailsClean (i : Instr) (cls : BitVec 4) (code : BitVec 8) (s : State) : Prop :=
  ∃ t, exec i s = .next t ∧ ErrStatus cls code s t ∧ SameRegs [.status] s t ∧ SameMem s t ∧ SameSurroundings s t

/-- A command that fails with this class and code and leaves W(DST_ADDR, DST_CAP) unspecified (R264): no register but
STATUS changes, and no byte outside the window. -/
def FailsSpoiling (i : Instr) (cls : BitVec 4) (code : BitVec 8) (s : State) : Prop :=
  ∃ t, exec i s = .next t ∧ ErrStatus cls code s t ∧ SameRegs [.status] s t
    ∧ SameMemOutside s.dstWindow s t ∧ SameSurroundings s t

/-- The ERRCODE values after which MEM is unchanged: ILLEGAL_OPCODE, SRC_RANGE, DST_RANGE, OVERLAP and the OAM errors
(R264, R261). -/
def cleanCodes : List (BitVec 8) := [0x01#8, 0x02#8, 0x03#8, 0x04#8, 0x20#8, 0x21#8, 0x22#8, 0x23#8]

/-- R263: the command reports the first violated check of the list, each with the class and the code it reports; `clear`
holds when none is violated. -/
def ReportsFirst (i : Instr) (s : State) (clear : Prop) : List (Prop × BitVec 4 × BitVec 8) → Prop
  | [] => clear
  | (violated, cls, code) :: rest =>
    (violated → if code ∈ cleanCodes then FailsClean i cls code s else FailsSpoiling i cls code s)
      ∧ (¬ violated → ReportsFirst i s clear rest)

/-- The command completes without error (R92). -/
def Succeeds (i : Instr) (s : State) : Prop := ∃ t, exec i s = .next t ∧ DoneStatus s t

/-- The windows [a, a + n) and [b, b + m) overlap (R63). -/
def Overlap (a n b m : Nat) : Prop := 0 < n ∧ 0 < m ∧ a < b + m ∧ b < a + n

/-- The window checks of a command that reads [a, a + n) and writes into W(DST_ADDR, DST_CAP), in order (R262). -/
def windowOrder (s : State) (a n : Nat) : List (Prop × BitVec 4 × BitVec 8) :=
  [(a + n > s.params.memBytes, 3#4, 0x02#8),
   (s.dstAddr.toNat + s.dstCap.toNat > s.params.memBytes, 3#4, 0x03#8),
   (Overlap a n s.dstAddr.toNat s.dstCap.toNat, 3#4, 0x04#8)]

/-- The windows of a command that reads [a, a + n) and writes into W(DST_ADDR, DST_CAP) pass every window check (R262). -/
def WindowsOk (s : State) (a n : Nat) : Prop :=
  a + n ≤ s.params.memBytes ∧ s.dstAddr.toNat + s.dstCap.toNat ≤ s.params.memBytes
    ∧ ¬ Overlap a n s.dstAddr.toNat s.dstCap.toNat

/-- The version is one of the two accepted ones (R121). -/
def VersionOk (s : State) (ver : Nat) : Prop := ver = s.params.ntrVerA.toNat ∨ ver = s.params.ntrVerB.toNat

/-- The reserved OPCODE values (R95). -/
def ReservedOpcode (op : Nat) : Prop :=
  op ≤ 0x0F ∨ (0x12 ≤ op ∧ op ≤ 0x1F) ∨ (0x24 ≤ op ∧ op ≤ 0x2F) ∨ (0x32 ≤ op ∧ op ≤ 0x3F)
    ∨ (0x42 ≤ op ∧ op ≤ 0xFF)

/-- The host moves next: nothing is running, or its turn has come and it has something left to do (R20; log entry 4). -/
def HostMoves (s : State) : Prop :=
  s.status.busy = false ∨ (s.script ≠ [] ∧ s.turns.head? = some .host)

/-- The engine moves next: a command is running, and the host's turn has not come or it has nothing left to do (R20, R303;
log entry 4). -/
def EngineMoves (s : State) : Prop :=
  s.status.busy = true ∧ (s.script = [] ∨ s.turns.head? ≠ some .host)

/-- The RW registers whose host write is a plain store, each with the bits a write stores: the reserved bits are 0
(R22, R31, R35, R37, R39, R40). -/
def storeMasks : List (Reg × Word) :=
  [(.srcAddr, 0xFFFFFFFF#32), (.srcLen, 0xFFFFFFFF#32), (.dstAddr, 0xFFFFFFFF#32), (.dstCap, 0xFFFFFFFF#32),
   (.width, 0x0000FFFF#32), (.keyIn, 0xFFFFFFFF#32), (.oamW0, 0x0000FFFF#32), (.oamW1, 0x0000FFFF#32),
   (.oamW2, 0x0000FFFF#32), (.recPos, 0xFFFFFFFF#32), (.recAttr, 0x0FFFFFFF#32), (.ntrTag, 0xFFFFFFFF#32),
   (.ntrVer, 0x0000FFFF#32), (.ntrNblk, 0x0000FFFF#32)]

/-- The RO registers (R22). -/
def readOnlyRegs : List Reg := [.id, .keyOut, .resultLen, .ntrTotal]

/-! ## Invariants -/

/-- MEM is in canonical form and lists only addresses that exist (R60). -/
def State.MemoryLegal (s : State) : Prop := s.mem.wf ∧ s.mem.inside s.params.memBytes

/-- ERRCLASS and ERRCODE hold a pair of the table of R261. -/
def Status.NamesError (f : Status) : Prop := ∃ e : ErrCode, f.errClass = e.errClass ∧ f.errCode = e.code

/-- ERRCLASS and ERRCODE are both 0 (R260, R261: no error). -/
def Status.NoError (f : Status) : Prop := f.errClass = 0 ∧ f.errCode = 0

/-- What R25, R91 and R92 make of STATUS: a running command has neither completion flag and no error identity, DONE and
ERR exclude each other, DONE comes with no error identity, ERR comes with one, and the identity is one of R261. -/
def Status.Legal (f : Status) : Prop :=
  (f.busy = true → f.done = false ∧ f.err = false ∧ f.NoError)
    ∧ (f.done = true → f.err = false ∧ f.NoError)
    ∧ (f.err = true → f.NamesError)
    ∧ (f.NoError ∨ f.NamesError)

/-! ## Containers -/

/-- The blocks that the framing rule R122 reads from the cursor `o` of the container `b`, each with its tag, payload
offset and payload length (R125). -/
def FramedFrom (b : List Byte) : Nat → List Block → Prop
  | _, [] => True
  | o, k :: rest =>
    o + 8 ≤ b.length ∧ 8 ≤ u32le b (o + 4) ∧ o + u32le b (o + 4) ≤ b.length
      ∧ k = ⟨sliceOf b o 4, o + 8, u32le b (o + 4) - 8⟩ ∧ FramedFrom b (o + u32le b (o + 4)) rest

/-- The offset of block k in the container NTR_BUILD makes: 16 and the sizes of the blocks before it (R121, R122). -/
def State.blockOffset (s : State) (k : Nat) : Nat := 16 + ((s.descriptors.take k).map (fun d => d.len + 8)).sum

end Sys2Proof.Machine
end

