-- ==== Sys2Proof/Certificates/Slice0/Obligations.lean ====
section
/-! DEFINITION. The statements about NITROGFX-XF, from the numbered rules of spec/. They are about every state, and so
about every choice of the parameters, of the free values and of the schedule. -/

open Sys2Proof Sys2Proof.Machine

/-! ## Encoding and stepping -/

/-- R90, R93: for every command and every value of the ignored bits [31:8], the CMD word decodes to the command, and only
such words do. -/
def Obligations.DecodeInvertsEncode : Prop :=
  ∀ i : Instr, i.wf = true →
    (∀ ignored : BitVec 24, decode (encodeWith ignored i) = .ok i)
      ∧ ∀ w : Word, decode w = .ok i → w = encodeWith (w.extractLsb' 8 24) i

/-- R93: the ten rows of the opcode map, with every value of bits [31:8], and that no other OPCODE decodes; and words
written out from R90, R93 and R95. -/
def Obligations.OpcodeMapRows : Prop :=
  (decode 0x00000010#32 = .ok .ntrParse ∧ decode 0x00000022#32 = .ok .tileHflip
    ∧ decode 0xFFFFFF30#32 = .ok .oamDec ∧ decode 0x00000040#32 = .ok .cipher
    ∧ decode 0x000001FF#32 = .error (.illegalOpcode 0xFF#8))
  ∧ ∀ x : BitVec 24,
    decode (x ++ 0x10#8) = .ok .ntrParse ∧ decode (x ++ 0x11#8) = .ok .ntrBuild
      ∧ decode (x ++ 0x20#8) = .ok .pix2tile ∧ decode (x ++ 0x21#8) = .ok .tile2pix
      ∧ decode (x ++ 0x22#8) = .ok .tileHflip ∧ decode (x ++ 0x23#8) = .ok .tileVflip
      ∧ decode (x ++ 0x30#8) = .ok .oamDec ∧ decode (x ++ 0x31#8) = .ok .oamEnc
      ∧ decode (x ++ 0x40#8) = .ok .cipher ∧ decode (x ++ 0x41#8) = .ok .decipher
      ∧ ∀ (op : Byte) (i : Instr), decode (x ++ op) = .ok i →
          op ∈ [0x10#8, 0x11#8, 0x20#8, 0x21#8, 0x22#8, 0x23#8, 0x30#8, 0x31#8, 0x40#8, 0x41#8]

/-- R95: a CMD word with a reserved OPCODE names no command, whatever its bits [31:8]; a CMD write of one is accepted; and
when the engine moves with one pending, the step completes it with ILLEGAL_OPCODE (class 4, code 0x01), and no other
register and no MEM byte changes. -/
def Obligations.ReservedOpcodeCompletesIllegal : Prop :=
  (∀ v : Word, ReservedOpcode (v.toNat % 256) → decode v = .error (.illegalOpcode (v.extractLsb' 0 8)))
  ∧ (∀ (s : State) (v : Word) (rest : List HostAction),
      s.status.busy = false → s.script = .regWrite 4 0x04 v :: rest → ReservedOpcode (v.toNat % 256) →
      ∃ t, step s = .next t ∧ t.pending = some (v.extractLsb' 0 8))
  ∧ ∀ s : State, EngineMoves s → ReservedOpcode s.opcode.toNat →
      ∃ t, step s = .next t ∧ ErrStatus 4#4 0x01#8 s t ∧ SameRegs [.status] s t ∧ SameMem s t
        ∧ SameSurroundings { s with turns := s.turns.tail } t

/-- R92: when the engine moves, a step is exec of the command the pending OPCODE decodes to; around exec, the step uses
up one turn. -/
def Obligations.StepRunsPendingCommand : Prop :=
  ∀ (s : State) (w : Word) (i : Instr),
    EngineMoves s → w.extractLsb' 0 8 = s.opcode → decode w = .ok i →
    step s = exec i { s with turns := s.turns.tail }

/-- R20: when the host moves, a step is the host's next access; while BUSY = 1 it uses up one turn. -/
def Obligations.StepRunsHostAccess : Prop :=
  ∀ s : State, HostMoves s →
    step s = hostStep (if s.status.busy = true then { s with turns := s.turns.tail } else s)

/-! ## The host's accesses -/

/-- R91: a CMD write while BUSY = 0 latches OPCODE, sets BUSY, clears DONE, ERR, ERRCLASS and ERRCODE, and makes the
command pending; nothing else changes. -/
def Obligations.CmdWriteStartsCommand : Prop :=
  ∀ (s : State) (v : Word) (rest : List HostAction),
    s.status.busy = false → s.script = .regWrite 4 0x04 v :: rest →
    ∃ t, step s = .next t ∧ t.opcode = v.extractLsb' 0 8
      ∧ t.status = { busy := true, done := false, err := false, ovr := s.status.ovr, errClass := 0, errCode := 0 }
      ∧ t.pending = some (v.extractLsb' 0 8)
      ∧ SameRegs [.cmd, .status] s t ∧ SameMem s t ∧ SameSurroundings { s with script := rest } t

/-- R43: after a host write of a register while BUSY = 0, an RW register reads as the value written with its reserved
bits 0, an RO register reads as before, and of STATUS the W1C bits written 1 are cleared; no other register and no byte
of MEM changes. -/
def Obligations.RegisterWriteObeysAccessType : Prop :=
  ∀ (s : State) (r : Reg) (v : Word) (rest : List HostAction),
    s.status.busy = false → r ≠ .cmd → s.script = .regWrite 4 r.offset v :: rest →
    ∃ t, step s = .next t ∧ SameRegs [r] s t ∧ SameMem s t ∧ SameSurroundings { s with script := rest } t
      ∧ (∀ m, (r, m) ∈ storeMasks → t.readReg r = v &&& m)
      ∧ (r = .irqen → t.readReg r = v &&& 1#32)
      ∧ (r = .status → t.readReg r = s.readReg r &&& ~~~(v &&& 0x0000000E#32))
      ∧ (r ∈ readOnlyRegs → t.readReg r = s.readReg r)

/-- R44: while BUSY = 1, a host write to a register other than STATUS, IRQEN and CMD is ignored; a CMD write sets OVR and
is otherwise ignored; STATUS is W1C; IRQEN is written; and a read returns the register's current value. -/
def Obligations.BusyRegisterAccess : Prop :=
  ∀ (s : State) (r : Reg) (v : Word) (rest : List HostAction),
    s.status.busy = true → s.turns.head? = some .host →
    (s.script = .regWrite 4 r.offset v :: rest →
      ∃ t, step s = .next t ∧ SameRegs (if r = .cmd then [.status] else [r]) s t ∧ SameMem s t
        ∧ SameSurroundings { s with script := rest, turns := s.turns.tail } t
        ∧ (r = .cmd → t.status = { s.status with ovr := true })
        ∧ (r = .status → t.readReg r = s.readReg r &&& ~~~(v &&& 0x0000000E#32))
        ∧ (r = .irqen → t.readReg r = v &&& 1#32)
        ∧ (r ≠ .cmd → r ≠ .status → r ≠ .irqen → t.readReg r = s.readReg r)
        ∧ (r ≠ .cmd → r ≠ .status → t.status = s.status))
    ∧ (s.script = .regRead 4 r.offset :: rest →
      ∃ t, step s = .next t ∧ t.reads = .reg r.offset (s.readReg r) :: s.reads
        ∧ SameRegs [] s t ∧ SameMem s t)

/-- R43, R69: a host register read returns the register and has no side effect. -/
def Obligations.RegisterReadHasNoSideEffect : Prop :=
  ∀ (s : State) (r : Reg) (rest : List HostAction), HostMoves s → s.script = .regRead 4 r.offset :: rest →
    ∃ t, step s = .next t ∧ t.reads = .reg r.offset (s.readReg r) :: s.reads ∧ t.script = rest
      ∧ SameRegs [] s t ∧ SameMem s t ∧ t.hazard = s.hazard ∧ t.params = s.params ∧ t.draws = s.draws

/-- R42: a read of a reserved offset returns 0 and a write of one is ignored. -/
def Obligations.ReservedOffsetsReadZero : Prop :=
  ∀ (s : State) (off : Nat) (v : Word) (rest : List HostAction),
    HostMoves s → 0x54 ≤ off → off ≤ 0xFC → off % 4 = 0 →
    (s.script = .regRead 4 off :: rest →
      ∃ t, step s = .next t ∧ t.reads = .reg off 0 :: s.reads ∧ SameRegs [] s t ∧ SameMem s t)
    ∧ (s.script = .regWrite 4 off v :: rest →
      ∃ t, step s = .next t ∧ t.reads = s.reads ∧ SameRegs [] s t ∧ SameMem s t)

/-- R25: where each field of STATUS stands in the register word, and that every other bit reads 0. -/
def Obligations.StatusWordLayout : Prop :=
  ∀ s : State, (s.readReg .status).toNat
    = s.status.busy.toNat + 2 * s.status.done.toNat + 4 * s.status.err.toNat + 8 * s.status.ovr.toNat
      + 2 ^ 8 * s.status.errClass.toNat + 2 ^ 16 * s.status.errCode.toNat

/-- R37: where each field of REC_ATTR stands in the register word, and that bits [31:28] read 0. -/
def Obligations.RecAttrWordLayout : Prop :=
  ∀ s : State, (s.readReg .recAttr).toNat
    = s.recAttr.affine.toNat + 2 * s.recAttr.disable.toNat + 4 * s.recAttr.mosaic.toNat
      + 8 * s.recAttr.hflip.toNat + 16 * s.recAttr.vflip.toNat + 32 * s.recAttr.color8.toNat
      + 2 ^ 6 * s.recAttr.objMode.toNat + 2 ^ 8 * s.recAttr.shape.toNat + 2 ^ 10 * s.recAttr.size.toNat
      + 2 ^ 12 * s.recAttr.tile.toNat + 2 ^ 22 * s.recAttr.priority.toNat + 2 ^ 24 * s.recAttr.palette.toNat

/-- R68: a register access that is not 32 bits wide at a multiple of 4 in the 256-byte aperture has no step; a MEM byte
access has a step below MEM_BYTES and none from there on; a wider MEM write is the sequence of its byte writes, in order
of address. -/
def Obligations.HostAccessInterface : Prop :=
  ∀ (s : State) (rest : List HostAction), HostMoves s →
    (∀ (width off : Nat) (v : Word), width ≠ 4 ∨ off % 4 ≠ 0 ∨ 0x100 ≤ off →
      (s.script = .regWrite width off v :: rest → step s = .refused (.registerAccess width off))
      ∧ (s.script = .regRead width off :: rest → step s = .refused (.registerAccess width off)))
    ∧ (∀ (a n : Nat) (b : Byte) (bs : List Byte), s.params.memBytes ≤ a →
      (s.script = .memWrite a (b :: bs) :: rest → step s = .refused (.memoryAccess a))
      ∧ (s.script = .memRead a (n + 1) :: rest → step s = .refused (.memoryAccess a)))
    ∧ (∀ (a n : Nat) (b : Byte) (bs : List Byte), a < s.params.memBytes →
      (s.script = .memWrite a (b :: bs) :: rest →
        ∃ t, step s = .next t ∧ t.script = (if bs = [] then rest else .memWrite (a + 1) bs :: rest)
          ∧ step { s with script := .memWrite a [b] :: rest } = .next { t with script := rest })
      ∧ (s.script = .memRead a (n + 1) :: rest →
        ∃ t, step s = .next t ∧ t.script = (if n = 0 then rest else .memRead (a + 1) n :: rest)
          ∧ step { s with script := .memRead a 1 :: rest } = .next { t with script := rest }))

/-- R60, R71: outside a running command's footprint, a host byte write stores the byte and changes no other byte and no
register, and a host byte read returns the byte and changes nothing. -/
def Obligations.HostByteAccess : Prop :=
  ∀ (s : State) (a : Nat) (b : Byte) (rest : List HostAction),
    HostMoves s → a < s.params.memBytes → s.inFootprint a = false →
    (s.script = .memWrite a [b] :: rest →
      ∃ t, step s = .next t ∧ t.byteAt a = b ∧ SameMemOutside ⟨a, 1⟩ s t ∧ SameRegs [] s t ∧ t.script = rest
        ∧ t.hazard = s.hazard)
    ∧ (s.script = .memRead a 1 :: rest →
      ∃ t, step s = .next t ∧ t.reads = .mem a (s.byteAt a) :: s.reads ∧ SameMem s t ∧ SameRegs [] s t
        ∧ t.script = rest ∧ t.hazard = s.hazard)

/-- R300: while BUSY = 1, a host write to a byte of a window the running command reads or of its destination window records
the hazard fault, and a host read of one returns a draw (a free value, whatever it is); no register and no other byte
changes. The same for a reserved OPCODE, whose destination window is the model's reading (log entry 14). What the written
byte holds, and the free values, are the model's (log entries 3 and 6). -/
def Obligations.FootprintAccessIsHazard : Prop :=
  ∀ (s : State) (w : Window) (a : Nat) (b : Byte) (rest : List HostAction),
    s.status.busy = true → s.turns.head? = some .host →
    ((∃ i, decodeOpcode s.opcode = .ok i ∧ (w ∈ s.readWindows i ∨ w = s.destWindow i))
      ∨ (ReservedOpcode s.opcode.toNat ∧ w = s.dstWindow)) →
    w.start ≤ a → a < w.start + w.len → a < s.params.memBytes →
    (s.script = .memWrite a [b] :: rest →
      ∃ t, step s = .next t ∧ t.hazard = some .footprintHazard ∧ SameRegs [] s t ∧ SameMemOutside ⟨a, 1⟩ s t)
    ∧ (s.script = .memRead a 1 :: rest →
      ∃ t, step s = .next t ∧ t.hazard = s.hazard ∧ t.reads = .mem a (Config.freeByte s.draws) :: s.reads
        ∧ SameRegs [] s t ∧ SameMem s t)

/-- R300: the hazard fault is never cleared, by any step. -/
def Obligations.HazardIsSticky : Prop :=
  ∀ (s t : State) (f : Fault), step s = .next t → s.hazard = some f → t.hazard = some .footprintHazard

/-- R64: which windows make a command's footprint, in W(DST_ADDR, DST_CAP) also of the OAM commands; of NTR_BUILD, the
payload windows its descriptors name as well. That a reserved OPCODE has the footprint of the OAM commands is the model's
reading (log entry 14). -/
def Obligations.FootprintIsReadAndDestination : Prop :=
  ∀ (s : State) (a : Nat), s.status.busy = true →
    (s.opcode ∈ [0x10#8, 0x20#8, 0x21#8, 0x40#8, 0x41#8] →
      (s.inFootprint a = true ↔
        (s.srcAddr.toNat ≤ a ∧ a < s.srcAddr.toNat + s.srcLen.toNat)
          ∨ (s.dstAddr.toNat ≤ a ∧ a < s.dstAddr.toNat + s.dstCap.toNat)))
    ∧ (s.opcode = 0x11#8 → s.srcAddr.toNat + 12 * s.ntrNblk.toNat ≤ s.params.memBytes →
      (s.inFootprint a = true ↔
        (s.srcAddr.toNat ≤ a ∧ a < s.srcAddr.toNat + 12 * s.ntrNblk.toNat)
          ∨ (s.dstAddr.toNat ≤ a ∧ a < s.dstAddr.toNat + s.dstCap.toNat)
          ∨ ∃ k, k < s.ntrNblk.toNat ∧ s.memRead (s.srcAddr.toNat + 12 * k + 4) 4 ≤ a
              ∧ a < s.memRead (s.srcAddr.toNat + 12 * k + 4) 4 + s.memRead (s.srcAddr.toNat + 12 * k + 8) 4))
    ∧ (s.opcode ∈ [0x22#8, 0x23#8] →
      (s.inFootprint a = true ↔ s.dstAddr.toNat ≤ a ∧ a < s.dstAddr.toNat + 64))
    ∧ (s.opcode ∈ [0x30#8, 0x31#8] ∨ ReservedOpcode s.opcode.toNat →
      (s.inFootprint a = true ↔ s.dstAddr.toNat ≤ a ∧ a < s.dstAddr.toNat + s.dstCap.toNat))

/-! ## Reset, interrupt, liveness -/

/-- R290, R22: the state right after the power-on reset: ID reads 0x4E545258 and every other register 0, no command is
pending, and IRQ is deasserted. -/
def Obligations.ResetStateRegisters : Prop :=
  (∀ r : Reg, State.reset.readReg r = if r = .id then 0x4E545258#32 else 0#32)
    ∧ State.reset.pending = none ∧ State.reset.irq = false

/-- R290: RESET and the power-on reset, at any time, return every register to its reset value, with no pending command and
IRQ deasserted; RESET leaves MEM unchanged if no command was running. -/
def Obligations.ResetReturnsRegisters : Prop :=
  ∀ (s : State) (rest : List HostAction), HostMoves s → s.script = .reset :: rest ∨ s.script = .powerOn :: rest →
    ∃ t, step s = .next t ∧ (∀ r : Reg, t.readReg r = if r = .id then 0x4E545258#32 else 0#32)
      ∧ t.status.busy = false ∧ t.pending = none ∧ t.irq = false ∧ t.script = rest
      ∧ (s.script = .reset :: rest → s.status.busy = false → SameMem s t)

/-- R292: RESET while BUSY = 1 abandons the command: neither DONE nor ERR is set, each byte of its destination window,
W(DST_ADDR, 64) for a flip and else W(DST_ADDR, DST_CAP), that is in MEM (log entry 9) holds a free value (log entry 3), and
no byte outside the window changes. A reserved OPCODE is a command here too (log entry 14). -/
def Obligations.ResetAbandonsRunningCommand : Prop :=
  ∀ (s : State) (rest : List HostAction) (len : Nat),
    s.status.busy = true → s.turns.head? = some .host → s.script = .reset :: rest →
    len = (if s.opcode = 0x22#8 ∨ s.opcode = 0x23#8 then 64 else s.dstCap.toNat) →
    ∃ t, step s = .next t ∧ t.status.busy = false ∧ t.status.done = false ∧ t.status.err = false ∧ t.pending = none
      ∧ SameMemOutside ⟨s.dstAddr.toNat, len⟩ s t
      ∧ ∀ k, k < len → s.dstAddr.toNat + k < s.params.memBytes →
          t.byteAt (s.dstAddr.toNat + k) = Config.freeByte (s.draws + k)

/-- R291: after a power-on reset every byte of MEM holds a fresh free value, and the registers are at reset. -/
def Obligations.PowerOnDrawsMemory : Prop :=
  ∀ (s : State) (rest : List HostAction), HostMoves s → s.script = .powerOn :: rest →
    ∃ t, step s = .next t ∧ (∀ a, t.byteAt a = Config.powerOnByte (s.powerOns + 1) a)
      ∧ (∀ r : Reg, t.readReg r = if r = .id then 0x4E545258#32 else 0#32) ∧ t.pending = none

/-- R266: IRQ = IRQEN.IE and (STATUS.DONE or STATUS.ERR), read from the registers; a host write of 1 to the DONE and ERR
bits of STATUS, and the start of the next command, clear it. -/
def Obligations.IrqIsLevelOfCompletion : Prop :=
  (∀ s : State, s.irq = true ↔
    (s.readReg .irqen).getLsbD 0 = true
      ∧ ((s.readReg .status).getLsbD 1 = true ∨ (s.readReg .status).getLsbD 2 = true))
  ∧ (∀ (s : State) (v : Word) (rest : List HostAction), HostMoves s → s.script = .regWrite 4 0x08 v :: rest →
      v &&& 0x00000006#32 = 0x00000006#32 → ∃ t, step s = .next t ∧ t.irq = false)
  ∧ ∀ (s : State) (v : Word) (rest : List HostAction), s.status.busy = false → s.script = .regWrite 4 0x04 v :: rest →
      ∃ t, step s = .next t ∧ t.irq = false

/-- R303: while a command runs, every step either ends it or uses up one of the finitely many turns. -/
def Obligations.RunningCommandEnds : Prop :=
  ∀ s t : State, s.status.busy = true → step s = .next t →
    t.status.busy = false ∨ t.turns.length < s.turns.length

/-! ## Errors and frames, over all commands -/

/-- R92, R25: every command completes: exec answers a next state with BUSY 0, exactly one of DONE and ERR set, and OVR as
it was. -/
def Obligations.EveryCommandCompletes : Prop :=
  ∀ (i : Instr) (s : State), s.status.err = false →
    ∃ t, exec i s = .next t ∧ t.status.busy = false ∧ t.status.done = !t.status.err ∧ t.status.ovr = s.status.ovr

/-- R264: what an error commits. STATUS reports it; no other register changes; MEM is unchanged after the errors named,
and after every other error each byte of W(DST_ADDR, DST_CAP) holds a free value and no other byte changes; the window
NTR_BUILD reads its table from, and the source window of the other commands, are never written. -/
def Obligations.ErrorCommit : Prop :=
  ∀ (i : Instr) (s t : State), exec i s = .next t → s.status.err = false → t.status.err = true →
    t.status.busy = false ∧ t.status.done = false ∧ t.status.ovr = s.status.ovr
      ∧ SameRegs [.status] s t
      ∧ (t.status.errCode ∈ cleanCodes → SameMem s t)
      ∧ (t.status.errCode ∉ cleanCodes → SameMemOutside s.dstWindow s t
          ∧ ∀ k, k < s.dstCap.toNat → t.byteAt (s.dstAddr.toNat + k) = Config.freeByte (s.draws + k))
      ∧ ∀ a, (if i = .ntrBuild then s.tableWindow.has a = true else ∃ w ∈ s.readWindows i, w.has a = true) →
          t.byteAt a = s.byteAt a

/-- R260, R261: the class and the code a command reports are a row of the table, whatever the command and the state. -/
def Obligations.ErrorIdentityIsInTable : Prop :=
  ∀ (i : Instr) (s t : State), exec i s = .next t → s.status.err = false → t.status.err = true →
    (t.status.errClass, t.status.errCode) ∈
      [(3#4, 0x02#8), (3#4, 0x03#8), (3#4, 0x04#8), (3#4, 0x05#8), (3#4, 0x10#8), (3#4, 0x11#8), (3#4, 0x12#8),
       (2#4, 0x20#8), (3#4, 0x21#8), (3#4, 0x22#8), (3#4, 0x23#8), (3#4, 0x30#8), (3#4, 0x31#8),
       (1#4, 0x40#8), (2#4, 0x41#8), (2#4, 0x42#8), (1#4, 0x43#8), (1#4, 0x44#8), (3#4, 0x45#8)]

/-- The family rules: whatever its outcome, a command changes no register but STATUS and those its rule writes, and none
of the surroundings. -/
def Obligations.CommandRegisterFrame : Prop :=
  ∀ (i : Instr) (s t : State), exec i s = .next t →
    SameRegs (.status :: writtenRegs i) s t ∧ SameSurroundings s t

/-- R64: whatever its outcome, a command changes no byte of MEM outside the window it writes into, and none at all if it
writes into none. -/
def Obligations.CommandMemoryFrame : Prop :=
  ∀ (i : Instr) (s t : State), exec i s = .next t →
    (s.writeWindow i = none → SameMem s t) ∧ ∀ w, s.writeWindow i = some w → SameMemOutside w s t

/-- R64: the engine reads no byte outside the windows it reads. If two states differ only in MEM and agree on those
windows, the command leaves every register the same in both, and each byte either is the same in both or is in both what
it was. -/
def Obligations.CommandReadsOnlyItsWindows : Prop :=
  ∀ (i : Instr) (s : State) (m : Memory),
    (∀ w ∈ s.readWindows i, ∀ a, w.start ≤ a → a < w.start + w.len → State.byteAt { s with mem := m } a = s.byteAt a) →
    ∃ t t', exec i s = .next t ∧ exec i { s with mem := m } = .next t' ∧ SameRegs [] t t'
      ∧ ∀ a, t'.byteAt a = t.byteAt a
          ∨ (t'.byteAt a = State.byteAt { s with mem := m } a ∧ t.byteAt a = s.byteAt a)

/-- R33: KEY_OUT changes only when DECIPHER completes or the block is reset. -/
def Obligations.KeyOutWrittenOnlyByDecipher : Prop :=
  ∀ s t : State, step s = .next t → t.keyOut ≠ s.keyOut →
    (EngineMoves s ∧ s.opcode = 0x41#8)
      ∨ (HostMoves s ∧ (s.script.head? = some .reset ∨ s.script.head? = some .powerOn))

/-- R45: STATUS changes only when a command completes, when the host writes CMD or STATUS, and on reset. -/
def Obligations.FlagsChangeOnlyByListedEvents : Prop :=
  ∀ s t : State, step s = .next t → t.status ≠ s.status →
    EngineMoves s
      ∨ (HostMoves s ∧ ((∃ v, s.script.head? = some (.regWrite 4 0x04 v)) ∨ (∃ v, s.script.head? = some (.regWrite 4 0x08 v))
          ∨ s.script.head? = some .reset ∨ s.script.head? = some .powerOn))

/-! ## Invariants -/

/-- The state right after reset meets both invariants. -/
def Obligations.ResetMeetsInvariants : Prop :=
  State.reset.MemoryLegal ∧ State.reset.status.Legal ∧ State.reset.params.Ok

/-- Every step keeps MEM in canonical form and inside [0, MEM_BYTES) (R60), and no step changes the parameters (R7, R48). -/
def Obligations.StepKeepsMemoryLegal : Prop :=
  ∀ s t : State, step s = .next t → t.params = s.params ∧ (s.MemoryLegal → t.MemoryLegal)

/-- Every step keeps STATUS legal: a running command has no flag and no error identity, DONE and ERR exclude each other,
and the identity is 0 or a row of R261 (R25, R91, R92, R261). -/
def Obligations.StepKeepsStatusLegal : Prop :=
  ∀ s t : State, s.status.Legal → step s = .next t → t.status.Legal

/-! ## The tile transform -/

/-- R164, R162, R161: PIX2TILE puts the pixel at row y, column x of the image at 64·t + 8·(y mod 8) + (x mod 8), where t
is the tile's number, and RESULT_LEN is N. -/
def Obligations.PixToTileRearranges : Prop :=
  ∀ s : State, WindowsOk s s.srcAddr.toNat s.srcLen.toNat →
    s.srcLen.toNat % 64 = 0 → s.tiles.toNat ≠ 0 → s.srcLen.toNat / 64 % s.tiles.toNat = 0 →
    s.srcLen.toNat ≤ s.dstCap.toNat →
    Completes .pix2tile s fun t =>
      t.readReg .resultLen = s.srcLen ∧ SameMemOutside ⟨s.dstAddr.toNat, s.srcLen.toNat⟩ s t
        ∧ ∀ y x, x < 8 * s.tiles.toNat → y * (8 * s.tiles.toNat) + x < s.srcLen.toNat →
            t.byteAt (s.dstAddr.toNat + (64 * (y / 8 * s.tiles.toNat + x / 8) + 8 * (y % 8) + x % 8))
              = s.byteAt (s.srcAddr.toNat + (y * (8 * s.tiles.toNat) + x))

/-- R165, R163: TILE2PIX is the opposite move. -/
def Obligations.TileToPixRearranges : Prop :=
  ∀ s : State, WindowsOk s s.srcAddr.toNat s.srcLen.toNat →
    s.srcLen.toNat % 64 = 0 → s.tiles.toNat ≠ 0 → s.srcLen.toNat / 64 % s.tiles.toNat = 0 →
    s.srcLen.toNat ≤ s.dstCap.toNat →
    Completes .tile2pix s fun t =>
      t.readReg .resultLen = s.srcLen ∧ SameMemOutside ⟨s.dstAddr.toNat, s.srcLen.toNat⟩ s t
        ∧ ∀ y x, x < 8 * s.tiles.toNat → y * (8 * s.tiles.toNat) + x < s.srcLen.toNat →
            t.byteAt (s.dstAddr.toNat + (y * (8 * s.tiles.toNat) + x))
              = s.byteAt (s.srcAddr.toNat + (64 * (y / 8 * s.tiles.toNat + x / 8) + 8 * (y % 8) + x % 8))

/-- R263, R162: the errors of PIX2TILE and TILE2PIX, in order. -/
def Obligations.TileErrorsInOrder : Prop :=
  ∀ (i : Instr) (s : State), i = .pix2tile ∨ i = .tile2pix →
    ReportsFirst i s (Succeeds i s)
      (windowOrder s s.srcAddr.toNat s.srcLen.toNat
        ++ [(s.srcLen.toNat % 64 ≠ 0, 3#4, 0x10#8), (s.tiles.toNat = 0, 3#4, 0x11#8),
            (s.srcLen.toNat / 64 % s.tiles.toNat ≠ 0, 3#4, 0x12#8), (s.srcLen.toNat > s.dstCap.toNat, 3#4, 0x05#8)])

/-- R168, R166: TILE_HFLIP mirrors each row of the tile at DST_ADDR left to right, and RESULT_LEN is 64;
a tile that is not in MEM is the error DST_RANGE (class 3, code 0x03), and nothing else changes. -/
def Obligations.HflipMirrorsRows : Prop :=
  ∀ s : State,
    (s.dstAddr.toNat + 64 > s.params.memBytes → FailsClean .tileHflip 3#4 0x03#8 s)
    ∧ (s.dstAddr.toNat + 64 ≤ s.params.memBytes →
    Completes .tileHflip s fun t =>
      t.readReg .resultLen = 64#32 ∧ SameMemOutside ⟨s.dstAddr.toNat, 64⟩ s t
        ∧ ∀ r c, r < 8 → c < 8 →
            t.byteAt (s.dstAddr.toNat + (8 * r + c)) = s.byteAt (s.dstAddr.toNat + (8 * r + 7 - c)))

/-- R169, R167: TILE_VFLIP mirrors the rows of the tile at DST_ADDR top to bottom, and RESULT_LEN is 64;
a tile that is not in MEM is the error DST_RANGE (class 3, code 0x03), and nothing else changes. -/
def Obligations.VflipMirrorsColumns : Prop :=
  ∀ s : State,
    (s.dstAddr.toNat + 64 > s.params.memBytes → FailsClean .tileVflip 3#4 0x03#8 s)
    ∧ (s.dstAddr.toNat + 64 ≤ s.params.memBytes →
    Completes .tileVflip s fun t =>
      t.readReg .resultLen = 64#32 ∧ SameMemOutside ⟨s.dstAddr.toNat, 64⟩ s t
        ∧ ∀ r c, r < 8 → c < 8 →
            t.byteAt (s.dstAddr.toNat + (8 * r + c)) = s.byteAt (s.dstAddr.toNat + (8 * (7 - r) + c)))

/-- R170 (the spec's own inference): on their domain the two transforms are inverse to each other. -/
def Obligations.TileTransformsInvert : Prop :=
  ∀ (p : List Byte) (w : Nat), p.length % 64 = 0 → w ≠ 0 → p.length / 64 % w = 0 →
    tilesToPixels (pixelsToTiles p w) w = p ∧ pixelsToTiles (tilesToPixels p w) w = p

/-- R170 (the spec's own inference): a flip done twice restores the tile, and the two flips together turn it by 180°. -/
def Obligations.FlipLaws : Prop :=
  ∀ t : List Byte, t.length = 64 →
    hflip (hflip t) = t ∧ vflip (vflip t) = t ∧ hflip (vflip t) = t.reverse ∧ vflip (hflip t) = t.reverse

/-! ## The OAM codec -/

/-- R200, R196, R194, R195: OAM_DEC fails with OAM_SHAPE exactly when W0[15:14] = 3, and otherwise unpacks the triple:
REC_POS holds X and Y, biased and taken mod 2^16, and REC_ATTR the other fields. -/
def Obligations.OamDecUnpacksTriple : Prop :=
  ∀ s : State,
    (s.oamW0.toNat / 2 ^ 14 = 3 → FailsClean .oamDec 2#4 0x20#8 s)
    ∧ (s.oamW0.toNat / 2 ^ 14 ≠ 3 →
      Completes .oamDec s fun t =>
        SameMem s t
          ∧ ((t.readReg .recPos).toNat : Int)
              = 2 ^ 16 * ((if s.oamW0.toNat % 2 ^ 8 ≥ 128 then (s.oamW0.toNat % 2 ^ 8 : Int) - 256
                    else s.oamW0.toNat % 2 ^ 8) % 2 ^ 16)
                + (if s.oamW1.toNat % 2 ^ 9 ≥ 256 then (s.oamW1.toNat % 2 ^ 9 : Int) - 512
                    else s.oamW1.toNat % 2 ^ 9) % 2 ^ 16
          ∧ (t.readReg .recAttr).toNat
              = s.oamW0.toNat / 2 ^ 8 % 2 + 2 * (s.oamW0.toNat / 2 ^ 9 % 2) + 4 * (s.oamW0.toNat / 2 ^ 12 % 2)
                + 8 * (s.oamW1.toNat / 2 ^ 12 % 2) + 16 * (s.oamW1.toNat / 2 ^ 13 % 2)
                + 32 * (s.oamW0.toNat / 2 ^ 13 % 2) + 2 ^ 6 * (s.oamW0.toNat / 2 ^ 10 % 4)
                + 2 ^ 8 * (s.oamW0.toNat / 2 ^ 14) + 2 ^ 10 * (s.oamW1.toNat / 2 ^ 14)
                + 2 ^ 12 * (s.oamW2.toNat % 2 ^ 10) + 2 ^ 22 * (s.oamW2.toNat / 2 ^ 10 % 4)
                + 2 ^ 24 * (s.oamW2.toNat / 2 ^ 12))

/-- R210, R198: OAM_ENC of a record in range packs it: unbiased Y and X, the other fields at the positions of R190, and
W1[11:9] = 0. -/
def Obligations.OamEncPacksRecord : Prop :=
  ∀ s : State, -256 ≤ s.recX.toInt → s.recX.toInt ≤ 255 → -128 ≤ s.recY.toInt → s.recY.toInt ≤ 127 →
    s.recAttr.shape ≠ 3#2 →
    Completes .oamEnc s fun t =>
      SameMem s t
        ∧ ((t.readReg .oamW0).toNat : Int)
            = (if s.recY.toInt < 0 then s.recY.toInt + 256 else s.recY.toInt)
              + 2 ^ 8 * s.recAttr.affine.toNat + 2 ^ 9 * s.recAttr.disable.toNat + 2 ^ 10 * s.recAttr.objMode.toNat
              + 2 ^ 12 * s.recAttr.mosaic.toNat + 2 ^ 13 * s.recAttr.color8.toNat + 2 ^ 14 * s.recAttr.shape.toNat
        ∧ ((t.readReg .oamW1).toNat : Int)
            = (if s.recX.toInt < 0 then s.recX.toInt + 512 else s.recX.toInt)
              + 2 ^ 12 * s.recAttr.hflip.toNat + 2 ^ 13 * s.recAttr.vflip.toNat + 2 ^ 14 * s.recAttr.size.toNat
        ∧ (t.readReg .oamW2).toNat
            = s.recAttr.tile.toNat + 2 ^ 10 * s.recAttr.priority.toNat + 2 ^ 12 * s.recAttr.palette.toNat

/-- R211: the errors of OAM_ENC, in order. -/
def Obligations.OamEncErrorsInOrder : Prop :=
  ∀ s : State, ReportsFirst .oamEnc s (Succeeds .oamEnc s)
    [(s.recX.toInt < -256 ∨ s.recX.toInt > 255, 3#4, 0x21#8),
     (s.recY.toInt < -128 ∨ s.recY.toInt > 127, 3#4, 0x22#8),
     (s.recAttr.shape = 3#2, 3#4, 0x23#8)]

/-- R212 (the spec's own inference): decoding a triple with a legal shape and encoding the record gives the triple back with
W1[11:9] cleared, so a legal triple comes back as it was. -/
def Obligations.OamTripleRoundTrip : Prop :=
  ∀ s : State, s.oamW0.extractLsb' 14 2 ≠ 3#2 →
    ∃ t u, exec .oamDec s = .next t ∧ exec .oamEnc t = .next u ∧ u.status.done = true ∧ u.status.err = s.status.err
      ∧ u.oamW0 = s.oamW0 ∧ u.oamW1 = s.oamW1 &&& 0xF1FF#16 ∧ u.oamW2 = s.oamW2
      ∧ (s.oamW1.extractLsb' 9 3 = 0#3 → u.oamW1 = s.oamW1)

/-- R212 (the spec's own inference): encoding a record in range and decoding the triple gives the record back. -/
def Obligations.OamRecordRoundTrip : Prop :=
  ∀ s : State, -256 ≤ s.recX.toInt → s.recX.toInt ≤ 255 → -128 ≤ s.recY.toInt → s.recY.toInt ≤ 127 →
    s.recAttr.shape ≠ 3#2 →
    ∃ t u, exec .oamEnc s = .next t ∧ exec .oamDec t = .next u ∧ u.status.done = true ∧ u.status.err = s.status.err
      ∧ u.readReg .recPos = s.readReg .recPos ∧ u.readReg .recAttr = s.readReg .recAttr

/-! ## The stream cipher -/

/-- R230, R233 (the latter the spec's own inference): the two steps of the generator are inverse to each other. -/
def Obligations.LcgStepsInvert : Prop :=
  ∀ k : Word, lcgNext (lcgPrev k) = k ∧ lcgPrev (lcgNext k) = k

/-- R237, with the closed form R232 (the spec's own inference): word i of the output is word i of the input XOR the low
half of the key n − i backward steps from KEY_IN, little-endian and in place; RESULT_LEN is N; KEY_OUT is not written. -/
def Obligations.CipherMasksWords : Prop :=
  ∀ s : State, WindowsOk s s.srcAddr.toNat s.srcLen.toNat → s.srcLen.toNat % 2 = 0 → s.srcLen.toNat ≤ s.dstCap.toNat →
    Completes .cipher s fun t =>
      t.readReg .resultLen = s.srcLen ∧ SameMemOutside ⟨s.dstAddr.toNat, s.srcLen.toNat⟩ s t
        ∧ ∀ i, i < s.srcLen.toNat / 2 →
            t.byteAt (s.dstAddr.toNat + (2 * i + 1)) ++ t.byteAt (s.dstAddr.toNat + 2 * i)
              = (s.byteAt (s.srcAddr.toNat + (2 * i + 1)) ++ s.byteAt (s.srcAddr.toNat + 2 * i))
                ^^^ (Nat.iterate (fun k : Word => 4005161829#32 * (k - 24691#32)) (s.srcLen.toNat / 2 - i)
                      s.keyIn).extractLsb' 0 16

/-- R241, R235, R236 (the last the spec's own inference): the key starts as the first word, zero extended; word i of the
output is word i of the input XOR the low half of the key i forward steps on; KEY_OUT is the key after n forward steps;
RESULT_LEN is N. -/
def Obligations.DecipherMasksWords : Prop :=
  ∀ s : State, WindowsOk s s.srcAddr.toNat s.srcLen.toNat → s.srcLen.toNat % 2 = 0 → s.srcLen.toNat ≠ 0 →
    s.srcLen.toNat ≤ s.dstCap.toNat →
    Completes .decipher s fun t =>
      t.readReg .resultLen = s.srcLen ∧ SameMemOutside ⟨s.dstAddr.toNat, s.srcLen.toNat⟩ s t
        ∧ t.readReg .keyOut
            = Nat.iterate (fun k : Word => 24691#32 + 1103515245#32 * k) (s.srcLen.toNat / 2)
                ((s.byteAt (s.srcAddr.toNat + 1) ++ s.byteAt s.srcAddr.toNat).setWidth 32)
        ∧ ∀ i, i < s.srcLen.toNat / 2 →
            t.byteAt (s.dstAddr.toNat + (2 * i + 1)) ++ t.byteAt (s.dstAddr.toNat + 2 * i)
              = (s.byteAt (s.srcAddr.toNat + (2 * i + 1)) ++ s.byteAt (s.srcAddr.toNat + 2 * i))
                ^^^ (Nat.iterate (fun k : Word => 24691#32 + 1103515245#32 * k) i
                      ((s.byteAt (s.srcAddr.toNat + 1) ++ s.byteAt s.srcAddr.toNat).setWidth 32)).extractLsb' 0 16

/-- R263: the errors of CIPHER, in order. -/
def Obligations.CipherErrorsInOrder : Prop :=
  ∀ s : State, ReportsFirst .cipher s (Succeeds .cipher s)
    (windowOrder s s.srcAddr.toNat s.srcLen.toNat
      ++ [(s.srcLen.toNat % 2 ≠ 0, 3#4, 0x30#8), (s.srcLen.toNat > s.dstCap.toNat, 3#4, 0x05#8)])

/-- R263: the errors of DECIPHER, in order. -/
def Obligations.DecipherErrorsInOrder : Prop :=
  ∀ s : State, ReportsFirst .decipher s (Succeeds .decipher s)
    (windowOrder s s.srcAddr.toNat s.srcLen.toNat
      ++ [(s.srcLen.toNat % 2 ≠ 0, 3#4, 0x30#8), (s.srcLen.toNat = 0, 3#4, 0x31#8),
          (s.srcLen.toNat > s.dstCap.toNat, 3#4, 0x05#8)])

/-- R242, law 1 (the spec's own inference): ciphering what DECIPHER gave, with the key it gave, restores the input. -/
def Obligations.RecipherRestores : Prop :=
  ∀ c : List Byte, c.length % 2 = 0 → c ≠ [] → cipher (decipher c).1 (decipher c).2 = c

/-- R242, law 3 (the spec's own inference): data whose first word is 0 survives cipher and then decipher, and the low
half of the key comes back. -/
def Obligations.CipherThenDecipher : Prop :=
  ∀ (d : List Byte) (k : Word), d.length % 2 = 0 → d.take 2 = [0#8, 0#8] →
    (decipher (cipher d k)).1 = d ∧ (decipher (cipher d k)).2.extractLsb' 0 16 = k.extractLsb' 0 16

/-! ## The container marshaller -/

/-- R127, R125: NTR_PARSE of a container with a good header whose blocks are `blocks` writes one descriptor a block (tag,
payload address, payload length), and NTR_TAG, NTR_VER, NTR_NBLK, NTR_TOTAL as read, and RESULT_LEN. R127 says that the
payload address SRC_ADDR + off always fits in 32 bits; that it is taken mod 2^32 where it does not, for an empty last
payload at the end of a MEM of 2^32 bytes, is the model's choice (log entry 13), from R12's MemWrite and R11's le32. -/
def Obligations.NtrParseWritesDescriptors : Prop :=
  ∀ (s : State) (blocks : List Block),
    WindowsOk s s.srcAddr.toNat s.srcLen.toNat → 16 ≤ s.srcLen.toNat →
    s.memRead (s.srcAddr.toNat + 4) 2 = s.params.ntrBom.toNat →
    VersionOk s (s.memRead (s.srcAddr.toNat + 6) 2) →
    s.memRead (s.srcAddr.toNat + 12) 2 = 16 →
    s.memRead (s.srcAddr.toNat + 14) 2 = blocks.length →
    12 * blocks.length ≤ s.dstCap.toNat → FramedFrom s.srcBytes 16 blocks →
    Completes .ntrParse s fun t =>
      SameMemOutside ⟨s.dstAddr.toNat, 12 * blocks.length⟩ s t
        ∧ (∀ k (h : k < blocks.length),
            t.memBytes (s.dstAddr.toNat + 12 * k) 4 = s.memBytes (s.srcAddr.toNat + blocks[k].off - 8) 4
              ∧ t.memRead (s.dstAddr.toNat + 12 * k + 4) 4 = (s.srcAddr.toNat + blocks[k].off) % 2 ^ 32
              ∧ t.memRead (s.dstAddr.toNat + 12 * k + 8) 4 = blocks[k].len)
        ∧ (t.readReg .ntrTag).toNat = s.memRead s.srcAddr.toNat 4
        ∧ (t.readReg .ntrVer).toNat = s.memRead (s.srcAddr.toNat + 6) 2
        ∧ (t.readReg .ntrNblk).toNat = blocks.length
        ∧ (t.readReg .ntrTotal).toNat = s.memRead (s.srcAddr.toNat + 8) 4
        ∧ (t.readReg .resultLen).toNat = 12 * blocks.length

/-- R263, R125: the errors of NTR_PARSE up to the block list, in cursor order; a container with a good header and no block
is parsed. -/
def Obligations.NtrParseHeaderErrorsInOrder : Prop :=
  ∀ s : State,
    ReportsFirst .ntrParse s (s.memRead (s.srcAddr.toNat + 14) 2 = 0 → Succeeds .ntrParse s)
      (windowOrder s s.srcAddr.toNat s.srcLen.toNat
        ++ [(4 > s.srcLen.toNat, 1#4, 0x40#8),
            (6 > s.srcLen.toNat, 1#4, 0x40#8),
            (s.memRead (s.srcAddr.toNat + 4) 2 ≠ s.params.ntrBom.toNat, 2#4, 0x41#8),
            (8 > s.srcLen.toNat, 1#4, 0x40#8),
            (¬ VersionOk s (s.memRead (s.srcAddr.toNat + 6) 2), 2#4, 0x42#8),
            (12 > s.srcLen.toNat, 1#4, 0x40#8),
            (14 > s.srcLen.toNat, 1#4, 0x40#8),
            (s.memRead (s.srcAddr.toNat + 12) 2 ≠ 16, 1#4, 0x43#8),
            (16 > s.srcLen.toNat, 1#4, 0x40#8),
            (12 * s.memRead (s.srcAddr.toNat + 14) 2 > s.dstCap.toNat, 3#4, 0x05#8)])

/-- R263, R125: the errors of NTR_PARSE in the block list. With a good header, and `blocks` the blocks read before the
one at the cursor `o`, that block fails with NTR_TRUNC for its header, NTR_BLKSIZE, or NTR_TRUNC for its payload. -/
def Obligations.NtrParseBlockErrorsInOrder : Prop :=
  ∀ (s : State) (blocks : List Block) (o : Nat),
    WindowsOk s s.srcAddr.toNat s.srcLen.toNat → 16 ≤ s.srcLen.toNat →
    s.memRead (s.srcAddr.toNat + 4) 2 = s.params.ntrBom.toNat →
    VersionOk s (s.memRead (s.srcAddr.toNat + 6) 2) →
    s.memRead (s.srcAddr.toNat + 12) 2 = 16 →
    blocks.length < s.memRead (s.srcAddr.toNat + 14) 2 →
    12 * s.memRead (s.srcAddr.toNat + 14) 2 ≤ s.dstCap.toNat →
    FramedFrom s.srcBytes 16 blocks → o = 16 + (blocks.map (fun k => k.len + 8)).sum →
    (o + 8 > s.srcLen.toNat → FailsSpoiling .ntrParse 1#4 0x40#8 s)
    ∧ (o + 8 ≤ s.srcLen.toNat → s.memRead (s.srcAddr.toNat + o + 4) 4 < 8 → FailsSpoiling .ntrParse 1#4 0x44#8 s)
    ∧ (o + 8 ≤ s.srcLen.toNat → 8 ≤ s.memRead (s.srcAddr.toNat + o + 4) 4 →
        o + s.memRead (s.srcAddr.toNat + o + 4) 4 > s.srcLen.toNat → FailsSpoiling .ntrParse 1#4 0x40#8 s)

/-- R131, R128, R121, R122: NTR_BUILD writes the header and, for each descriptor in order, a block of its tag, its payload
length plus 8 and its payload; NTR_TOTAL and RESULT_LEN are the container's length. -/
def Obligations.NtrBuildWritesContainer : Prop :=
  ∀ s : State, WindowsOk s s.srcAddr.toNat (12 * s.ntrNblk.toNat) → VersionOk s s.ntrVer.toNat →
    (∀ k, k < s.ntrNblk.toNat → WindowsOk s (s.descriptor k).addr (s.descriptor k).len) →
    s.blockOffset s.ntrNblk.toNat ≤ s.dstCap.toNat →
    Completes .ntrBuild s fun t =>
      (t.readReg .ntrTotal).toNat = s.blockOffset s.ntrNblk.toNat
        ∧ (t.readReg .resultLen).toNat = s.blockOffset s.ntrNblk.toNat
        ∧ SameMemOutside ⟨s.dstAddr.toNat, s.blockOffset s.ntrNblk.toNat⟩ s t
        ∧ t.memRead s.dstAddr.toNat 4 = s.ntrTag.toNat
        ∧ t.memRead (s.dstAddr.toNat + 4) 2 = s.params.ntrBom.toNat
        ∧ t.memRead (s.dstAddr.toNat + 6) 2 = s.ntrVer.toNat
        ∧ t.memRead (s.dstAddr.toNat + 8) 4 = s.blockOffset s.ntrNblk.toNat
        ∧ t.memRead (s.dstAddr.toNat + 12) 2 = 16
        ∧ t.memRead (s.dstAddr.toNat + 14) 2 = s.ntrNblk.toNat
        ∧ ∀ k, k < s.ntrNblk.toNat →
            t.memBytes (s.dstAddr.toNat + s.blockOffset k) 4 = s.memBytes (s.srcAddr.toNat + 12 * k) 4
              ∧ t.memRead (s.dstAddr.toNat + s.blockOffset k + 4) 4 = (s.descriptor k).len + 8
              ∧ t.memBytes (s.dstAddr.toNat + s.blockOffset k + 8) (s.descriptor k).len
                  = s.memBytes (s.descriptor k).addr (s.descriptor k).len

/-- R263: the errors of NTR_BUILD, in order. -/
def Obligations.NtrBuildErrorsInOrder : Prop :=
  ∀ s : State, ReportsFirst .ntrBuild s (Succeeds .ntrBuild s)
    (windowOrder s s.srcAddr.toNat (12 * s.ntrNblk.toNat)
      ++ [(¬ VersionOk s s.ntrVer.toNat, 3#4, 0x45#8)]
      ++ (List.range s.ntrNblk.toNat).flatMap (fun k =>
          [((s.descriptor k).addr + (s.descriptor k).len > s.params.memBytes, 3#4, 0x02#8),
           (Overlap (s.descriptor k).addr (s.descriptor k).len s.dstAddr.toNat s.dstCap.toNat, 3#4, 0x04#8)])
      ++ [(s.blockOffset s.ntrNblk.toNat > s.dstCap.toNat, 3#4, 0x05#8)])

/-- R132 (the spec's own inference): parsing what `ntr_build` makes gives the container back, block by block. -/
def Obligations.NtrStructuralRoundTrip : Prop :=
  ∀ (p : Params) (tag : List Byte) (ver cap : Nat) (blocks : List (List Byte × List Byte)),
    tag.length = 4 → (∀ k ∈ blocks, k.1.length = 4) → ver = p.ntrVerA.toNat ∨ ver = p.ntrVerB.toNat →
    blocks.length ≤ 65535 → (ntrBuild p tag ver blocks).length < 2 ^ 32 → 12 * blocks.length ≤ cap →
    ∃ r, ntrParse p (ntrBuild p tag ver blocks) cap = .ok r ∧ r.tag = tag ∧ r.ver = ver
      ∧ r.total = (ntrBuild p tag ver blocks).length ∧ r.count = blocks.length
      ∧ r.blocks.map (fun k => (k.tag, sliceOf (ntrBuild p tag ver blocks) k.off k.len)) = blocks
end

