-- ==== Sys2Proof/Laws/State.lean ====
section
/-! SUPPORT. One lemma per field per update of the state: what each named update leaves in each field. -/

namespace Sys2Proof.Machine

/-! ## writeBytes -/

@[simp] theorem writeBytes_mem (s : State) (a : Nat) (bs : List Byte) : (s.writeBytes a bs).mem = s.mem.write a bs := rfl
@[simp] theorem writeBytes_opcode (s : State) (a : Nat) (bs : List Byte) : (s.writeBytes a bs).opcode = s.opcode := rfl
@[simp] theorem writeBytes_status (s : State) (a : Nat) (bs : List Byte) : (s.writeBytes a bs).status = s.status := rfl
@[simp] theorem writeBytes_ie (s : State) (a : Nat) (bs : List Byte) : (s.writeBytes a bs).ie = s.ie := rfl
@[simp] theorem writeBytes_srcAddr (s : State) (a : Nat) (bs : List Byte) : (s.writeBytes a bs).srcAddr = s.srcAddr := rfl
@[simp] theorem writeBytes_srcLen (s : State) (a : Nat) (bs : List Byte) : (s.writeBytes a bs).srcLen = s.srcLen := rfl
@[simp] theorem writeBytes_dstAddr (s : State) (a : Nat) (bs : List Byte) : (s.writeBytes a bs).dstAddr = s.dstAddr := rfl
@[simp] theorem writeBytes_dstCap (s : State) (a : Nat) (bs : List Byte) : (s.writeBytes a bs).dstCap = s.dstCap := rfl
@[simp] theorem writeBytes_tiles (s : State) (a : Nat) (bs : List Byte) : (s.writeBytes a bs).tiles = s.tiles := rfl
@[simp] theorem writeBytes_keyIn (s : State) (a : Nat) (bs : List Byte) : (s.writeBytes a bs).keyIn = s.keyIn := rfl
@[simp] theorem writeBytes_keyOut (s : State) (a : Nat) (bs : List Byte) : (s.writeBytes a bs).keyOut = s.keyOut := rfl
@[simp] theorem writeBytes_resultLen (s : State) (a : Nat) (bs : List Byte) : (s.writeBytes a bs).resultLen = s.resultLen := rfl
@[simp] theorem writeBytes_oamW0 (s : State) (a : Nat) (bs : List Byte) : (s.writeBytes a bs).oamW0 = s.oamW0 := rfl
@[simp] theorem writeBytes_oamW1 (s : State) (a : Nat) (bs : List Byte) : (s.writeBytes a bs).oamW1 = s.oamW1 := rfl
@[simp] theorem writeBytes_oamW2 (s : State) (a : Nat) (bs : List Byte) : (s.writeBytes a bs).oamW2 = s.oamW2 := rfl
@[simp] theorem writeBytes_recX (s : State) (a : Nat) (bs : List Byte) : (s.writeBytes a bs).recX = s.recX := rfl
@[simp] theorem writeBytes_recY (s : State) (a : Nat) (bs : List Byte) : (s.writeBytes a bs).recY = s.recY := rfl
@[simp] theorem writeBytes_recAttr (s : State) (a : Nat) (bs : List Byte) : (s.writeBytes a bs).recAttr = s.recAttr := rfl
@[simp] theorem writeBytes_ntrTag (s : State) (a : Nat) (bs : List Byte) : (s.writeBytes a bs).ntrTag = s.ntrTag := rfl
@[simp] theorem writeBytes_ntrVer (s : State) (a : Nat) (bs : List Byte) : (s.writeBytes a bs).ntrVer = s.ntrVer := rfl
@[simp] theorem writeBytes_ntrNblk (s : State) (a : Nat) (bs : List Byte) : (s.writeBytes a bs).ntrNblk = s.ntrNblk := rfl
@[simp] theorem writeBytes_ntrTotal (s : State) (a : Nat) (bs : List Byte) : (s.writeBytes a bs).ntrTotal = s.ntrTotal := rfl
@[simp] theorem writeBytes_hazard (s : State) (a : Nat) (bs : List Byte) : (s.writeBytes a bs).hazard = s.hazard := rfl
@[simp] theorem writeBytes_params (s : State) (a : Nat) (bs : List Byte) : (s.writeBytes a bs).params = s.params := rfl
@[simp] theorem writeBytes_powerOns (s : State) (a : Nat) (bs : List Byte) : (s.writeBytes a bs).powerOns = s.powerOns := rfl
@[simp] theorem writeBytes_draws (s : State) (a : Nat) (bs : List Byte) : (s.writeBytes a bs).draws = s.draws := rfl
@[simp] theorem writeBytes_script (s : State) (a : Nat) (bs : List Byte) : (s.writeBytes a bs).script = s.script := rfl
@[simp] theorem writeBytes_turns (s : State) (a : Nat) (bs : List Byte) : (s.writeBytes a bs).turns = s.turns := rfl
@[simp] theorem writeBytes_reads (s : State) (a : Nat) (bs : List Byte) : (s.writeBytes a bs).reads = s.reads := rfl

/-! ## spoil -/

@[simp] theorem spoil_mem (s : State) (a n : Nat) : (s.spoil a n).mem = s.mem.write a (s.drawn (min n (s.params.memBytes - a))) := rfl
@[simp] theorem spoil_opcode (s : State) (a n : Nat) : (s.spoil a n).opcode = s.opcode := rfl
@[simp] theorem spoil_status (s : State) (a n : Nat) : (s.spoil a n).status = s.status := rfl
@[simp] theorem spoil_ie (s : State) (a n : Nat) : (s.spoil a n).ie = s.ie := rfl
@[simp] theorem spoil_srcAddr (s : State) (a n : Nat) : (s.spoil a n).srcAddr = s.srcAddr := rfl
@[simp] theorem spoil_srcLen (s : State) (a n : Nat) : (s.spoil a n).srcLen = s.srcLen := rfl
@[simp] theorem spoil_dstAddr (s : State) (a n : Nat) : (s.spoil a n).dstAddr = s.dstAddr := rfl
@[simp] theorem spoil_dstCap (s : State) (a n : Nat) : (s.spoil a n).dstCap = s.dstCap := rfl
@[simp] theorem spoil_tiles (s : State) (a n : Nat) : (s.spoil a n).tiles = s.tiles := rfl
@[simp] theorem spoil_keyIn (s : State) (a n : Nat) : (s.spoil a n).keyIn = s.keyIn := rfl
@[simp] theorem spoil_keyOut (s : State) (a n : Nat) : (s.spoil a n).keyOut = s.keyOut := rfl
@[simp] theorem spoil_resultLen (s : State) (a n : Nat) : (s.spoil a n).resultLen = s.resultLen := rfl
@[simp] theorem spoil_oamW0 (s : State) (a n : Nat) : (s.spoil a n).oamW0 = s.oamW0 := rfl
@[simp] theorem spoil_oamW1 (s : State) (a n : Nat) : (s.spoil a n).oamW1 = s.oamW1 := rfl
@[simp] theorem spoil_oamW2 (s : State) (a n : Nat) : (s.spoil a n).oamW2 = s.oamW2 := rfl
@[simp] theorem spoil_recX (s : State) (a n : Nat) : (s.spoil a n).recX = s.recX := rfl
@[simp] theorem spoil_recY (s : State) (a n : Nat) : (s.spoil a n).recY = s.recY := rfl
@[simp] theorem spoil_recAttr (s : State) (a n : Nat) : (s.spoil a n).recAttr = s.recAttr := rfl
@[simp] theorem spoil_ntrTag (s : State) (a n : Nat) : (s.spoil a n).ntrTag = s.ntrTag := rfl
@[simp] theorem spoil_ntrVer (s : State) (a n : Nat) : (s.spoil a n).ntrVer = s.ntrVer := rfl
@[simp] theorem spoil_ntrNblk (s : State) (a n : Nat) : (s.spoil a n).ntrNblk = s.ntrNblk := rfl
@[simp] theorem spoil_ntrTotal (s : State) (a n : Nat) : (s.spoil a n).ntrTotal = s.ntrTotal := rfl
@[simp] theorem spoil_hazard (s : State) (a n : Nat) : (s.spoil a n).hazard = s.hazard := rfl
@[simp] theorem spoil_params (s : State) (a n : Nat) : (s.spoil a n).params = s.params := rfl
@[simp] theorem spoil_powerOns (s : State) (a n : Nat) : (s.spoil a n).powerOns = s.powerOns := rfl
@[simp] theorem spoil_draws (s : State) (a n : Nat) : (s.spoil a n).draws = s.draws + min n (s.params.memBytes - a) := rfl
@[simp] theorem spoil_script (s : State) (a n : Nat) : (s.spoil a n).script = s.script := rfl
@[simp] theorem spoil_turns (s : State) (a n : Nat) : (s.spoil a n).turns = s.turns := rfl
@[simp] theorem spoil_reads (s : State) (a n : Nat) : (s.spoil a n).reads = s.reads := rfl

/-! ## startCommand -/

@[simp] theorem startCommand_mem (s : State) (v : Word) : (s.startCommand v).mem = s.mem := rfl
@[simp] theorem startCommand_opcode (s : State) (v : Word) : (s.startCommand v).opcode = v.extractLsb' 0 8 := rfl
@[simp] theorem startCommand_status (s : State) (v : Word) : (s.startCommand v).status = s.status.start := rfl
@[simp] theorem startCommand_ie (s : State) (v : Word) : (s.startCommand v).ie = s.ie := rfl
@[simp] theorem startCommand_srcAddr (s : State) (v : Word) : (s.startCommand v).srcAddr = s.srcAddr := rfl
@[simp] theorem startCommand_srcLen (s : State) (v : Word) : (s.startCommand v).srcLen = s.srcLen := rfl
@[simp] theorem startCommand_dstAddr (s : State) (v : Word) : (s.startCommand v).dstAddr = s.dstAddr := rfl
@[simp] theorem startCommand_dstCap (s : State) (v : Word) : (s.startCommand v).dstCap = s.dstCap := rfl
@[simp] theorem startCommand_tiles (s : State) (v : Word) : (s.startCommand v).tiles = s.tiles := rfl
@[simp] theorem startCommand_keyIn (s : State) (v : Word) : (s.startCommand v).keyIn = s.keyIn := rfl
@[simp] theorem startCommand_keyOut (s : State) (v : Word) : (s.startCommand v).keyOut = s.keyOut := rfl
@[simp] theorem startCommand_resultLen (s : State) (v : Word) : (s.startCommand v).resultLen = s.resultLen := rfl
@[simp] theorem startCommand_oamW0 (s : State) (v : Word) : (s.startCommand v).oamW0 = s.oamW0 := rfl
@[simp] theorem startCommand_oamW1 (s : State) (v : Word) : (s.startCommand v).oamW1 = s.oamW1 := rfl
@[simp] theorem startCommand_oamW2 (s : State) (v : Word) : (s.startCommand v).oamW2 = s.oamW2 := rfl
@[simp] theorem startCommand_recX (s : State) (v : Word) : (s.startCommand v).recX = s.recX := rfl
@[simp] theorem startCommand_recY (s : State) (v : Word) : (s.startCommand v).recY = s.recY := rfl
@[simp] theorem startCommand_recAttr (s : State) (v : Word) : (s.startCommand v).recAttr = s.recAttr := rfl
@[simp] theorem startCommand_ntrTag (s : State) (v : Word) : (s.startCommand v).ntrTag = s.ntrTag := rfl
@[simp] theorem startCommand_ntrVer (s : State) (v : Word) : (s.startCommand v).ntrVer = s.ntrVer := rfl
@[simp] theorem startCommand_ntrNblk (s : State) (v : Word) : (s.startCommand v).ntrNblk = s.ntrNblk := rfl
@[simp] theorem startCommand_ntrTotal (s : State) (v : Word) : (s.startCommand v).ntrTotal = s.ntrTotal := rfl
@[simp] theorem startCommand_hazard (s : State) (v : Word) : (s.startCommand v).hazard = s.hazard := rfl
@[simp] theorem startCommand_params (s : State) (v : Word) : (s.startCommand v).params = s.params := rfl
@[simp] theorem startCommand_powerOns (s : State) (v : Word) : (s.startCommand v).powerOns = s.powerOns := rfl
@[simp] theorem startCommand_draws (s : State) (v : Word) : (s.startCommand v).draws = s.draws := rfl
@[simp] theorem startCommand_script (s : State) (v : Word) : (s.startCommand v).script = s.script := rfl
@[simp] theorem startCommand_turns (s : State) (v : Word) : (s.startCommand v).turns = s.turns := rfl
@[simp] theorem startCommand_reads (s : State) (v : Word) : (s.startCommand v).reads = s.reads := rfl

/-! ## record -/

@[simp] theorem record_mem (s : State) (r : HostRead) : (s.record r).mem = s.mem := rfl
@[simp] theorem record_opcode (s : State) (r : HostRead) : (s.record r).opcode = s.opcode := rfl
@[simp] theorem record_status (s : State) (r : HostRead) : (s.record r).status = s.status := rfl
@[simp] theorem record_ie (s : State) (r : HostRead) : (s.record r).ie = s.ie := rfl
@[simp] theorem record_srcAddr (s : State) (r : HostRead) : (s.record r).srcAddr = s.srcAddr := rfl
@[simp] theorem record_srcLen (s : State) (r : HostRead) : (s.record r).srcLen = s.srcLen := rfl
@[simp] theorem record_dstAddr (s : State) (r : HostRead) : (s.record r).dstAddr = s.dstAddr := rfl
@[simp] theorem record_dstCap (s : State) (r : HostRead) : (s.record r).dstCap = s.dstCap := rfl
@[simp] theorem record_tiles (s : State) (r : HostRead) : (s.record r).tiles = s.tiles := rfl
@[simp] theorem record_keyIn (s : State) (r : HostRead) : (s.record r).keyIn = s.keyIn := rfl
@[simp] theorem record_keyOut (s : State) (r : HostRead) : (s.record r).keyOut = s.keyOut := rfl
@[simp] theorem record_resultLen (s : State) (r : HostRead) : (s.record r).resultLen = s.resultLen := rfl
@[simp] theorem record_oamW0 (s : State) (r : HostRead) : (s.record r).oamW0 = s.oamW0 := rfl
@[simp] theorem record_oamW1 (s : State) (r : HostRead) : (s.record r).oamW1 = s.oamW1 := rfl
@[simp] theorem record_oamW2 (s : State) (r : HostRead) : (s.record r).oamW2 = s.oamW2 := rfl
@[simp] theorem record_recX (s : State) (r : HostRead) : (s.record r).recX = s.recX := rfl
@[simp] theorem record_recY (s : State) (r : HostRead) : (s.record r).recY = s.recY := rfl
@[simp] theorem record_recAttr (s : State) (r : HostRead) : (s.record r).recAttr = s.recAttr := rfl
@[simp] theorem record_ntrTag (s : State) (r : HostRead) : (s.record r).ntrTag = s.ntrTag := rfl
@[simp] theorem record_ntrVer (s : State) (r : HostRead) : (s.record r).ntrVer = s.ntrVer := rfl
@[simp] theorem record_ntrNblk (s : State) (r : HostRead) : (s.record r).ntrNblk = s.ntrNblk := rfl
@[simp] theorem record_ntrTotal (s : State) (r : HostRead) : (s.record r).ntrTotal = s.ntrTotal := rfl
@[simp] theorem record_hazard (s : State) (r : HostRead) : (s.record r).hazard = s.hazard := rfl
@[simp] theorem record_params (s : State) (r : HostRead) : (s.record r).params = s.params := rfl
@[simp] theorem record_powerOns (s : State) (r : HostRead) : (s.record r).powerOns = s.powerOns := rfl
@[simp] theorem record_draws (s : State) (r : HostRead) : (s.record r).draws = s.draws := rfl
@[simp] theorem record_script (s : State) (r : HostRead) : (s.record r).script = s.script := rfl
@[simp] theorem record_turns (s : State) (r : HostRead) : (s.record r).turns = s.turns := rfl
@[simp] theorem record_reads (s : State) (r : HostRead) : (s.record r).reads = r :: s.reads := rfl

/-! ## powerOnMem -/

@[simp] theorem powerOnMem_mem (s : State) : (s.powerOnMem).mem = [] := rfl
@[simp] theorem powerOnMem_opcode (s : State) : (s.powerOnMem).opcode = s.opcode := rfl
@[simp] theorem powerOnMem_status (s : State) : (s.powerOnMem).status = s.status := rfl
@[simp] theorem powerOnMem_ie (s : State) : (s.powerOnMem).ie = s.ie := rfl
@[simp] theorem powerOnMem_srcAddr (s : State) : (s.powerOnMem).srcAddr = s.srcAddr := rfl
@[simp] theorem powerOnMem_srcLen (s : State) : (s.powerOnMem).srcLen = s.srcLen := rfl
@[simp] theorem powerOnMem_dstAddr (s : State) : (s.powerOnMem).dstAddr = s.dstAddr := rfl
@[simp] theorem powerOnMem_dstCap (s : State) : (s.powerOnMem).dstCap = s.dstCap := rfl
@[simp] theorem powerOnMem_tiles (s : State) : (s.powerOnMem).tiles = s.tiles := rfl
@[simp] theorem powerOnMem_keyIn (s : State) : (s.powerOnMem).keyIn = s.keyIn := rfl
@[simp] theorem powerOnMem_keyOut (s : State) : (s.powerOnMem).keyOut = s.keyOut := rfl
@[simp] theorem powerOnMem_resultLen (s : State) : (s.powerOnMem).resultLen = s.resultLen := rfl
@[simp] theorem powerOnMem_oamW0 (s : State) : (s.powerOnMem).oamW0 = s.oamW0 := rfl
@[simp] theorem powerOnMem_oamW1 (s : State) : (s.powerOnMem).oamW1 = s.oamW1 := rfl
@[simp] theorem powerOnMem_oamW2 (s : State) : (s.powerOnMem).oamW2 = s.oamW2 := rfl
@[simp] theorem powerOnMem_recX (s : State) : (s.powerOnMem).recX = s.recX := rfl
@[simp] theorem powerOnMem_recY (s : State) : (s.powerOnMem).recY = s.recY := rfl
@[simp] theorem powerOnMem_recAttr (s : State) : (s.powerOnMem).recAttr = s.recAttr := rfl
@[simp] theorem powerOnMem_ntrTag (s : State) : (s.powerOnMem).ntrTag = s.ntrTag := rfl
@[simp] theorem powerOnMem_ntrVer (s : State) : (s.powerOnMem).ntrVer = s.ntrVer := rfl
@[simp] theorem powerOnMem_ntrNblk (s : State) : (s.powerOnMem).ntrNblk = s.ntrNblk := rfl
@[simp] theorem powerOnMem_ntrTotal (s : State) : (s.powerOnMem).ntrTotal = s.ntrTotal := rfl
@[simp] theorem powerOnMem_hazard (s : State) : (s.powerOnMem).hazard = s.hazard := rfl
@[simp] theorem powerOnMem_params (s : State) : (s.powerOnMem).params = s.params := rfl
@[simp] theorem powerOnMem_powerOns (s : State) : (s.powerOnMem).powerOns = s.powerOns + 1 := rfl
@[simp] theorem powerOnMem_draws (s : State) : (s.powerOnMem).draws = s.draws := rfl
@[simp] theorem powerOnMem_script (s : State) : (s.powerOnMem).script = s.script := rfl
@[simp] theorem powerOnMem_turns (s : State) : (s.powerOnMem).turns = s.turns := rfl
@[simp] theorem powerOnMem_reads (s : State) : (s.powerOnMem).reads = s.reads := rfl

/-! ## resetRegs -/

@[simp] theorem resetRegs_mem (s : State) : (s.resetRegs).mem = s.mem := rfl
@[simp] theorem resetRegs_opcode (s : State) : (s.resetRegs).opcode = State.reset.opcode := rfl
@[simp] theorem resetRegs_status (s : State) : (s.resetRegs).status = State.reset.status := rfl
@[simp] theorem resetRegs_ie (s : State) : (s.resetRegs).ie = State.reset.ie := rfl
@[simp] theorem resetRegs_srcAddr (s : State) : (s.resetRegs).srcAddr = State.reset.srcAddr := rfl
@[simp] theorem resetRegs_srcLen (s : State) : (s.resetRegs).srcLen = State.reset.srcLen := rfl
@[simp] theorem resetRegs_dstAddr (s : State) : (s.resetRegs).dstAddr = State.reset.dstAddr := rfl
@[simp] theorem resetRegs_dstCap (s : State) : (s.resetRegs).dstCap = State.reset.dstCap := rfl
@[simp] theorem resetRegs_tiles (s : State) : (s.resetRegs).tiles = State.reset.tiles := rfl
@[simp] theorem resetRegs_keyIn (s : State) : (s.resetRegs).keyIn = State.reset.keyIn := rfl
@[simp] theorem resetRegs_keyOut (s : State) : (s.resetRegs).keyOut = State.reset.keyOut := rfl
@[simp] theorem resetRegs_resultLen (s : State) : (s.resetRegs).resultLen = State.reset.resultLen := rfl
@[simp] theorem resetRegs_oamW0 (s : State) : (s.resetRegs).oamW0 = State.reset.oamW0 := rfl
@[simp] theorem resetRegs_oamW1 (s : State) : (s.resetRegs).oamW1 = State.reset.oamW1 := rfl
@[simp] theorem resetRegs_oamW2 (s : State) : (s.resetRegs).oamW2 = State.reset.oamW2 := rfl
@[simp] theorem resetRegs_recX (s : State) : (s.resetRegs).recX = State.reset.recX := rfl
@[simp] theorem resetRegs_recY (s : State) : (s.resetRegs).recY = State.reset.recY := rfl
@[simp] theorem resetRegs_recAttr (s : State) : (s.resetRegs).recAttr = State.reset.recAttr := rfl
@[simp] theorem resetRegs_ntrTag (s : State) : (s.resetRegs).ntrTag = State.reset.ntrTag := rfl
@[simp] theorem resetRegs_ntrVer (s : State) : (s.resetRegs).ntrVer = State.reset.ntrVer := rfl
@[simp] theorem resetRegs_ntrNblk (s : State) : (s.resetRegs).ntrNblk = State.reset.ntrNblk := rfl
@[simp] theorem resetRegs_ntrTotal (s : State) : (s.resetRegs).ntrTotal = State.reset.ntrTotal := rfl
@[simp] theorem resetRegs_hazard (s : State) : (s.resetRegs).hazard = s.hazard := rfl
@[simp] theorem resetRegs_params (s : State) : (s.resetRegs).params = s.params := rfl
@[simp] theorem resetRegs_powerOns (s : State) : (s.resetRegs).powerOns = s.powerOns := rfl
@[simp] theorem resetRegs_draws (s : State) : (s.resetRegs).draws = s.draws := rfl
@[simp] theorem resetRegs_script (s : State) : (s.resetRegs).script = s.script := rfl
@[simp] theorem resetRegs_turns (s : State) : (s.resetRegs).turns = s.turns := rfl
@[simp] theorem resetRegs_reads (s : State) : (s.resetRegs).reads = s.reads := rfl

/-! ## writeSameLength -/

@[simp] theorem writeSameLength_mem (s : State) (out : List Byte) : (s.writeSameLength out).mem = s.mem.write s.dstAddr.toNat out := rfl
@[simp] theorem writeSameLength_opcode (s : State) (out : List Byte) : (s.writeSameLength out).opcode = s.opcode := rfl
@[simp] theorem writeSameLength_status (s : State) (out : List Byte) : (s.writeSameLength out).status = s.status := rfl
@[simp] theorem writeSameLength_ie (s : State) (out : List Byte) : (s.writeSameLength out).ie = s.ie := rfl
@[simp] theorem writeSameLength_srcAddr (s : State) (out : List Byte) : (s.writeSameLength out).srcAddr = s.srcAddr := rfl
@[simp] theorem writeSameLength_srcLen (s : State) (out : List Byte) : (s.writeSameLength out).srcLen = s.srcLen := rfl
@[simp] theorem writeSameLength_dstAddr (s : State) (out : List Byte) : (s.writeSameLength out).dstAddr = s.dstAddr := rfl
@[simp] theorem writeSameLength_dstCap (s : State) (out : List Byte) : (s.writeSameLength out).dstCap = s.dstCap := rfl
@[simp] theorem writeSameLength_tiles (s : State) (out : List Byte) : (s.writeSameLength out).tiles = s.tiles := rfl
@[simp] theorem writeSameLength_keyIn (s : State) (out : List Byte) : (s.writeSameLength out).keyIn = s.keyIn := rfl
@[simp] theorem writeSameLength_keyOut (s : State) (out : List Byte) : (s.writeSameLength out).keyOut = s.keyOut := rfl
@[simp] theorem writeSameLength_resultLen (s : State) (out : List Byte) : (s.writeSameLength out).resultLen = s.srcLen := rfl
@[simp] theorem writeSameLength_oamW0 (s : State) (out : List Byte) : (s.writeSameLength out).oamW0 = s.oamW0 := rfl
@[simp] theorem writeSameLength_oamW1 (s : State) (out : List Byte) : (s.writeSameLength out).oamW1 = s.oamW1 := rfl
@[simp] theorem writeSameLength_oamW2 (s : State) (out : List Byte) : (s.writeSameLength out).oamW2 = s.oamW2 := rfl
@[simp] theorem writeSameLength_recX (s : State) (out : List Byte) : (s.writeSameLength out).recX = s.recX := rfl
@[simp] theorem writeSameLength_recY (s : State) (out : List Byte) : (s.writeSameLength out).recY = s.recY := rfl
@[simp] theorem writeSameLength_recAttr (s : State) (out : List Byte) : (s.writeSameLength out).recAttr = s.recAttr := rfl
@[simp] theorem writeSameLength_ntrTag (s : State) (out : List Byte) : (s.writeSameLength out).ntrTag = s.ntrTag := rfl
@[simp] theorem writeSameLength_ntrVer (s : State) (out : List Byte) : (s.writeSameLength out).ntrVer = s.ntrVer := rfl
@[simp] theorem writeSameLength_ntrNblk (s : State) (out : List Byte) : (s.writeSameLength out).ntrNblk = s.ntrNblk := rfl
@[simp] theorem writeSameLength_ntrTotal (s : State) (out : List Byte) : (s.writeSameLength out).ntrTotal = s.ntrTotal := rfl
@[simp] theorem writeSameLength_hazard (s : State) (out : List Byte) : (s.writeSameLength out).hazard = s.hazard := rfl
@[simp] theorem writeSameLength_params (s : State) (out : List Byte) : (s.writeSameLength out).params = s.params := rfl
@[simp] theorem writeSameLength_powerOns (s : State) (out : List Byte) : (s.writeSameLength out).powerOns = s.powerOns := rfl
@[simp] theorem writeSameLength_draws (s : State) (out : List Byte) : (s.writeSameLength out).draws = s.draws := rfl
@[simp] theorem writeSameLength_script (s : State) (out : List Byte) : (s.writeSameLength out).script = s.script := rfl
@[simp] theorem writeSameLength_turns (s : State) (out : List Byte) : (s.writeSameLength out).turns = s.turns := rfl
@[simp] theorem writeSameLength_reads (s : State) (out : List Byte) : (s.writeSameLength out).reads = s.reads := rfl

/-! ## writeFlipped -/

@[simp] theorem writeFlipped_mem (s : State) (flip : List Byte → List Byte) : (s.writeFlipped flip).mem = s.mem.write s.dstAddr.toNat (flip (s.memBytes s.dstAddr.toNat 64)) := rfl
@[simp] theorem writeFlipped_opcode (s : State) (flip : List Byte → List Byte) : (s.writeFlipped flip).opcode = s.opcode := rfl
@[simp] theorem writeFlipped_status (s : State) (flip : List Byte → List Byte) : (s.writeFlipped flip).status = s.status := rfl
@[simp] theorem writeFlipped_ie (s : State) (flip : List Byte → List Byte) : (s.writeFlipped flip).ie = s.ie := rfl
@[simp] theorem writeFlipped_srcAddr (s : State) (flip : List Byte → List Byte) : (s.writeFlipped flip).srcAddr = s.srcAddr := rfl
@[simp] theorem writeFlipped_srcLen (s : State) (flip : List Byte → List Byte) : (s.writeFlipped flip).srcLen = s.srcLen := rfl
@[simp] theorem writeFlipped_dstAddr (s : State) (flip : List Byte → List Byte) : (s.writeFlipped flip).dstAddr = s.dstAddr := rfl
@[simp] theorem writeFlipped_dstCap (s : State) (flip : List Byte → List Byte) : (s.writeFlipped flip).dstCap = s.dstCap := rfl
@[simp] theorem writeFlipped_tiles (s : State) (flip : List Byte → List Byte) : (s.writeFlipped flip).tiles = s.tiles := rfl
@[simp] theorem writeFlipped_keyIn (s : State) (flip : List Byte → List Byte) : (s.writeFlipped flip).keyIn = s.keyIn := rfl
@[simp] theorem writeFlipped_keyOut (s : State) (flip : List Byte → List Byte) : (s.writeFlipped flip).keyOut = s.keyOut := rfl
@[simp] theorem writeFlipped_resultLen (s : State) (flip : List Byte → List Byte) : (s.writeFlipped flip).resultLen = 64 := rfl
@[simp] theorem writeFlipped_oamW0 (s : State) (flip : List Byte → List Byte) : (s.writeFlipped flip).oamW0 = s.oamW0 := rfl
@[simp] theorem writeFlipped_oamW1 (s : State) (flip : List Byte → List Byte) : (s.writeFlipped flip).oamW1 = s.oamW1 := rfl
@[simp] theorem writeFlipped_oamW2 (s : State) (flip : List Byte → List Byte) : (s.writeFlipped flip).oamW2 = s.oamW2 := rfl
@[simp] theorem writeFlipped_recX (s : State) (flip : List Byte → List Byte) : (s.writeFlipped flip).recX = s.recX := rfl
@[simp] theorem writeFlipped_recY (s : State) (flip : List Byte → List Byte) : (s.writeFlipped flip).recY = s.recY := rfl
@[simp] theorem writeFlipped_recAttr (s : State) (flip : List Byte → List Byte) : (s.writeFlipped flip).recAttr = s.recAttr := rfl
@[simp] theorem writeFlipped_ntrTag (s : State) (flip : List Byte → List Byte) : (s.writeFlipped flip).ntrTag = s.ntrTag := rfl
@[simp] theorem writeFlipped_ntrVer (s : State) (flip : List Byte → List Byte) : (s.writeFlipped flip).ntrVer = s.ntrVer := rfl
@[simp] theorem writeFlipped_ntrNblk (s : State) (flip : List Byte → List Byte) : (s.writeFlipped flip).ntrNblk = s.ntrNblk := rfl
@[simp] theorem writeFlipped_ntrTotal (s : State) (flip : List Byte → List Byte) : (s.writeFlipped flip).ntrTotal = s.ntrTotal := rfl
@[simp] theorem writeFlipped_hazard (s : State) (flip : List Byte → List Byte) : (s.writeFlipped flip).hazard = s.hazard := rfl
@[simp] theorem writeFlipped_params (s : State) (flip : List Byte → List Byte) : (s.writeFlipped flip).params = s.params := rfl
@[simp] theorem writeFlipped_powerOns (s : State) (flip : List Byte → List Byte) : (s.writeFlipped flip).powerOns = s.powerOns := rfl
@[simp] theorem writeFlipped_draws (s : State) (flip : List Byte → List Byte) : (s.writeFlipped flip).draws = s.draws := rfl
@[simp] theorem writeFlipped_script (s : State) (flip : List Byte → List Byte) : (s.writeFlipped flip).script = s.script := rfl
@[simp] theorem writeFlipped_turns (s : State) (flip : List Byte → List Byte) : (s.writeFlipped flip).turns = s.turns := rfl
@[simp] theorem writeFlipped_reads (s : State) (flip : List Byte → List Byte) : (s.writeFlipped flip).reads = s.reads := rfl

/-! ## writeDeciphered -/

@[simp] theorem writeDeciphered_mem (s : State) : (s.writeDeciphered).mem = s.mem.write s.dstAddr.toNat (decipher s.srcBytes).1 := rfl
@[simp] theorem writeDeciphered_opcode (s : State) : (s.writeDeciphered).opcode = s.opcode := rfl
@[simp] theorem writeDeciphered_status (s : State) : (s.writeDeciphered).status = s.status := rfl
@[simp] theorem writeDeciphered_ie (s : State) : (s.writeDeciphered).ie = s.ie := rfl
@[simp] theorem writeDeciphered_srcAddr (s : State) : (s.writeDeciphered).srcAddr = s.srcAddr := rfl
@[simp] theorem writeDeciphered_srcLen (s : State) : (s.writeDeciphered).srcLen = s.srcLen := rfl
@[simp] theorem writeDeciphered_dstAddr (s : State) : (s.writeDeciphered).dstAddr = s.dstAddr := rfl
@[simp] theorem writeDeciphered_dstCap (s : State) : (s.writeDeciphered).dstCap = s.dstCap := rfl
@[simp] theorem writeDeciphered_tiles (s : State) : (s.writeDeciphered).tiles = s.tiles := rfl
@[simp] theorem writeDeciphered_keyIn (s : State) : (s.writeDeciphered).keyIn = s.keyIn := rfl
@[simp] theorem writeDeciphered_keyOut (s : State) : (s.writeDeciphered).keyOut = (decipher s.srcBytes).2 := rfl
@[simp] theorem writeDeciphered_resultLen (s : State) : (s.writeDeciphered).resultLen = s.srcLen := rfl
@[simp] theorem writeDeciphered_oamW0 (s : State) : (s.writeDeciphered).oamW0 = s.oamW0 := rfl
@[simp] theorem writeDeciphered_oamW1 (s : State) : (s.writeDeciphered).oamW1 = s.oamW1 := rfl
@[simp] theorem writeDeciphered_oamW2 (s : State) : (s.writeDeciphered).oamW2 = s.oamW2 := rfl
@[simp] theorem writeDeciphered_recX (s : State) : (s.writeDeciphered).recX = s.recX := rfl
@[simp] theorem writeDeciphered_recY (s : State) : (s.writeDeciphered).recY = s.recY := rfl
@[simp] theorem writeDeciphered_recAttr (s : State) : (s.writeDeciphered).recAttr = s.recAttr := rfl
@[simp] theorem writeDeciphered_ntrTag (s : State) : (s.writeDeciphered).ntrTag = s.ntrTag := rfl
@[simp] theorem writeDeciphered_ntrVer (s : State) : (s.writeDeciphered).ntrVer = s.ntrVer := rfl
@[simp] theorem writeDeciphered_ntrNblk (s : State) : (s.writeDeciphered).ntrNblk = s.ntrNblk := rfl
@[simp] theorem writeDeciphered_ntrTotal (s : State) : (s.writeDeciphered).ntrTotal = s.ntrTotal := rfl
@[simp] theorem writeDeciphered_hazard (s : State) : (s.writeDeciphered).hazard = s.hazard := rfl
@[simp] theorem writeDeciphered_params (s : State) : (s.writeDeciphered).params = s.params := rfl
@[simp] theorem writeDeciphered_powerOns (s : State) : (s.writeDeciphered).powerOns = s.powerOns := rfl
@[simp] theorem writeDeciphered_draws (s : State) : (s.writeDeciphered).draws = s.draws := rfl
@[simp] theorem writeDeciphered_script (s : State) : (s.writeDeciphered).script = s.script := rfl
@[simp] theorem writeDeciphered_turns (s : State) : (s.writeDeciphered).turns = s.turns := rfl
@[simp] theorem writeDeciphered_reads (s : State) : (s.writeDeciphered).reads = s.reads := rfl

/-! ## writeBuilt -/

@[simp] theorem writeBuilt_mem (s : State) : (s.writeBuilt).mem = s.mem.write s.dstAddr.toNat (ntrBuild s.params (tagBytes s.ntrTag) s.ntrVer.toNat s.buildBlocks) := rfl
@[simp] theorem writeBuilt_opcode (s : State) : (s.writeBuilt).opcode = s.opcode := rfl
@[simp] theorem writeBuilt_status (s : State) : (s.writeBuilt).status = s.status := rfl
@[simp] theorem writeBuilt_ie (s : State) : (s.writeBuilt).ie = s.ie := rfl
@[simp] theorem writeBuilt_srcAddr (s : State) : (s.writeBuilt).srcAddr = s.srcAddr := rfl
@[simp] theorem writeBuilt_srcLen (s : State) : (s.writeBuilt).srcLen = s.srcLen := rfl
@[simp] theorem writeBuilt_dstAddr (s : State) : (s.writeBuilt).dstAddr = s.dstAddr := rfl
@[simp] theorem writeBuilt_dstCap (s : State) : (s.writeBuilt).dstCap = s.dstCap := rfl
@[simp] theorem writeBuilt_tiles (s : State) : (s.writeBuilt).tiles = s.tiles := rfl
@[simp] theorem writeBuilt_keyIn (s : State) : (s.writeBuilt).keyIn = s.keyIn := rfl
@[simp] theorem writeBuilt_keyOut (s : State) : (s.writeBuilt).keyOut = s.keyOut := rfl
@[simp] theorem writeBuilt_resultLen (s : State) : (s.writeBuilt).resultLen = BitVec.ofNat 32 s.buildTotal := rfl
@[simp] theorem writeBuilt_oamW0 (s : State) : (s.writeBuilt).oamW0 = s.oamW0 := rfl
@[simp] theorem writeBuilt_oamW1 (s : State) : (s.writeBuilt).oamW1 = s.oamW1 := rfl
@[simp] theorem writeBuilt_oamW2 (s : State) : (s.writeBuilt).oamW2 = s.oamW2 := rfl
@[simp] theorem writeBuilt_recX (s : State) : (s.writeBuilt).recX = s.recX := rfl
@[simp] theorem writeBuilt_recY (s : State) : (s.writeBuilt).recY = s.recY := rfl
@[simp] theorem writeBuilt_recAttr (s : State) : (s.writeBuilt).recAttr = s.recAttr := rfl
@[simp] theorem writeBuilt_ntrTag (s : State) : (s.writeBuilt).ntrTag = s.ntrTag := rfl
@[simp] theorem writeBuilt_ntrVer (s : State) : (s.writeBuilt).ntrVer = s.ntrVer := rfl
@[simp] theorem writeBuilt_ntrNblk (s : State) : (s.writeBuilt).ntrNblk = s.ntrNblk := rfl
@[simp] theorem writeBuilt_ntrTotal (s : State) : (s.writeBuilt).ntrTotal = BitVec.ofNat 32 s.buildTotal := rfl
@[simp] theorem writeBuilt_hazard (s : State) : (s.writeBuilt).hazard = s.hazard := rfl
@[simp] theorem writeBuilt_params (s : State) : (s.writeBuilt).params = s.params := rfl
@[simp] theorem writeBuilt_powerOns (s : State) : (s.writeBuilt).powerOns = s.powerOns := rfl
@[simp] theorem writeBuilt_draws (s : State) : (s.writeBuilt).draws = s.draws := rfl
@[simp] theorem writeBuilt_script (s : State) : (s.writeBuilt).script = s.script := rfl
@[simp] theorem writeBuilt_turns (s : State) : (s.writeBuilt).turns = s.turns := rfl
@[simp] theorem writeBuilt_reads (s : State) : (s.writeBuilt).reads = s.reads := rfl

/-! ## writeParsed -/

@[simp] theorem writeParsed_mem (s : State) (r : Parsed) : (s.writeParsed r).mem = s.mem.write s.dstAddr.toNat (r.blocks.flatMap (blockDescriptor s.srcAddr.toNat)) := rfl
@[simp] theorem writeParsed_opcode (s : State) (r : Parsed) : (s.writeParsed r).opcode = s.opcode := rfl
@[simp] theorem writeParsed_status (s : State) (r : Parsed) : (s.writeParsed r).status = s.status := rfl
@[simp] theorem writeParsed_ie (s : State) (r : Parsed) : (s.writeParsed r).ie = s.ie := rfl
@[simp] theorem writeParsed_srcAddr (s : State) (r : Parsed) : (s.writeParsed r).srcAddr = s.srcAddr := rfl
@[simp] theorem writeParsed_srcLen (s : State) (r : Parsed) : (s.writeParsed r).srcLen = s.srcLen := rfl
@[simp] theorem writeParsed_dstAddr (s : State) (r : Parsed) : (s.writeParsed r).dstAddr = s.dstAddr := rfl
@[simp] theorem writeParsed_dstCap (s : State) (r : Parsed) : (s.writeParsed r).dstCap = s.dstCap := rfl
@[simp] theorem writeParsed_tiles (s : State) (r : Parsed) : (s.writeParsed r).tiles = s.tiles := rfl
@[simp] theorem writeParsed_keyIn (s : State) (r : Parsed) : (s.writeParsed r).keyIn = s.keyIn := rfl
@[simp] theorem writeParsed_keyOut (s : State) (r : Parsed) : (s.writeParsed r).keyOut = s.keyOut := rfl
@[simp] theorem writeParsed_resultLen (s : State) (r : Parsed) : (s.writeParsed r).resultLen = BitVec.ofNat 32 (12 * r.count) := rfl
@[simp] theorem writeParsed_oamW0 (s : State) (r : Parsed) : (s.writeParsed r).oamW0 = s.oamW0 := rfl
@[simp] theorem writeParsed_oamW1 (s : State) (r : Parsed) : (s.writeParsed r).oamW1 = s.oamW1 := rfl
@[simp] theorem writeParsed_oamW2 (s : State) (r : Parsed) : (s.writeParsed r).oamW2 = s.oamW2 := rfl
@[simp] theorem writeParsed_recX (s : State) (r : Parsed) : (s.writeParsed r).recX = s.recX := rfl
@[simp] theorem writeParsed_recY (s : State) (r : Parsed) : (s.writeParsed r).recY = s.recY := rfl
@[simp] theorem writeParsed_recAttr (s : State) (r : Parsed) : (s.writeParsed r).recAttr = s.recAttr := rfl
@[simp] theorem writeParsed_ntrTag (s : State) (r : Parsed) : (s.writeParsed r).ntrTag = tagWord r.tag := rfl
@[simp] theorem writeParsed_ntrVer (s : State) (r : Parsed) : (s.writeParsed r).ntrVer = BitVec.ofNat 16 r.ver := rfl
@[simp] theorem writeParsed_ntrNblk (s : State) (r : Parsed) : (s.writeParsed r).ntrNblk = BitVec.ofNat 16 r.count := rfl
@[simp] theorem writeParsed_ntrTotal (s : State) (r : Parsed) : (s.writeParsed r).ntrTotal = BitVec.ofNat 32 r.total := rfl
@[simp] theorem writeParsed_hazard (s : State) (r : Parsed) : (s.writeParsed r).hazard = s.hazard := rfl
@[simp] theorem writeParsed_params (s : State) (r : Parsed) : (s.writeParsed r).params = s.params := rfl
@[simp] theorem writeParsed_powerOns (s : State) (r : Parsed) : (s.writeParsed r).powerOns = s.powerOns := rfl
@[simp] theorem writeParsed_draws (s : State) (r : Parsed) : (s.writeParsed r).draws = s.draws := rfl
@[simp] theorem writeParsed_script (s : State) (r : Parsed) : (s.writeParsed r).script = s.script := rfl
@[simp] theorem writeParsed_turns (s : State) (r : Parsed) : (s.writeParsed r).turns = s.turns := rfl
@[simp] theorem writeParsed_reads (s : State) (r : Parsed) : (s.writeParsed r).reads = s.reads := rfl

/-! ## finish -/

@[simp] theorem finish_mem (s : State) : (s.finish).mem = s.mem := rfl
@[simp] theorem finish_opcode (s : State) : (s.finish).opcode = s.opcode := rfl
@[simp] theorem finish_status (s : State) : (s.finish).status = s.status.finishOk := rfl
@[simp] theorem finish_ie (s : State) : (s.finish).ie = s.ie := rfl
@[simp] theorem finish_srcAddr (s : State) : (s.finish).srcAddr = s.srcAddr := rfl
@[simp] theorem finish_srcLen (s : State) : (s.finish).srcLen = s.srcLen := rfl
@[simp] theorem finish_dstAddr (s : State) : (s.finish).dstAddr = s.dstAddr := rfl
@[simp] theorem finish_dstCap (s : State) : (s.finish).dstCap = s.dstCap := rfl
@[simp] theorem finish_tiles (s : State) : (s.finish).tiles = s.tiles := rfl
@[simp] theorem finish_keyIn (s : State) : (s.finish).keyIn = s.keyIn := rfl
@[simp] theorem finish_keyOut (s : State) : (s.finish).keyOut = s.keyOut := rfl
@[simp] theorem finish_resultLen (s : State) : (s.finish).resultLen = s.resultLen := rfl
@[simp] theorem finish_oamW0 (s : State) : (s.finish).oamW0 = s.oamW0 := rfl
@[simp] theorem finish_oamW1 (s : State) : (s.finish).oamW1 = s.oamW1 := rfl
@[simp] theorem finish_oamW2 (s : State) : (s.finish).oamW2 = s.oamW2 := rfl
@[simp] theorem finish_recX (s : State) : (s.finish).recX = s.recX := rfl
@[simp] theorem finish_recY (s : State) : (s.finish).recY = s.recY := rfl
@[simp] theorem finish_recAttr (s : State) : (s.finish).recAttr = s.recAttr := rfl
@[simp] theorem finish_ntrTag (s : State) : (s.finish).ntrTag = s.ntrTag := rfl
@[simp] theorem finish_ntrVer (s : State) : (s.finish).ntrVer = s.ntrVer := rfl
@[simp] theorem finish_ntrNblk (s : State) : (s.finish).ntrNblk = s.ntrNblk := rfl
@[simp] theorem finish_ntrTotal (s : State) : (s.finish).ntrTotal = s.ntrTotal := rfl
@[simp] theorem finish_hazard (s : State) : (s.finish).hazard = s.hazard := rfl
@[simp] theorem finish_params (s : State) : (s.finish).params = s.params := rfl
@[simp] theorem finish_powerOns (s : State) : (s.finish).powerOns = s.powerOns := rfl
@[simp] theorem finish_draws (s : State) : (s.finish).draws = s.draws := rfl
@[simp] theorem finish_script (s : State) : (s.finish).script = s.script := rfl
@[simp] theorem finish_turns (s : State) : (s.finish).turns = s.turns := rfl
@[simp] theorem finish_reads (s : State) : (s.finish).reads = s.reads := rfl

/-! ## report -/

@[simp] theorem report_mem (s : State) (e : ErrCode) : (s.report e).mem = s.mem := rfl
@[simp] theorem report_opcode (s : State) (e : ErrCode) : (s.report e).opcode = s.opcode := rfl
@[simp] theorem report_status (s : State) (e : ErrCode) : (s.report e).status = s.status.finishErr e := rfl
@[simp] theorem report_ie (s : State) (e : ErrCode) : (s.report e).ie = s.ie := rfl
@[simp] theorem report_srcAddr (s : State) (e : ErrCode) : (s.report e).srcAddr = s.srcAddr := rfl
@[simp] theorem report_srcLen (s : State) (e : ErrCode) : (s.report e).srcLen = s.srcLen := rfl
@[simp] theorem report_dstAddr (s : State) (e : ErrCode) : (s.report e).dstAddr = s.dstAddr := rfl
@[simp] theorem report_dstCap (s : State) (e : ErrCode) : (s.report e).dstCap = s.dstCap := rfl
@[simp] theorem report_tiles (s : State) (e : ErrCode) : (s.report e).tiles = s.tiles := rfl
@[simp] theorem report_keyIn (s : State) (e : ErrCode) : (s.report e).keyIn = s.keyIn := rfl
@[simp] theorem report_keyOut (s : State) (e : ErrCode) : (s.report e).keyOut = s.keyOut := rfl
@[simp] theorem report_resultLen (s : State) (e : ErrCode) : (s.report e).resultLen = s.resultLen := rfl
@[simp] theorem report_oamW0 (s : State) (e : ErrCode) : (s.report e).oamW0 = s.oamW0 := rfl
@[simp] theorem report_oamW1 (s : State) (e : ErrCode) : (s.report e).oamW1 = s.oamW1 := rfl
@[simp] theorem report_oamW2 (s : State) (e : ErrCode) : (s.report e).oamW2 = s.oamW2 := rfl
@[simp] theorem report_recX (s : State) (e : ErrCode) : (s.report e).recX = s.recX := rfl
@[simp] theorem report_recY (s : State) (e : ErrCode) : (s.report e).recY = s.recY := rfl
@[simp] theorem report_recAttr (s : State) (e : ErrCode) : (s.report e).recAttr = s.recAttr := rfl
@[simp] theorem report_ntrTag (s : State) (e : ErrCode) : (s.report e).ntrTag = s.ntrTag := rfl
@[simp] theorem report_ntrVer (s : State) (e : ErrCode) : (s.report e).ntrVer = s.ntrVer := rfl
@[simp] theorem report_ntrNblk (s : State) (e : ErrCode) : (s.report e).ntrNblk = s.ntrNblk := rfl
@[simp] theorem report_ntrTotal (s : State) (e : ErrCode) : (s.report e).ntrTotal = s.ntrTotal := rfl
@[simp] theorem report_hazard (s : State) (e : ErrCode) : (s.report e).hazard = s.hazard := rfl
@[simp] theorem report_params (s : State) (e : ErrCode) : (s.report e).params = s.params := rfl
@[simp] theorem report_powerOns (s : State) (e : ErrCode) : (s.report e).powerOns = s.powerOns := rfl
@[simp] theorem report_draws (s : State) (e : ErrCode) : (s.report e).draws = s.draws := rfl
@[simp] theorem report_script (s : State) (e : ErrCode) : (s.report e).script = s.script := rfl
@[simp] theorem report_turns (s : State) (e : ErrCode) : (s.report e).turns = s.turns := rfl
@[simp] theorem report_reads (s : State) (e : ErrCode) : (s.report e).reads = s.reads := rfl

/-! ## writeRecord -/

@[simp] theorem writeRecord_mem (s : State) (r : OamRec) : (s.writeRecord r).mem = s.mem := rfl
@[simp] theorem writeRecord_opcode (s : State) (r : OamRec) : (s.writeRecord r).opcode = s.opcode := rfl
@[simp] theorem writeRecord_status (s : State) (r : OamRec) : (s.writeRecord r).status = s.status := rfl
@[simp] theorem writeRecord_ie (s : State) (r : OamRec) : (s.writeRecord r).ie = s.ie := rfl
@[simp] theorem writeRecord_srcAddr (s : State) (r : OamRec) : (s.writeRecord r).srcAddr = s.srcAddr := rfl
@[simp] theorem writeRecord_srcLen (s : State) (r : OamRec) : (s.writeRecord r).srcLen = s.srcLen := rfl
@[simp] theorem writeRecord_dstAddr (s : State) (r : OamRec) : (s.writeRecord r).dstAddr = s.dstAddr := rfl
@[simp] theorem writeRecord_dstCap (s : State) (r : OamRec) : (s.writeRecord r).dstCap = s.dstCap := rfl
@[simp] theorem writeRecord_tiles (s : State) (r : OamRec) : (s.writeRecord r).tiles = s.tiles := rfl
@[simp] theorem writeRecord_keyIn (s : State) (r : OamRec) : (s.writeRecord r).keyIn = s.keyIn := rfl
@[simp] theorem writeRecord_keyOut (s : State) (r : OamRec) : (s.writeRecord r).keyOut = s.keyOut := rfl
@[simp] theorem writeRecord_resultLen (s : State) (r : OamRec) : (s.writeRecord r).resultLen = s.resultLen := rfl
@[simp] theorem writeRecord_oamW0 (s : State) (r : OamRec) : (s.writeRecord r).oamW0 = s.oamW0 := rfl
@[simp] theorem writeRecord_oamW1 (s : State) (r : OamRec) : (s.writeRecord r).oamW1 = s.oamW1 := rfl
@[simp] theorem writeRecord_oamW2 (s : State) (r : OamRec) : (s.writeRecord r).oamW2 = s.oamW2 := rfl
@[simp] theorem writeRecord_recX (s : State) (r : OamRec) : (s.writeRecord r).recX = BitVec.ofInt 16 r.x := rfl
@[simp] theorem writeRecord_recY (s : State) (r : OamRec) : (s.writeRecord r).recY = BitVec.ofInt 16 r.y := rfl
@[simp] theorem writeRecord_recAttr (s : State) (r : OamRec) : (s.writeRecord r).recAttr = r.attr := rfl
@[simp] theorem writeRecord_ntrTag (s : State) (r : OamRec) : (s.writeRecord r).ntrTag = s.ntrTag := rfl
@[simp] theorem writeRecord_ntrVer (s : State) (r : OamRec) : (s.writeRecord r).ntrVer = s.ntrVer := rfl
@[simp] theorem writeRecord_ntrNblk (s : State) (r : OamRec) : (s.writeRecord r).ntrNblk = s.ntrNblk := rfl
@[simp] theorem writeRecord_ntrTotal (s : State) (r : OamRec) : (s.writeRecord r).ntrTotal = s.ntrTotal := rfl
@[simp] theorem writeRecord_hazard (s : State) (r : OamRec) : (s.writeRecord r).hazard = s.hazard := rfl
@[simp] theorem writeRecord_params (s : State) (r : OamRec) : (s.writeRecord r).params = s.params := rfl
@[simp] theorem writeRecord_powerOns (s : State) (r : OamRec) : (s.writeRecord r).powerOns = s.powerOns := rfl
@[simp] theorem writeRecord_draws (s : State) (r : OamRec) : (s.writeRecord r).draws = s.draws := rfl
@[simp] theorem writeRecord_script (s : State) (r : OamRec) : (s.writeRecord r).script = s.script := rfl
@[simp] theorem writeRecord_turns (s : State) (r : OamRec) : (s.writeRecord r).turns = s.turns := rfl
@[simp] theorem writeRecord_reads (s : State) (r : OamRec) : (s.writeRecord r).reads = s.reads := rfl

/-! ## writeTriple -/

@[simp] theorem writeTriple_mem (s : State) (w : Half × Half × Half) : (s.writeTriple w).mem = s.mem := rfl
@[simp] theorem writeTriple_opcode (s : State) (w : Half × Half × Half) : (s.writeTriple w).opcode = s.opcode := rfl
@[simp] theorem writeTriple_status (s : State) (w : Half × Half × Half) : (s.writeTriple w).status = s.status := rfl
@[simp] theorem writeTriple_ie (s : State) (w : Half × Half × Half) : (s.writeTriple w).ie = s.ie := rfl
@[simp] theorem writeTriple_srcAddr (s : State) (w : Half × Half × Half) : (s.writeTriple w).srcAddr = s.srcAddr := rfl
@[simp] theorem writeTriple_srcLen (s : State) (w : Half × Half × Half) : (s.writeTriple w).srcLen = s.srcLen := rfl
@[simp] theorem writeTriple_dstAddr (s : State) (w : Half × Half × Half) : (s.writeTriple w).dstAddr = s.dstAddr := rfl
@[simp] theorem writeTriple_dstCap (s : State) (w : Half × Half × Half) : (s.writeTriple w).dstCap = s.dstCap := rfl
@[simp] theorem writeTriple_tiles (s : State) (w : Half × Half × Half) : (s.writeTriple w).tiles = s.tiles := rfl
@[simp] theorem writeTriple_keyIn (s : State) (w : Half × Half × Half) : (s.writeTriple w).keyIn = s.keyIn := rfl
@[simp] theorem writeTriple_keyOut (s : State) (w : Half × Half × Half) : (s.writeTriple w).keyOut = s.keyOut := rfl
@[simp] theorem writeTriple_resultLen (s : State) (w : Half × Half × Half) : (s.writeTriple w).resultLen = s.resultLen := rfl
@[simp] theorem writeTriple_oamW0 (s : State) (w : Half × Half × Half) : (s.writeTriple w).oamW0 = w.1 := rfl
@[simp] theorem writeTriple_oamW1 (s : State) (w : Half × Half × Half) : (s.writeTriple w).oamW1 = w.2.1 := rfl
@[simp] theorem writeTriple_oamW2 (s : State) (w : Half × Half × Half) : (s.writeTriple w).oamW2 = w.2.2 := rfl
@[simp] theorem writeTriple_recX (s : State) (w : Half × Half × Half) : (s.writeTriple w).recX = s.recX := rfl
@[simp] theorem writeTriple_recY (s : State) (w : Half × Half × Half) : (s.writeTriple w).recY = s.recY := rfl
@[simp] theorem writeTriple_recAttr (s : State) (w : Half × Half × Half) : (s.writeTriple w).recAttr = s.recAttr := rfl
@[simp] theorem writeTriple_ntrTag (s : State) (w : Half × Half × Half) : (s.writeTriple w).ntrTag = s.ntrTag := rfl
@[simp] theorem writeTriple_ntrVer (s : State) (w : Half × Half × Half) : (s.writeTriple w).ntrVer = s.ntrVer := rfl
@[simp] theorem writeTriple_ntrNblk (s : State) (w : Half × Half × Half) : (s.writeTriple w).ntrNblk = s.ntrNblk := rfl
@[simp] theorem writeTriple_ntrTotal (s : State) (w : Half × Half × Half) : (s.writeTriple w).ntrTotal = s.ntrTotal := rfl
@[simp] theorem writeTriple_hazard (s : State) (w : Half × Half × Half) : (s.writeTriple w).hazard = s.hazard := rfl
@[simp] theorem writeTriple_params (s : State) (w : Half × Half × Half) : (s.writeTriple w).params = s.params := rfl
@[simp] theorem writeTriple_powerOns (s : State) (w : Half × Half × Half) : (s.writeTriple w).powerOns = s.powerOns := rfl
@[simp] theorem writeTriple_draws (s : State) (w : Half × Half × Half) : (s.writeTriple w).draws = s.draws := rfl
@[simp] theorem writeTriple_script (s : State) (w : Half × Half × Half) : (s.writeTriple w).script = s.script := rfl
@[simp] theorem writeTriple_turns (s : State) (w : Half × Half × Half) : (s.writeTriple w).turns = s.turns := rfl
@[simp] theorem writeTriple_reads (s : State) (w : Half × Half × Half) : (s.writeTriple w).reads = s.reads := rfl

/-! ## withScript -/

@[simp] theorem withScript_mem (s : State) (l : List HostAction) : (s.withScript l).mem = s.mem := rfl
@[simp] theorem withScript_opcode (s : State) (l : List HostAction) : (s.withScript l).opcode = s.opcode := rfl
@[simp] theorem withScript_status (s : State) (l : List HostAction) : (s.withScript l).status = s.status := rfl
@[simp] theorem withScript_ie (s : State) (l : List HostAction) : (s.withScript l).ie = s.ie := rfl
@[simp] theorem withScript_srcAddr (s : State) (l : List HostAction) : (s.withScript l).srcAddr = s.srcAddr := rfl
@[simp] theorem withScript_srcLen (s : State) (l : List HostAction) : (s.withScript l).srcLen = s.srcLen := rfl
@[simp] theorem withScript_dstAddr (s : State) (l : List HostAction) : (s.withScript l).dstAddr = s.dstAddr := rfl
@[simp] theorem withScript_dstCap (s : State) (l : List HostAction) : (s.withScript l).dstCap = s.dstCap := rfl
@[simp] theorem withScript_tiles (s : State) (l : List HostAction) : (s.withScript l).tiles = s.tiles := rfl
@[simp] theorem withScript_keyIn (s : State) (l : List HostAction) : (s.withScript l).keyIn = s.keyIn := rfl
@[simp] theorem withScript_keyOut (s : State) (l : List HostAction) : (s.withScript l).keyOut = s.keyOut := rfl
@[simp] theorem withScript_resultLen (s : State) (l : List HostAction) : (s.withScript l).resultLen = s.resultLen := rfl
@[simp] theorem withScript_oamW0 (s : State) (l : List HostAction) : (s.withScript l).oamW0 = s.oamW0 := rfl
@[simp] theorem withScript_oamW1 (s : State) (l : List HostAction) : (s.withScript l).oamW1 = s.oamW1 := rfl
@[simp] theorem withScript_oamW2 (s : State) (l : List HostAction) : (s.withScript l).oamW2 = s.oamW2 := rfl
@[simp] theorem withScript_recX (s : State) (l : List HostAction) : (s.withScript l).recX = s.recX := rfl
@[simp] theorem withScript_recY (s : State) (l : List HostAction) : (s.withScript l).recY = s.recY := rfl
@[simp] theorem withScript_recAttr (s : State) (l : List HostAction) : (s.withScript l).recAttr = s.recAttr := rfl
@[simp] theorem withScript_ntrTag (s : State) (l : List HostAction) : (s.withScript l).ntrTag = s.ntrTag := rfl
@[simp] theorem withScript_ntrVer (s : State) (l : List HostAction) : (s.withScript l).ntrVer = s.ntrVer := rfl
@[simp] theorem withScript_ntrNblk (s : State) (l : List HostAction) : (s.withScript l).ntrNblk = s.ntrNblk := rfl
@[simp] theorem withScript_ntrTotal (s : State) (l : List HostAction) : (s.withScript l).ntrTotal = s.ntrTotal := rfl
@[simp] theorem withScript_hazard (s : State) (l : List HostAction) : (s.withScript l).hazard = s.hazard := rfl
@[simp] theorem withScript_params (s : State) (l : List HostAction) : (s.withScript l).params = s.params := rfl
@[simp] theorem withScript_powerOns (s : State) (l : List HostAction) : (s.withScript l).powerOns = s.powerOns := rfl
@[simp] theorem withScript_draws (s : State) (l : List HostAction) : (s.withScript l).draws = s.draws := rfl
@[simp] theorem withScript_script (s : State) (l : List HostAction) : (s.withScript l).script = l := rfl
@[simp] theorem withScript_turns (s : State) (l : List HostAction) : (s.withScript l).turns = s.turns := rfl
@[simp] theorem withScript_reads (s : State) (l : List HostAction) : (s.withScript l).reads = s.reads := rfl

/-! ## withTurns -/

@[simp] theorem withTurns_mem (s : State) (l : List Agent) : (s.withTurns l).mem = s.mem := rfl
@[simp] theorem withTurns_opcode (s : State) (l : List Agent) : (s.withTurns l).opcode = s.opcode := rfl
@[simp] theorem withTurns_status (s : State) (l : List Agent) : (s.withTurns l).status = s.status := rfl
@[simp] theorem withTurns_ie (s : State) (l : List Agent) : (s.withTurns l).ie = s.ie := rfl
@[simp] theorem withTurns_srcAddr (s : State) (l : List Agent) : (s.withTurns l).srcAddr = s.srcAddr := rfl
@[simp] theorem withTurns_srcLen (s : State) (l : List Agent) : (s.withTurns l).srcLen = s.srcLen := rfl
@[simp] theorem withTurns_dstAddr (s : State) (l : List Agent) : (s.withTurns l).dstAddr = s.dstAddr := rfl
@[simp] theorem withTurns_dstCap (s : State) (l : List Agent) : (s.withTurns l).dstCap = s.dstCap := rfl
@[simp] theorem withTurns_tiles (s : State) (l : List Agent) : (s.withTurns l).tiles = s.tiles := rfl
@[simp] theorem withTurns_keyIn (s : State) (l : List Agent) : (s.withTurns l).keyIn = s.keyIn := rfl
@[simp] theorem withTurns_keyOut (s : State) (l : List Agent) : (s.withTurns l).keyOut = s.keyOut := rfl
@[simp] theorem withTurns_resultLen (s : State) (l : List Agent) : (s.withTurns l).resultLen = s.resultLen := rfl
@[simp] theorem withTurns_oamW0 (s : State) (l : List Agent) : (s.withTurns l).oamW0 = s.oamW0 := rfl
@[simp] theorem withTurns_oamW1 (s : State) (l : List Agent) : (s.withTurns l).oamW1 = s.oamW1 := rfl
@[simp] theorem withTurns_oamW2 (s : State) (l : List Agent) : (s.withTurns l).oamW2 = s.oamW2 := rfl
@[simp] theorem withTurns_recX (s : State) (l : List Agent) : (s.withTurns l).recX = s.recX := rfl
@[simp] theorem withTurns_recY (s : State) (l : List Agent) : (s.withTurns l).recY = s.recY := rfl
@[simp] theorem withTurns_recAttr (s : State) (l : List Agent) : (s.withTurns l).recAttr = s.recAttr := rfl
@[simp] theorem withTurns_ntrTag (s : State) (l : List Agent) : (s.withTurns l).ntrTag = s.ntrTag := rfl
@[simp] theorem withTurns_ntrVer (s : State) (l : List Agent) : (s.withTurns l).ntrVer = s.ntrVer := rfl
@[simp] theorem withTurns_ntrNblk (s : State) (l : List Agent) : (s.withTurns l).ntrNblk = s.ntrNblk := rfl
@[simp] theorem withTurns_ntrTotal (s : State) (l : List Agent) : (s.withTurns l).ntrTotal = s.ntrTotal := rfl
@[simp] theorem withTurns_hazard (s : State) (l : List Agent) : (s.withTurns l).hazard = s.hazard := rfl
@[simp] theorem withTurns_params (s : State) (l : List Agent) : (s.withTurns l).params = s.params := rfl
@[simp] theorem withTurns_powerOns (s : State) (l : List Agent) : (s.withTurns l).powerOns = s.powerOns := rfl
@[simp] theorem withTurns_draws (s : State) (l : List Agent) : (s.withTurns l).draws = s.draws := rfl
@[simp] theorem withTurns_script (s : State) (l : List Agent) : (s.withTurns l).script = s.script := rfl
@[simp] theorem withTurns_turns (s : State) (l : List Agent) : (s.withTurns l).turns = l := rfl
@[simp] theorem withTurns_reads (s : State) (l : List Agent) : (s.withTurns l).reads = s.reads := rfl

/-! ## fail -/

@[simp] theorem fail_opcode (s : State) (e : ErrCode) : (s.fail e).opcode = s.opcode := by
  cases e <;> rfl
@[simp] theorem fail_ie (s : State) (e : ErrCode) : (s.fail e).ie = s.ie := by
  cases e <;> rfl
@[simp] theorem fail_srcAddr (s : State) (e : ErrCode) : (s.fail e).srcAddr = s.srcAddr := by
  cases e <;> rfl
@[simp] theorem fail_srcLen (s : State) (e : ErrCode) : (s.fail e).srcLen = s.srcLen := by
  cases e <;> rfl
@[simp] theorem fail_dstAddr (s : State) (e : ErrCode) : (s.fail e).dstAddr = s.dstAddr := by
  cases e <;> rfl
@[simp] theorem fail_dstCap (s : State) (e : ErrCode) : (s.fail e).dstCap = s.dstCap := by
  cases e <;> rfl
@[simp] theorem fail_tiles (s : State) (e : ErrCode) : (s.fail e).tiles = s.tiles := by
  cases e <;> rfl
@[simp] theorem fail_keyIn (s : State) (e : ErrCode) : (s.fail e).keyIn = s.keyIn := by
  cases e <;> rfl
@[simp] theorem fail_keyOut (s : State) (e : ErrCode) : (s.fail e).keyOut = s.keyOut := by
  cases e <;> rfl
@[simp] theorem fail_resultLen (s : State) (e : ErrCode) : (s.fail e).resultLen = s.resultLen := by
  cases e <;> rfl
@[simp] theorem fail_oamW0 (s : State) (e : ErrCode) : (s.fail e).oamW0 = s.oamW0 := by
  cases e <;> rfl
@[simp] theorem fail_oamW1 (s : State) (e : ErrCode) : (s.fail e).oamW1 = s.oamW1 := by
  cases e <;> rfl
@[simp] theorem fail_oamW2 (s : State) (e : ErrCode) : (s.fail e).oamW2 = s.oamW2 := by
  cases e <;> rfl
@[simp] theorem fail_recX (s : State) (e : ErrCode) : (s.fail e).recX = s.recX := by
  cases e <;> rfl
@[simp] theorem fail_recY (s : State) (e : ErrCode) : (s.fail e).recY = s.recY := by
  cases e <;> rfl
@[simp] theorem fail_recAttr (s : State) (e : ErrCode) : (s.fail e).recAttr = s.recAttr := by
  cases e <;> rfl
@[simp] theorem fail_ntrTag (s : State) (e : ErrCode) : (s.fail e).ntrTag = s.ntrTag := by
  cases e <;> rfl
@[simp] theorem fail_ntrVer (s : State) (e : ErrCode) : (s.fail e).ntrVer = s.ntrVer := by
  cases e <;> rfl
@[simp] theorem fail_ntrNblk (s : State) (e : ErrCode) : (s.fail e).ntrNblk = s.ntrNblk := by
  cases e <;> rfl
@[simp] theorem fail_ntrTotal (s : State) (e : ErrCode) : (s.fail e).ntrTotal = s.ntrTotal := by
  cases e <;> rfl
@[simp] theorem fail_hazard (s : State) (e : ErrCode) : (s.fail e).hazard = s.hazard := by
  cases e <;> rfl
@[simp] theorem fail_params (s : State) (e : ErrCode) : (s.fail e).params = s.params := by
  cases e <;> rfl
@[simp] theorem fail_powerOns (s : State) (e : ErrCode) : (s.fail e).powerOns = s.powerOns := by
  cases e <;> rfl
@[simp] theorem fail_script (s : State) (e : ErrCode) : (s.fail e).script = s.script := by
  cases e <;> rfl
@[simp] theorem fail_turns (s : State) (e : ErrCode) : (s.fail e).turns = s.turns := by
  cases e <;> rfl
@[simp] theorem fail_reads (s : State) (e : ErrCode) : (s.fail e).reads = s.reads := by
  cases e <;> rfl
@[simp] theorem fail_status (s : State) (e : ErrCode) : (s.fail e).status = s.status.finishErr e := by
  cases e <;> rfl

/-! ## endTurn -/

@[simp] theorem endTurn_mem (s : State) : s.endTurn.mem = s.mem := by
  unfold State.endTurn; split <;> rfl
@[simp] theorem endTurn_opcode (s : State) : s.endTurn.opcode = s.opcode := by
  unfold State.endTurn; split <;> rfl
@[simp] theorem endTurn_status (s : State) : s.endTurn.status = s.status := by
  unfold State.endTurn; split <;> rfl
@[simp] theorem endTurn_ie (s : State) : s.endTurn.ie = s.ie := by
  unfold State.endTurn; split <;> rfl
@[simp] theorem endTurn_srcAddr (s : State) : s.endTurn.srcAddr = s.srcAddr := by
  unfold State.endTurn; split <;> rfl
@[simp] theorem endTurn_srcLen (s : State) : s.endTurn.srcLen = s.srcLen := by
  unfold State.endTurn; split <;> rfl
@[simp] theorem endTurn_dstAddr (s : State) : s.endTurn.dstAddr = s.dstAddr := by
  unfold State.endTurn; split <;> rfl
@[simp] theorem endTurn_dstCap (s : State) : s.endTurn.dstCap = s.dstCap := by
  unfold State.endTurn; split <;> rfl
@[simp] theorem endTurn_tiles (s : State) : s.endTurn.tiles = s.tiles := by
  unfold State.endTurn; split <;> rfl
@[simp] theorem endTurn_keyIn (s : State) : s.endTurn.keyIn = s.keyIn := by
  unfold State.endTurn; split <;> rfl
@[simp] theorem endTurn_keyOut (s : State) : s.endTurn.keyOut = s.keyOut := by
  unfold State.endTurn; split <;> rfl
@[simp] theorem endTurn_resultLen (s : State) : s.endTurn.resultLen = s.resultLen := by
  unfold State.endTurn; split <;> rfl
@[simp] theorem endTurn_oamW0 (s : State) : s.endTurn.oamW0 = s.oamW0 := by
  unfold State.endTurn; split <;> rfl
@[simp] theorem endTurn_oamW1 (s : State) : s.endTurn.oamW1 = s.oamW1 := by
  unfold State.endTurn; split <;> rfl
@[simp] theorem endTurn_oamW2 (s : State) : s.endTurn.oamW2 = s.oamW2 := by
  unfold State.endTurn; split <;> rfl
@[simp] theorem endTurn_recX (s : State) : s.endTurn.recX = s.recX := by
  unfold State.endTurn; split <;> rfl
@[simp] theorem endTurn_recY (s : State) : s.endTurn.recY = s.recY := by
  unfold State.endTurn; split <;> rfl
@[simp] theorem endTurn_recAttr (s : State) : s.endTurn.recAttr = s.recAttr := by
  unfold State.endTurn; split <;> rfl
@[simp] theorem endTurn_ntrTag (s : State) : s.endTurn.ntrTag = s.ntrTag := by
  unfold State.endTurn; split <;> rfl
@[simp] theorem endTurn_ntrVer (s : State) : s.endTurn.ntrVer = s.ntrVer := by
  unfold State.endTurn; split <;> rfl
@[simp] theorem endTurn_ntrNblk (s : State) : s.endTurn.ntrNblk = s.ntrNblk := by
  unfold State.endTurn; split <;> rfl
@[simp] theorem endTurn_ntrTotal (s : State) : s.endTurn.ntrTotal = s.ntrTotal := by
  unfold State.endTurn; split <;> rfl
@[simp] theorem endTurn_hazard (s : State) : s.endTurn.hazard = s.hazard := by
  unfold State.endTurn; split <;> rfl
@[simp] theorem endTurn_params (s : State) : s.endTurn.params = s.params := by
  unfold State.endTurn; split <;> rfl
@[simp] theorem endTurn_powerOns (s : State) : s.endTurn.powerOns = s.powerOns := by
  unfold State.endTurn; split <;> rfl
@[simp] theorem endTurn_draws (s : State) : s.endTurn.draws = s.draws := by
  unfold State.endTurn; split <;> rfl
@[simp] theorem endTurn_script (s : State) : s.endTurn.script = s.script := by
  unfold State.endTurn; split <;> rfl
@[simp] theorem endTurn_reads (s : State) : s.endTurn.reads = s.reads := by
  unfold State.endTurn; split <;> rfl

/-! ## STATUS -/

@[simp] theorem status_start_busy (f : Status) : (f.start).busy = true := rfl
@[simp] theorem status_start_done (f : Status) : (f.start).done = false := rfl
@[simp] theorem status_start_err (f : Status) : (f.start).err = false := rfl
@[simp] theorem status_start_ovr (f : Status) : (f.start).ovr = f.ovr := rfl
@[simp] theorem status_start_errClass (f : Status) : (f.start).errClass = 0 := rfl
@[simp] theorem status_start_errCode (f : Status) : (f.start).errCode = 0 := rfl

@[simp] theorem status_finishOk_busy (f : Status) : (f.finishOk).busy = false := rfl
@[simp] theorem status_finishOk_done (f : Status) : (f.finishOk).done = true := rfl
@[simp] theorem status_finishOk_err (f : Status) : (f.finishOk).err = f.err := rfl
@[simp] theorem status_finishOk_ovr (f : Status) : (f.finishOk).ovr = f.ovr := rfl
@[simp] theorem status_finishOk_errClass (f : Status) : (f.finishOk).errClass = f.errClass := rfl
@[simp] theorem status_finishOk_errCode (f : Status) : (f.finishOk).errCode = f.errCode := rfl

@[simp] theorem status_finishErr_busy (f : Status) (e : ErrCode) : (f.finishErr e).busy = false := rfl
@[simp] theorem status_finishErr_done (f : Status) (e : ErrCode) : (f.finishErr e).done = false := rfl
@[simp] theorem status_finishErr_err (f : Status) (e : ErrCode) : (f.finishErr e).err = true := rfl
@[simp] theorem status_finishErr_ovr (f : Status) (e : ErrCode) : (f.finishErr e).ovr = f.ovr := rfl
@[simp] theorem status_finishErr_errClass (f : Status) (e : ErrCode) : (f.finishErr e).errClass = e.errClass := rfl
@[simp] theorem status_finishErr_errCode (f : Status) (e : ErrCode) : (f.finishErr e).errCode = e.code := rfl

@[simp] theorem status_overrun_busy (f : Status) : (f.overrun).busy = f.busy := rfl
@[simp] theorem status_overrun_done (f : Status) : (f.overrun).done = f.done := rfl
@[simp] theorem status_overrun_err (f : Status) : (f.overrun).err = f.err := rfl
@[simp] theorem status_overrun_ovr (f : Status) : (f.overrun).ovr = true := rfl
@[simp] theorem status_overrun_errClass (f : Status) : (f.overrun).errClass = f.errClass := rfl
@[simp] theorem status_overrun_errCode (f : Status) : (f.overrun).errCode = f.errCode := rfl

@[simp] theorem status_clear_busy (f : Status) (v : Word) : (f.clear v).busy = f.busy := rfl
@[simp] theorem status_clear_done (f : Status) (v : Word) : (f.clear v).done = (f.done && !v.getLsbD 1) := rfl
@[simp] theorem status_clear_err (f : Status) (v : Word) : (f.clear v).err = (f.err && !v.getLsbD 2) := rfl
@[simp] theorem status_clear_ovr (f : Status) (v : Word) : (f.clear v).ovr = (f.ovr && !v.getLsbD 3) := rfl
@[simp] theorem status_clear_errClass (f : Status) (v : Word) : (f.clear v).errClass = f.errClass := rfl
@[simp] theorem status_clear_errCode (f : Status) (v : Word) : (f.clear v).errCode = f.errCode := rfl

end Sys2Proof.Machine
end

