-- ==== Sys2Proof/Laws/Memory.lean ====
section
/-! SUPPORT. The laws of MEM: a read after a write, what a write leaves alone, and that every memory operation keeps the
canonical form. -/

namespace Sys2Proof.Machine

/-! ## Stored bytes -/

theorem stored_append (m m' : Memory) (a : Nat) :
    (m ++ m' : Memory).stored a = (m.stored a).or (m'.stored a) := by
  induction m with
  | nil => simp [Memory.stored]
  | cons c m ih =>
    obtain ⟨x, v⟩ := c
    by_cases h : x = a <;> simp [Memory.stored, h, ih]

theorem stored_filter (m : Memory) (p : Nat → Bool) (a : Nat) :
    Memory.stored (m.filter (fun c => p c.1)) a = if p a then m.stored a else none := by
  induction m with
  | nil => simp [Memory.stored]
  | cons c m ih =>
    obtain ⟨x, v⟩ := c
    by_cases hx : x = a
    · subst hx
      by_cases hp : p x = true <;> simp [Memory.stored, hp, ih]
    · by_cases hp : p x = true <;> simp [Memory.stored, hp, hx, ih]

theorem stored_cellsFrom (bs : List Byte) (d a : Nat) :
    Memory.stored (cellsFrom d bs) a = if d ≤ a then bs[a - d]? else none := by
  induction bs generalizing d with
  | nil => simp [cellsFrom, Memory.stored]
  | cons b bs ih =>
    simp only [cellsFrom, Memory.stored, ih]
    by_cases h : d = a
    · subst h; simp
    · by_cases h' : d + 1 ≤ a
      · have h1 : a - d = (a - (d + 1)) + 1 := by omega
        have h2 : d ≤ a := by omega
        simp [h, h', h2, h1]
      · have h2 : ¬ d ≤ a := by omega
        simp [h, h', h2]

/-- Everything a write does to the stored bytes. -/
theorem stored_write (m : Memory) (bs : List Byte) (d a : Nat) :
    (m.write d bs).stored a = if d ≤ a ∧ a < d + bs.length then bs[a - d]? else m.stored a := by
  unfold Memory.write
  rw [stored_append, stored_append, stored_filter m (fun x => decide (x < d)),
    stored_filter m (fun x => decide (d + bs.length ≤ x)), stored_cellsFrom]
  by_cases h1 : d ≤ a
  · by_cases h2 : a < d + bs.length
    · have h3 : a - d < bs.length := by omega
      have h4 : ¬ a < d := by omega
      have h5 : ¬ d + bs.length ≤ a := by omega
      simp [h1, h2, h4, h5, List.getElem?_eq_getElem h3]
    · have h4 : ¬ a < d := by omega
      have h5 : d + bs.length ≤ a := by omega
      have h6 : bs[a - d]? = none := List.getElem?_eq_none (by omega)
      simp [h1, h2, h4, h5, h6]
  · have h4 : a < d := by omega
    have h5 : ¬ d + bs.length ≤ a := by omega
    simp [h1, h4, h5]

/-! ## Bytes of MEM -/

/-- A byte inside the written block reads as written. -/
theorem byteAt_writeBytes_inside (s : State) (d i : Nat) (bs : List Byte) (h : i < bs.length) :
    (s.writeBytes d bs).byteAt (d + i) = bs[i] := by
  have h1 : d ≤ d + i ∧ d + i < d + bs.length := by omega
  have h2 : d + i - d = i := by omega
  simp [State.byteAt, stored_write, h1, h2, List.getElem?_eq_getElem h]

/-- A byte outside the written block reads as before. -/
theorem byteAt_writeBytes_outside (s : State) (d a : Nat) (bs : List Byte)
    (h : ¬ (d ≤ a ∧ a < d + bs.length)) : (s.writeBytes d bs).byteAt a = s.byteAt a := by
  simp [State.byteAt, stored_write, h]

/-- A byte outside the spoiled window reads as before. -/
theorem byteAt_spoil_outside (s : State) (d n a : Nat) (h : ¬ (d ≤ a ∧ a < d + n)) :
    (s.spoil d n).byteAt a = s.byteAt a := by
  have h' : ¬ (d ≤ a ∧ a < d + min n (s.params.memBytes - d)) := by omega
  simp [State.byteAt, stored_write, State.drawn, h']

/-- A byte is a matter of MEM and the power-on only. -/
theorem byteAt_congr {s t : State} (hm : t.mem = s.mem) (hp : t.powerOns = s.powerOns) (a : Nat) :
    t.byteAt a = s.byteAt a := by
  simp [State.byteAt, hm, hp]

@[simp] theorem memBytes_length (s : State) (a n : Nat) : (s.memBytes a n).length = n := by
  simp [State.memBytes]

@[simp] theorem memBytes_getElem (s : State) (a n i : Nat) (h : i < (s.memBytes a n).length) :
    (s.memBytes a n)[i] = s.byteAt (a + i) := by
  simp [State.memBytes]

@[simp] theorem drawn_length (s : State) (n : Nat) : (s.drawn n).length = n := by
  simp [State.drawn]

/-- Reading back a block that was just written. -/
theorem memBytes_writeBytes (s : State) (d : Nat) (bs : List Byte) :
    (s.writeBytes d bs).memBytes d bs.length = bs := by
  apply List.ext_getElem (by simp)
  intro i h1 h2
  simp [byteAt_writeBytes_inside, h2]

/-! ## The canonical form -/

theorem mem_cellsFrom {bs : List Byte} {d : Nat} {c : Host.Cell} (h : c ∈ cellsFrom d bs) :
    d ≤ c.1 ∧ c.1 < d + bs.length := by
  induction bs generalizing d with
  | nil => simp [cellsFrom] at h
  | cons b bs ih =>
    simp only [cellsFrom, List.mem_cons] at h
    rcases h with rfl | h
    · simp
    · have := ih h
      simp only [List.length_cons]
      omega

theorem wf_cellsFrom (bs : List Byte) (d : Nat) : Memory.wf (cellsFrom d bs) := by
  induction bs generalizing d with
  | nil => exact List.Pairwise.nil
  | cons b bs ih =>
    refine List.Pairwise.cons ?_ (ih (d + 1))
    intro c hc
    have := mem_cellsFrom hc
    simp only
    omega

/-- A write keeps the canonical form. -/
theorem wf_write {m : Memory} (h : m.wf) (d : Nat) (bs : List Byte) : (m.write d bs).wf := by
  refine List.pairwise_append.2 ⟨List.pairwise_append.2 ⟨h.filter _, wf_cellsFrom bs d, ?_⟩, h.filter _, ?_⟩
  · intro x hx y hy
    have hx := (List.mem_filter.1 hx).2
    have hy := mem_cellsFrom hy
    simp only [decide_eq_true_eq] at hx
    omega
  · intro x hx y hy
    have hy := (List.mem_filter.1 hy).2
    simp only [decide_eq_true_eq] at hy
    rcases List.mem_append.1 hx with hx | hx
    · have hx := (List.mem_filter.1 hx).2
      simp only [decide_eq_true_eq] at hx
      omega
    · have hx := mem_cellsFrom hx
      omega

/-- A write inside MEM lists only addresses that exist. -/
theorem inside_write {m : Memory} {n : Nat} (h : m.inside n) {d : Nat} {bs : List Byte}
    (hb : bs = [] ∨ d + bs.length ≤ n) : (m.write d bs).inside n := by
  intro c hc
  simp only [Memory.write, List.mem_append, List.mem_filter] at hc
  rcases hc with (hc | hc) | hc
  · exact h c hc.1
  · have h1 := mem_cellsFrom hc
    rcases hb with rfl | hb
    · simp at h1; omega
    · omega
  · exact h c hc.1

/-- Spoiling a window keeps the canonical form and stays inside MEM: the window is clipped to MEM. -/
theorem spoil_keeps_memory (s : State) (d n : Nat) (h : s.mem.wf ∧ s.mem.inside s.params.memBytes) :
    (s.spoil d n).mem.wf ∧ (s.spoil d n).mem.inside (s.spoil d n).params.memBytes := by
  refine ⟨wf_write h.1 _ _, inside_write h.2 ?_⟩
  by_cases h0 : min n (s.params.memBytes - d) = 0
  · exact .inl (List.eq_nil_of_length_eq_zero (by simp only [drawn_length]; exact h0))
  · exact .inr (by simp only [drawn_length]; omega)

/-- The memory right after the power-on reset is in canonical form: nothing is listed. -/
theorem reset_memory_wf : State.reset.mem.wf ∧ State.reset.mem.inside State.reset.params.memBytes := by
  simp [State.reset]

end Sys2Proof.Machine
end

