-- ==== Sys2Proof/Laws/Commands.lean ====
section
/-! SUPPORT. What each shared operation of a command can do: the first failing check, the error commit, the completion,
and what the writes of each command leave in the registers. -/

namespace Sys2Proof.Machine

/-! ## The first failing check -/

@[simp] theorem firstError_nil : firstError [] = none := rfl

@[simp] theorem firstError_cons (v : Bool) (e : ErrCode) (cs : List Check) :
    firstError ((v, e) :: cs) = if v then some e else firstError cs := by
  cases v <;> rfl

/-- No error is reported exactly when no check is violated. -/
theorem firstError_eq_none {cs : List Check} : firstError cs = none ↔ ∀ c ∈ cs, c.1 = false := by
  induction cs with
  | nil => simp
  | cons c cs ih =>
    obtain ⟨v, e⟩ := c
    cases v <;> simp [ih]

/-- The reported error is that of a violated check before which none is violated. -/
theorem firstError_eq_some {cs : List Check} {e : ErrCode} (h : firstError cs = some e) :
    ∃ before after, cs = before ++ (true, e) :: after ∧ ∀ c ∈ before, c.1 = false := by
  induction cs with
  | nil => simp at h
  | cons c cs ih =>
    obtain ⟨v, e'⟩ := c
    cases v with
    | true => exact ⟨[], cs, by simpa using h, by simp⟩
    | false =>
      obtain ⟨before, after, hcs, hb⟩ := ih (by simpa using h)
      exact ⟨(false, e') :: before, after, by simp [hcs], by simpa using hb⟩

theorem firstError_append (cs ds : List Check) : firstError (cs ++ ds) = (firstError cs).or (firstError ds) := by
  induction cs with
  | nil => simp
  | cons c cs ih =>
    obtain ⟨v, e⟩ := c
    cases v <;> simp [ih]

/-- Everything `checked` can answer. -/
theorem checked_cases (cs : List Check) (t : State) :
    (firstError cs = none ∧ checked cs t = .ok t) ∨ ∃ e, firstError cs = some e ∧ checked cs t = .error e := by
  unfold checked
  cases h : firstError cs with
  | none => exact .inl ⟨rfl, rfl⟩
  | some e => exact .inr ⟨e, rfl, rfl⟩

/-! ## The error commit -/

/-- An error changes no register but STATUS (R264, point 2). -/
theorem fail_readReg (s : State) (e : ErrCode) (r : Reg) (h : r ≠ .status) :
    (s.fail e).readReg r = s.readReg r := by
  cases r <;> simp_all [State.readReg]

/-- After the errors R264 names, MEM is as it was. -/
theorem fail_mem_clean (s : State) (e : ErrCode) (h : e.spoilsDst = false) : (s.fail e).mem = s.mem := by
  simp [State.fail, h]

/-- After any error, a byte outside the destination window reads as before. -/
theorem fail_byteAt_outside (s : State) (e : ErrCode) (a : Nat)
    (h : ¬ (s.dstAddr.toNat ≤ a ∧ a < s.dstAddr.toNat + s.dstCap.toNat)) :
    (s.fail e).byteAt a = s.byteAt a := by
  unfold State.fail
  split
  · exact byteAt_spoil_outside s _ _ a h
  · rfl

/-- The bytes of a spoiled window are the next free bytes. -/
theorem byteAt_spoil_inside (s : State) (d n k : Nat) (hk : k < n) (hm : d + k < s.params.memBytes) :
    (s.spoil d n).byteAt (d + k) = Config.freeByte (s.draws + k) := by
  have h : k < min n (s.params.memBytes - d) := by omega
  have h' : k < (s.drawn (min n (s.params.memBytes - d))).length := by simpa using h
  have := byteAt_writeBytes_inside s d k _ h'
  simpa [State.byteAt, State.drawn] using this

/-- After any other error, the bytes of the destination window in MEM are free values. -/
theorem fail_byteAt_spoiled (s : State) (e : ErrCode) (he : e.spoilsDst = true) (k : Nat) (hk : k < s.dstCap.toNat)
    (hm : s.dstAddr.toNat + k < s.params.memBytes) :
    (s.fail e).byteAt (s.dstAddr.toNat + k) = Config.freeByte (s.draws + k) := by
  rw [← byteAt_spoil_inside s _ _ k hk hm]
  simp [State.fail, he, State.byteAt]

/-- The error codes after which MEM is unchanged are those of the errors that do not spoil the window. -/
theorem code_mem_cleanCodes (e : ErrCode) : e.code ∈ cleanCodes ↔ e.spoilsDst = false := by
  cases e <;> decide

/-! ## Completion -/

@[simp] theorem complete_ok (s t : State) : s.complete (.ok t) = t.finish := rfl

@[simp] theorem complete_error (s : State) (e : ErrCode) : s.complete (.error e) = s.fail e := rfl

/-- What the writes of a successful command leave alone: STATUS, every register the command's rule does not name, every
byte outside its destination window, and everything that is not architectural. -/
structure Writes (i : Instr) (s t : State) : Prop where
  status : t.status = s.status
  regs : ∀ r, r ∉ writtenRegs i → t.readReg r = s.readReg r
  none : s.writeWindow i = none → t.mem = s.mem
  outside : ∀ w, s.writeWindow i = some w → SameMemOutside w s t
  surroundings : SameSurroundings s t
  draws : t.draws = s.draws
  legal : s.MemoryLegal → t.MemoryLegal

end Sys2Proof.Machine
end

