-- ==== Sys2Proof/Laws/Outputs.lean ====
section
/-! SUPPORT. The outputs of the semantic functions: their lengths, and their bytes one by one. -/

namespace Sys2Proof.Machine

/-! ## Readers and writers -/

@[simp] theorem le16_length (v : Nat) : (le16 v).length = 2 := rfl

@[simp] theorem le32_length (v : Nat) : (le32 v).length = 4 := rfl

@[simp] theorem tagBytes_length (v : Word) : (tagBytes v).length = 4 := rfl

theorem sliceOf_length {b : List Byte} {o n : Nat} (h : o + n ≤ b.length) : (sliceOf b o n).length = n := by
  simp only [sliceOf, List.length_take, List.length_drop]
  omega

theorem byteOf_eq_getElem {b : List Byte} {i : Nat} (h : i < b.length) : byteOf b i = b[i] := by
  simp [byteOf, List.getD_eq_getElem?_getD, List.getElem?_eq_getElem h]

/-- A byte of a window's byte sequence. -/
theorem byteOf_memBytes (s : State) (a n i : Nat) (h : i < n) : byteOf (s.memBytes a n) i = s.byteAt (a + i) := by
  rw [byteOf_eq_getElem (by simpa using h)]
  simp

@[simp] theorem srcBytes_length (s : State) : s.srcBytes.length = s.srcLen.toNat := by
  simp [State.srcBytes]

/-! ## The tile transform -/

@[simp] theorem pixelsToTiles_length (p : List Byte) (w : Nat) : (pixelsToTiles p w).length = p.length := by
  simp [pixelsToTiles]

@[simp] theorem tilesToPixels_length (p : List Byte) (w : Nat) : (tilesToPixels p w).length = p.length := by
  simp [tilesToPixels]

@[simp] theorem hflip_length (t : List Byte) : (hflip t).length = 64 := by simp [hflip]

@[simp] theorem vflip_length (t : List Byte) : (vflip t).length = 64 := by simp [vflip]

/-! ## The cipher -/

theorem halves_length (b : List Byte) : (halves b).length = b.length / 2 := by
  induction b using halves.induct with
  | case1 lo hi rest ih => simp only [halves, List.length_cons, ih]; omega
  | case2 b h =>
    match b, h with
    | [], _ => rfl
    | [_], _ => simp [halves]
    | _ :: _ :: _, h => exact absurd rfl (h _ _ _)

theorem cipherWalk_length (ws : List Half) (k : Word) : (cipherWalk ws k).length = 2 * ws.length := by
  induction ws generalizing k with
  | nil => rfl
  | cons w ws ih => simp only [cipherWalk, List.length_cons, ih]; omega

theorem cipher_length (d : List Byte) (k : Word) (h : d.length % 2 = 0) : (cipher d k).length = d.length := by
  simp only [cipher, List.length_reverse, cipherWalk_length, halves_length]
  omega

theorem decipherWalk_length (ws : List Half) (k : Word) : (decipherWalk ws k).1.length = 2 * ws.length := by
  induction ws generalizing k with
  | nil => rfl
  | cons w ws ih => simp only [decipherWalk, List.length_cons, ih]; omega

theorem decipher_length (c : List Byte) (h : c.length % 2 = 0) : (decipher c).1.length = c.length := by
  simp only [decipher, decipherWalk_length, halves_length]
  omega

/-! ## The container -/

/-- What the block loop of `ntr_parse` answers: blocks framed by R122, as many as asked for. -/
theorem parseBlocks_framed {b : List Byte} {n o : Nat} {blocks : List Block}
    (h : parseBlocks b n o = .ok blocks) : FramedFrom b o blocks ∧ blocks.length = n := by
  induction n generalizing o blocks with
  | zero =>
    simp only [parseBlocks, Except.ok.injEq] at h
    subst h
    exact ⟨trivial, rfl⟩
  | succ n ih =>
    simp only [parseBlocks] at h
    split at h
    · cases h
    split at h
    · cases h
    split at h
    · cases h
    split at h
    · rename_i rest hrest
      cases h
      obtain ⟨hf, hl⟩ := ih hrest
      exact ⟨⟨by omega, by omega, by omega, rfl, hf⟩, by simp [hl]⟩
    · cases h

/-- The block loop never reports ILLEGAL_OPCODE. -/
theorem parseBlocks_error {b : List Byte} {n o : Nat} {e : ErrCode} (h : parseBlocks b n o = .error e) :
    e ≠ .illegalOpcode := by
  induction n generalizing o with
  | zero => cases h
  | succ n ih =>
    simp only [parseBlocks] at h
    split at h
    · cases h; simp
    split at h
    · cases h; simp
    split at h
    · cases h; simp
    split at h
    · cases h
    · rename_i e' he'
      cases h
      exact ih he'

/-- Blocks framed by R122 are what the block loop answers. -/
theorem parseBlocks_of_framed {b : List Byte} {o : Nat} {blocks : List Block} (h : FramedFrom b o blocks) :
    parseBlocks b blocks.length o = .ok blocks := by
  induction blocks generalizing o with
  | nil => rfl
  | cons k rest ih =>
    obtain ⟨h1, h2, h3, h4, h5⟩ := h
    subst h4
    have e1 : ¬ o + 8 > b.length := by omega
    have e2 : ¬ u32le b (o + 4) < 8 := by omega
    have e3 : ¬ o + u32le b (o + 4) > b.length := by omega
    simp only [List.length_cons, parseBlocks, e1, e2, e3, if_false, ih h5]

/-- Every tag of a framed block list has 4 bytes. -/
theorem framed_tag_length {b : List Byte} {o : Nat} {blocks : List Block} (h : FramedFrom b o blocks) :
    ∀ k ∈ blocks, k.tag.length = 4 := by
  induction blocks generalizing o with
  | nil => simp
  | cons k rest ih =>
    obtain ⟨h1, _, _, h4, h5⟩ := h
    intro k' hk'
    rcases List.mem_cons.1 hk' with rfl | hk'
    · rw [h4]
      exact sliceOf_length (by omega)
    · exact ih h5 k' hk'

/-- The descriptors of a block list take 12 bytes each. -/
theorem blockDescriptors_length (base : Nat) (blocks : List Block) (h : ∀ k ∈ blocks, k.tag.length = 4) :
    (blocks.flatMap (blockDescriptor base)).length = 12 * blocks.length := by
  induction blocks with
  | nil => rfl
  | cons k rest ih =>
    have hk := h k (by simp)
    have hr := ih (fun k' hk' => h k' (by simp [hk']))
    simp only [List.flatMap_cons, List.length_append, blockDescriptor, le32_length, List.length_cons, hk, hr]
    omega

theorem blocksBytes_length (blocks : List (List Byte × List Byte)) (h : ∀ k ∈ blocks, k.1.length = 4) :
    (blocks.flatMap (fun k => blockBytes k.1 k.2)).length = (blocks.map (fun k => k.2.length + 8)).sum := by
  induction blocks with
  | nil => rfl
  | cons k rest ih =>
    have hk := h k (by simp)
    have hr := ih (fun k' hk' => h k' (by simp [hk']))
    rw [List.flatMap_cons, List.length_append, hr, List.map_cons, List.sum_cons]
    simp only [blockBytes, List.length_append, le32_length, hk]
    omega

/-- A container is its 16-byte header and its blocks. -/
theorem ntrBuild_length (p : Params) (tag : List Byte) (ver : Nat) (blocks : List (List Byte × List Byte))
    (ht : tag.length = 4) (h : ∀ k ∈ blocks, k.1.length = 4) :
    (ntrBuild p tag ver blocks).length = 16 + (blocks.map (fun k => k.2.length + 8)).sum := by
  simp only [ntrBuild, List.length_append, le16_length, le32_length, ht, blocksBytes_length blocks h]

/-- The container NTR_BUILD writes has the length it reports (R131). -/
theorem built_length (s : State) :
    (ntrBuild s.params (tagBytes s.ntrTag) s.ntrVer.toNat s.buildBlocks).length = s.buildTotal := by
  rw [ntrBuild_length _ _ _ _ (tagBytes_length _)]
  · simp [State.buildBlocks, State.buildTotal, List.map_map, Function.comp_def]
  · intro k hk
    simp only [State.buildBlocks, State.descriptors, List.mem_map] at hk
    obtain ⟨d, ⟨j, _, rfl⟩, rfl⟩ := hk
    simp [State.descriptor]

end Sys2Proof.Machine
end

