-- ==== Sys2Proof/Laws/Words.lean ====
section
/-! SUPPORT. The register words bit by bit, and how concatenated fields read as numbers. -/

namespace Sys2Proof.Machine

/-! ## Concatenation -/

/-- Concatenation as a number. -/
theorem toNat_append_add {n m : Nat} (x : BitVec n) (y : BitVec m) :
    (x ++ y).toNat = 2 ^ m * x.toNat + y.toNat := by
  rw [BitVec.toNat_append, Nat.mul_comm, ← Nat.shiftLeft_eq, Nat.shiftLeft_add_eq_or_of_lt y.isLt]

/-- One bit of a word as a number. -/
theorem toNat_getLsbD {n : Nat} (x : BitVec n) (j : Nat) : (x.getLsbD j).toNat = x.toNat / 2 ^ j % 2 := by
  rw [BitVec.getLsbD, Nat.testBit_eq_decide_div_mod_eq]
  have : x.toNat / 2 ^ j % 2 < 2 := Nat.mod_lt _ (by decide)
  by_cases h : x.toNat / 2 ^ j % 2 = 1
  · simp [h]
  · have : x.toNat / 2 ^ j % 2 = 0 := by omega
    simp [this]

/-- A field of a word as a number. -/
theorem toNat_field {n : Nat} (x : BitVec n) (a k : Nat) : (x.extractLsb' a k).toNat = x.toNat / 2 ^ a % 2 ^ k := by
  rw [BitVec.extractLsb'_toNat, Nat.shiftRight_eq_div_pow]

/-- The OPCODE field of a word is the byte its low end was built from. -/
theorem opcodeField_append (x : BitVec 24) (op : Byte) : opcodeField (x ++ op) = op := by
  unfold opcodeField
  ext j hj
  rw [BitVec.getElem_extractLsb', BitVec.getLsbD_append]
  simp [hj]

/-- A CMD word is its ignored bits and its OPCODE. -/
theorem append_opcodeField (w : Word) : w.extractLsb' 8 24 ++ opcodeField w = w := by
  unfold opcodeField
  apply BitVec.eq_of_toNat_eq
  rw [toNat_append_add, BitVec.extractLsb'_toNat, BitVec.extractLsb'_toNat]
  have := w.isLt
  simp only [Nat.shiftRight_eq_div_pow]
  omega

/-- An OPCODE selects a command exactly when it is the command's. -/
theorem decodeOpcode_ok {op : Byte} {i : Instr} : decodeOpcode op = .ok i ↔ op = i.opcode := by
  constructor
  · intro h
    unfold decodeOpcode at h
    split at h
    · rename_i row hr
      have h1 := List.find?_some hr
      have h2 := List.mem_of_find?_eq_some hr
      cases h
      have hrows : ∀ r ∈ opcodeMap, r.1 = r.2.opcode := by decide
      exact (beq_iff_eq.1 h1).symm.trans (hrows row h2)
    · cases h
  · rintro rfl
    cases i <;> rfl

/-- The two halves of a register word. -/
theorem append_halves (v : Word) : v.extractLsb' 16 16 ++ v.extractLsb' 0 16 = v := by
  apply BitVec.eq_of_toNat_eq
  rw [toNat_append_add, BitVec.extractLsb'_toNat, BitVec.extractLsb'_toNat]
  have := v.isLt
  simp only [Nat.shiftRight_eq_div_pow]
  omega

/-! ## STATUS and REC_ATTR -/

/-- The bits of STATUS (R25). -/
theorem status_bits (f : Status) (j : Nat) (hj : j < 32) :
    f.toWord.getLsbD j =
      if j = 0 then f.busy else if j = 1 then f.done else if j = 2 then f.err else if j = 3 then f.ovr
      else if j < 8 then false else if j < 12 then f.errClass.getLsbD (j - 8)
      else if j < 16 then false else if j < 24 then f.errCode.getLsbD (j - 16) else false := by
  unfold Status.toWord
  simp only [BitVec.getLsbD_append, BitVec.getLsbD_ofBool, BitVec.getLsbD_zero]
  interval_cases j <;> simp

/-- The bits of REC_ATTR (R37). -/
theorem recAttr_bits (f : RecAttr) (j : Nat) (hj : j < 32) :
    f.toWord.getLsbD j =
      if j = 0 then f.affine else if j = 1 then f.disable else if j = 2 then f.mosaic
      else if j = 3 then f.hflip else if j = 4 then f.vflip else if j = 5 then f.color8
      else if j < 8 then f.objMode.getLsbD (j - 6) else if j < 10 then f.shape.getLsbD (j - 8)
      else if j < 12 then f.size.getLsbD (j - 10) else if j < 22 then f.tile.getLsbD (j - 12)
      else if j < 24 then f.priority.getLsbD (j - 22) else if j < 28 then f.palette.getLsbD (j - 24)
      else false := by
  unfold RecAttr.toWord
  simp only [BitVec.getLsbD_append, BitVec.getLsbD_ofBool, BitVec.getLsbD_zero]
  interval_cases j <;> simp

/-! ## Stored words -/

/-- A word with a mask of its low `n` bits set, bit by bit. -/
theorem mask_bit {m : Word} {n : Nat} (h : ∀ j, j < 32 → m.getLsbD j = decide (j < n)) (v : Word) (j : Nat)
    (hj : j < 32) : (v &&& m).getLsbD j = (v.getLsbD j && decide (j < n)) := by
  rw [BitVec.getLsbD_and, h j hj]

/-- What a write of REC_ATTR stores reads back with bits [31:28] 0 (R37). -/
theorem recAttrOfWord_toWord (v : Word) : (recAttrOfWord v).toWord = v &&& 0x0FFFFFFF#32 := by
  apply BitVec.eq_of_getLsbD_eq
  intro j hj
  rw [mask_bit (n := 28) (by decide) v j hj, recAttr_bits _ _ hj]
  unfold recAttrOfWord
  interval_cases j <;> simp

/-- What a write of a 16-bit field stores reads back with bits [31:16] 0. -/
theorem half_toWord (v : Word) : (v.extractLsb' 0 16).setWidth 32 = v &&& 0x0000FFFF#32 := by
  apply BitVec.eq_of_getLsbD_eq
  intro j hj
  rw [mask_bit (n := 16) (by decide) v j hj]
  simp [hj, Bool.and_comm]

/-- What a write of IRQEN stores reads back with bits [31:1] 0 (R26). -/
theorem bit0_toWord (v : Word) : (BitVec.ofBool (v.getLsbD 0)).setWidth 32 = v &&& 1#32 := by
  apply BitVec.eq_of_getLsbD_eq
  intro j hj
  rw [mask_bit (n := 1) (by decide) v j hj]
  by_cases h : j = 0
  · subst h; simp
  · simp [BitVec.getLsbD_ofBool, h]

/-- A write of STATUS clears exactly the W1C bits written 1 (R25). -/
theorem status_clear_toWord (f : Status) (v : Word) :
    (f.clear v).toWord = f.toWord &&& ~~~(v &&& 0x0000000E#32) := by
  have hm : ∀ j : Nat, j < 32 → (0x0000000E#32).getLsbD j = decide (j = 1 ∨ j = 2 ∨ j = 3) := by decide
  apply BitVec.eq_of_getLsbD_eq
  intro j hj
  rw [BitVec.getLsbD_and, BitVec.getLsbD_not, BitVec.getLsbD_and, hm j hj, status_bits _ _ hj, status_bits _ _ hj]
  unfold Status.clear
  interval_cases j <;> simp

end Sys2Proof.Machine
end

