-- ==== Sys2Proof/Laws/Cipher.lean ====
section
/-! SUPPORT. The words of the stream cipher one by one, and the key after its walks. -/

namespace Sys2Proof.Machine

/-- Word `i` of a byte sequence is little-endian (R231). -/
theorem halves_getElem (b : List Byte) (i : Nat) (h : i < (halves b).length) :
    (halves b)[i] = byteOf b (2 * i + 1) ++ byteOf b (2 * i) := by
  induction b using halves.induct generalizing i with
  | case1 lo hi rest ih =>
    cases i with
    | zero => rfl
    | succ i =>
      have := ih i (by simpa [halves] using h)
      simp only [halves, List.getElem_cons_succ, this, Nat.mul_add]
      rfl
  | case2 b hb =>
    have hnil : halves b = [] := by
      match b, hb with
      | [], _ => rfl
      | [_], _ => rfl
      | _ :: _ :: _, hb => exact absurd rfl (hb _ _ _)
    rw [hnil] at h
    simp at h

/-- The two bytes of a word. -/
theorem append_bytes (x : Half) : x.extractLsb' 8 8 ++ x.extractLsb' 0 8 = x := by
  apply BitVec.eq_of_toNat_eq
  rw [toNat_append_add, BitVec.extractLsb'_toNat, BitVec.extractLsb'_toNat]
  have := x.isLt
  simp only [Nat.shiftRight_eq_div_pow]
  omega

/-- The two bytes the cipher's walk gives for word `i` of its list (R231). -/
theorem cipherWalk_getElem? (ws : List Half) (k : Word) (i : Nat) (h : i < ws.length) :
    (cipherWalk ws k)[2 * i]? = some ((ws[i] ^^^ keyMask (Nat.iterate lcgPrev (i + 1) k)).extractLsb' 8 8)
      ∧ (cipherWalk ws k)[2 * i + 1]?
        = some ((ws[i] ^^^ keyMask (Nat.iterate lcgPrev (i + 1) k)).extractLsb' 0 8) := by
  induction ws generalizing k i with
  | nil => simp at h
  | cons w ws ih =>
    cases i with
    | zero => constructor <;> simp [cipherWalk]
    | succ i =>
      have := ih (lcgPrev k) i (by simpa using h)
      simp only [Nat.mul_add, Nat.mul_one, cipherWalk, List.getElem?_cons_succ, List.getElem_cons_succ]
      exact this

/-- The two bytes the decipher's walk gives for word `i` (R235). -/
theorem decipherWalk_getElem? (ws : List Half) (k : Word) (i : Nat) (h : i < ws.length) :
    (decipherWalk ws k).1[2 * i]? = some ((ws[i] ^^^ keyMask (Nat.iterate lcgNext i k)).extractLsb' 0 8)
      ∧ (decipherWalk ws k).1[2 * i + 1]?
        = some ((ws[i] ^^^ keyMask (Nat.iterate lcgNext i k)).extractLsb' 8 8) := by
  induction ws generalizing k i with
  | nil => simp at h
  | cons w ws ih =>
    cases i with
    | zero => constructor <;> simp [decipherWalk]
    | succ i =>
      have := ih (lcgNext k) i (by simpa using h)
      simp only [Nat.mul_add, Nat.mul_one, decipherWalk, List.getElem?_cons_succ, List.getElem_cons_succ]
      exact this

/-- The key after the decipher's walk (R235). -/
theorem decipherWalk_key (ws : List Half) (k : Word) : (decipherWalk ws k).2 = Nat.iterate lcgNext ws.length k := by
  induction ws generalizing k with
  | nil => rfl
  | cons w ws ih => simp only [decipherWalk, ih, List.length_cons, Function.iterate_succ_apply]

/-- The seed is the first word, zero extended (R235). -/
theorem seedOf_eq (c : List Byte) (h : 2 ≤ c.length) : seedOf c = (byteOf c 1 ++ byteOf c 0).setWidth 32 := by
  match c, h with
  | _ :: _ :: _, _ => rfl

/-- Two sequences of whole words are equal if their words are. -/
theorem eq_of_words {a b : List Byte} (hl : a.length = b.length) (he : a.length % 2 = 0)
    (h : ∀ i, i < a.length / 2 →
      byteOf a (2 * i + 1) ++ byteOf a (2 * i) = byteOf b (2 * i + 1) ++ byteOf b (2 * i)) : a = b := by
  have split : ∀ w x y z : Byte, w ++ x = y ++ z → w = y ∧ x = z := by
    intro w x y z hw
    have hn := congrArg BitVec.toNat hw
    rw [toNat_append_add, toNat_append_add] at hn
    have := x.isLt
    have := z.isLt
    exact ⟨BitVec.eq_of_toNat_eq (by omega), BitVec.eq_of_toNat_eq (by omega)⟩
  apply List.ext_getElem hl
  intro j hj hj'
  have hw := split _ _ _ _ (h (j / 2) (by omega))
  rw [← byteOf_eq_getElem hj, ← byteOf_eq_getElem hj']
  rcases Nat.mod_two_eq_zero_or_one j with hm | hm
  · have e : 2 * (j / 2) = j := by omega
    rw [e] at hw
    exact hw.2
  · have e : 2 * (j / 2) + 1 = j := by omega
    rw [e] at hw
    exact hw.1

end Sys2Proof.Machine
end

