-- ==== Sys2Proof/Laws/Exec.lean ====
section
/-! SUPPORT. Everything exec can answer: a completion whose writes stay where the command's rule puts them, or the error
commit of one of the command's checks. -/

namespace Sys2Proof.Machine

/-! ## Window checks -/

theorem inMem_iff (w : Window) (p : Params) : w.inMem p = true ↔ w.start + w.len ≤ p.memBytes := by
  simp [Window.inMem]

theorem overlaps_iff (w v : Window) : w.overlaps v = true ↔ Overlap w.start w.len v.start v.len := by
  simp [Window.overlaps, Overlap, and_assoc]

theorem has_iff (w : Window) (a : Nat) : w.has a = true ↔ w.start ≤ a ∧ a < w.start + w.len := by
  simp [Window.has]

/-- The window checks pass exactly when the windows are in MEM and do not overlap (R262). -/
theorem windowChecks_none (s : State) (w : Window) :
    firstError (s.windowChecks w) = none ↔ WindowsOk s w.start w.len := by
  have h1 := inMem_iff w s.params
  have h2 := inMem_iff s.dstWindow s.params
  have h3 := overlaps_iff w s.dstWindow
  show _ ↔ w.start + w.len ≤ s.params.memBytes ∧ s.dstWindow.start + s.dstWindow.len ≤ s.params.memBytes
    ∧ ¬ Overlap w.start w.len s.dstWindow.start s.dstWindow.len
  rw [← h1, ← h2, ← h3, State.windowChecks]
  cases w.inMem s.params <;> cases s.dstWindow.inMem s.params <;> cases w.overlaps s.dstWindow <;> simp

/-- Whatever error follows the window checks, they passed if it is not one of theirs. -/
theorem windowChecks_then {s : State} {w : Window} {cs : List Check} {e : ErrCode}
    (h : firstError (s.windowChecks w ++ cs) = some e) :
    e.spoilsDst = false ∨ WindowsOk s w.start w.len := by
  rw [firstError_append] at h
  cases hw : firstError (s.windowChecks w) with
  | none => exact .inr ((windowChecks_none s w).1 hw)
  | some e' =>
    left
    obtain ⟨before, after, hcs, -⟩ := firstError_eq_some hw
    have hmem : (true, e') ∈ s.windowChecks w := by rw [hcs]; simp
    simp only [hw, Option.some_or, Option.some.injEq] at h
    subst h
    simp only [State.windowChecks, List.mem_cons, Prod.mk.injEq, List.not_mem_nil, or_false] at hmem
    rcases hmem with ⟨_, rfl⟩ | ⟨_, rfl⟩ | ⟨_, rfl⟩ <;> rfl

/-! ## The writes of each command -/

theorem writeBytes_outside_window (s t : State) (w : Window) (bs : List Byte)
    (hm : t.mem = s.mem.write w.start bs) (hp : t.powerOns = s.powerOns) (hl : bs.length ≤ w.len) :
    SameMemOutside w s t := by
  intro a ha
  rw [byteAt_congr (s := s.writeBytes w.start bs) hm hp]
  exact byteAt_writeBytes_outside s _ a bs (by omega)

/-- Writing bytes into a window that is in MEM keeps MEM legal. -/
theorem writeBytes_legal (s t : State) (w : Window) (bs : List Byte) (hm : t.mem = s.mem.write w.start bs)
    (hp : t.params = s.params) (hl : bs.length ≤ w.len) (hin : w.start + w.len ≤ s.params.memBytes)
    (h : s.MemoryLegal) : t.MemoryLegal := by
  unfold State.MemoryLegal
  rw [hm, hp]
  exact ⟨wf_write h.1 _ _, inside_write h.2 (.inr (by omega))⟩

theorem writes_sameLength (i : Instr) (s : State) (out : List Byte) (hi : writtenRegs i = [.resultLen])
    (hd : s.writeWindow i = some s.dstWindow) (hl : out.length ≤ s.dstCap.toNat)
    (hin : s.dstAddr.toNat + s.dstCap.toNat ≤ s.params.memBytes) : Writes i s (s.writeSameLength out) where
  status := rfl
  regs := by
    intro r hr
    rw [hi] at hr
    cases r <;> simp at hr <;> rfl
  none := by simp [hd]
  outside := by
    intro w hw
    rw [hd] at hw
    cases hw
    exact writeBytes_outside_window s _ s.dstWindow out rfl rfl hl
  surroundings := ⟨rfl, rfl, rfl, rfl, rfl, rfl⟩
  draws := rfl
  legal := writeBytes_legal s _ s.dstWindow out rfl rfl hl hin

theorem writes_flipped (i : Instr) (s : State) (flip : List Byte → List Byte) (hi : writtenRegs i = [.resultLen])
    (hd : s.writeWindow i = some s.tileWindow) (hf : ∀ t, (flip t).length = 64)
    (hin : s.dstAddr.toNat + 64 ≤ s.params.memBytes) : Writes i s (s.writeFlipped flip) where
  status := rfl
  regs := by
    intro r hr
    rw [hi] at hr
    cases r <;> simp at hr <;> rfl
  none := by simp [hd]
  outside := by
    intro w hw
    rw [hd] at hw
    cases hw
    exact writeBytes_outside_window s _ s.tileWindow _ rfl rfl (Nat.le_of_eq (hf _))
  surroundings := ⟨rfl, rfl, rfl, rfl, rfl, rfl⟩
  draws := rfl
  legal := writeBytes_legal s _ s.tileWindow _ rfl rfl (Nat.le_of_eq (hf _)) hin

theorem writes_deciphered (s : State) (hl : (decipher s.srcBytes).1.length ≤ s.dstCap.toNat)
    (hin : s.dstAddr.toNat + s.dstCap.toNat ≤ s.params.memBytes) : Writes .decipher s s.writeDeciphered where
  status := rfl
  regs := by intro r hr; cases r <;> simp [writtenRegs] at hr <;> rfl
  none := by simp [State.writeWindow]
  outside := by
    intro w hw
    cases hw
    exact writeBytes_outside_window s _ s.dstWindow _ rfl rfl hl
  surroundings := ⟨rfl, rfl, rfl, rfl, rfl, rfl⟩
  draws := rfl
  legal := writeBytes_legal s _ s.dstWindow _ rfl rfl hl hin

theorem writes_built (s : State) (hl : s.buildTotal ≤ s.dstCap.toNat)
    (hin : s.dstAddr.toNat + s.dstCap.toNat ≤ s.params.memBytes) : Writes .ntrBuild s s.writeBuilt where
  status := rfl
  regs := by intro r hr; cases r <;> simp [writtenRegs] at hr <;> rfl
  none := by simp [State.writeWindow]
  outside := by
    intro w hw
    cases hw
    exact writeBytes_outside_window s _ s.dstWindow _ rfl rfl (by rw [built_length]; exact hl)
  surroundings := ⟨rfl, rfl, rfl, rfl, rfl, rfl⟩
  draws := rfl
  legal := writeBytes_legal s _ s.dstWindow _ rfl rfl (by rw [built_length]; exact hl) hin

theorem writes_parsed (s : State) (r : Parsed)
    (hl : (r.blocks.flatMap (blockDescriptor s.srcAddr.toNat)).length ≤ s.dstCap.toNat)
    (hin : s.dstAddr.toNat + s.dstCap.toNat ≤ s.params.memBytes) : Writes .ntrParse s (s.writeParsed r) where
  status := rfl
  regs := by intro r' hr; cases r' <;> simp [writtenRegs] at hr <;> rfl
  none := by simp [State.writeWindow]
  outside := by
    intro w hw
    cases hw
    exact writeBytes_outside_window s _ s.dstWindow _ rfl rfl hl
  surroundings := ⟨rfl, rfl, rfl, rfl, rfl, rfl⟩
  draws := rfl
  legal := writeBytes_legal s _ s.dstWindow _ rfl rfl hl hin

theorem writes_record (s : State) (r : OamRec) : Writes .oamDec s (s.writeRecord r) where
  status := rfl
  regs := by intro q hq; cases q <;> simp [writtenRegs] at hq <;> rfl
  none := fun _ => rfl
  outside := by simp [State.writeWindow]
  surroundings := ⟨rfl, rfl, rfl, rfl, rfl, rfl⟩
  draws := rfl
  legal := id

theorem writes_triple (s : State) (w : Half × Half × Half) : Writes .oamEnc s (s.writeTriple w) where
  status := rfl
  regs := by intro r hr; cases r <;> simp [writtenRegs] at hr <;> rfl
  none := fun _ => rfl
  outside := by simp [State.writeWindow]
  surroundings := ⟨rfl, rfl, rfl, rfl, rfl, rfl⟩
  draws := rfl
  legal := id

/-! ## Everything exec can answer -/

/-- The window a command reads its input or its table from, if it may fail after its window checks. -/
def State.inputWindow (s : State) : Instr → Window
  | .ntrBuild => s.tableWindow
  | .tileHflip | .tileVflip => s.tileWindow
  | .ntrParse | .pix2tile | .tile2pix | .oamDec | .oamEnc | .cipher | .decipher => s.srcWindow

/-- exec either completes, with the writes of the command's rule, or commits an error; an error that spoils the destination
window comes after the window checks. -/
def ExecAnswers (i : Instr) (s : State) : Prop :=
  (∃ t, exec i s = .next t.finish ∧ Writes i s t)
    ∨ ∃ e, exec i s = .next (s.fail e) ∧ e ≠ .illegalOpcode
        ∧ (e.spoilsDst = false
            ∨ (s.writeWindow i = some s.dstWindow ∧ WindowsOk s (s.inputWindow i).start (s.inputWindow i).len))

theorem answers_checked (i : Instr) (s t : State) (cs : List Check)
    (he : exec i s = .next (s.complete (checked cs t)))
    (hok : firstError cs = none → Writes i s t)
    (herr : ∀ e, firstError cs = some e → e ≠ .illegalOpcode
      ∧ (e.spoilsDst = false
          ∨ (s.writeWindow i = some s.dstWindow ∧ WindowsOk s (s.inputWindow i).start (s.inputWindow i).len))) :
    ExecAnswers i s := by
  rcases checked_cases cs t with ⟨hn, hc⟩ | ⟨e, hs, hc⟩
  · left
    refine ⟨t, ?_, hok hn⟩
    rw [he, hc, complete_ok]
  · right
    exact ⟨e, by rw [he, hc, complete_error], herr e hs⟩

/-- The errors of a list of checks none of which is ILLEGAL_OPCODE. -/
theorem firstError_ne_illegal {cs : List Check} (h : ∀ c ∈ cs, c.2 ≠ .illegalOpcode) {e : ErrCode}
    (he : firstError cs = some e) : e ≠ .illegalOpcode := by
  obtain ⟨before, after, rfl, -⟩ := firstError_eq_some he
  exact h (true, e) (by simp)

theorem ntrParse_answers (s : State) : ExecAnswers .ntrParse s := by
  unfold ExecAnswers
  have he : exec .ntrParse s = .next (s.complete (ntrParseResult s)) := rfl
  rw [he]
  unfold ntrParseResult
  cases hw : firstError (s.windowChecks s.srcWindow) with
  | some e =>
    right
    refine ⟨e, rfl, firstError_ne_illegal ?_ hw, ?_⟩
    · simp [State.windowChecks]
    · have := windowChecks_then (cs := []) (by simpa using hw)
      exact this.imp id (fun h => ⟨rfl, h⟩)
  | none =>
    have hwin := (windowChecks_none s s.srcWindow).1 hw
    simp only
    unfold ntrParse
    cases hh : firstError (headerChecks s.params s.srcBytes s.dstCap.toNat) with
    | some e =>
      right
      refine ⟨e, rfl, firstError_ne_illegal ?_ hh, .inr ⟨rfl, hwin⟩⟩
      simp [headerChecks]
    | none =>
      have hcap : 12 * u16le s.srcBytes 14 ≤ s.dstCap.toNat := by
        have := firstError_eq_none.1 hh (decide (12 * u16le s.srcBytes 14 > s.dstCap.toNat), .dstCap)
          (by simp [headerChecks])
        simpa using this
      simp only
      cases hb : parseBlocks s.srcBytes (u16le s.srcBytes 14) 16 with
      | error e =>
        right
        refine ⟨e, rfl, ?_, .inr ⟨rfl, hwin⟩⟩
        exact parseBlocks_error hb
      | ok blocks =>
        left
        obtain ⟨hf, hl⟩ := parseBlocks_framed hb
        refine ⟨_, rfl, writes_parsed s _ ?_ hwin.2.1⟩
        simp only
        rw [blockDescriptors_length _ _ (framed_tag_length hf), hl]
        exact hcap

theorem ntrBuild_answers (s : State) : ExecAnswers .ntrBuild s := by
  refine answers_checked .ntrBuild s s.writeBuilt s.buildChecks rfl ?_ ?_
  · intro hn
    have hn' := hn
    rw [State.buildChecks, List.append_assoc, List.append_assoc, firstError_append, Option.or_eq_none_iff] at hn'
    have hwin := (windowChecks_none s s.tableWindow).1 hn'.1
    have := firstError_eq_none.1 hn (decide (s.buildTotal > s.dstCap.toNat), .dstCap) (by simp [State.buildChecks])
    exact writes_built s (by simpa using this) hwin.2.1
  · intro e he
    refine ⟨firstError_ne_illegal ?_ he, ?_⟩
    · intro c hc
      simp only [State.buildChecks, State.windowChecks, List.mem_append, List.mem_cons, List.mem_flatMap,
        List.not_mem_nil, or_false] at hc
      rcases hc with ((hc | hc) | ⟨_, _, hc⟩) | hc
      · rcases hc with rfl | rfl | rfl <;> simp
      · subst hc; simp
      · rcases hc with rfl | rfl <;> simp
      · subst hc; simp
    · rw [State.buildChecks, List.append_assoc, List.append_assoc] at he
      exact (windowChecks_then he).imp id (fun h => ⟨rfl, h⟩)

theorem pix2tile_answers (s : State) : ExecAnswers .pix2tile s := by
  refine answers_checked .pix2tile s _ s.tileChecks rfl ?_ ?_
  · intro hn
    have hn' := hn
    rw [State.tileChecks, firstError_append, Option.or_eq_none_iff] at hn'
    have hwin := (windowChecks_none s s.srcWindow).1 hn'.1
    have := firstError_eq_none.1 hn (decide (s.srcLen.toNat > s.dstCap.toNat), .dstCap) (by simp [State.tileChecks])
    exact writes_sameLength .pix2tile s _ rfl rfl (by simpa using this) hwin.2.1
  · intro e he
    refine ⟨firstError_ne_illegal ?_ he, (windowChecks_then he).imp id (fun h => ⟨rfl, h⟩)⟩
    simp [State.tileChecks, State.windowChecks]

theorem tile2pix_answers (s : State) : ExecAnswers .tile2pix s := by
  refine answers_checked .tile2pix s _ s.tileChecks rfl ?_ ?_
  · intro hn
    have hn' := hn
    rw [State.tileChecks, firstError_append, Option.or_eq_none_iff] at hn'
    have hwin := (windowChecks_none s s.srcWindow).1 hn'.1
    have := firstError_eq_none.1 hn (decide (s.srcLen.toNat > s.dstCap.toNat), .dstCap) (by simp [State.tileChecks])
    exact writes_sameLength .tile2pix s _ rfl rfl (by simpa using this) hwin.2.1
  · intro e he
    refine ⟨firstError_ne_illegal ?_ he, (windowChecks_then he).imp id (fun h => ⟨rfl, h⟩)⟩
    simp [State.tileChecks, State.windowChecks]

theorem tileHflip_answers (s : State) : ExecAnswers .tileHflip s := by
  refine answers_checked .tileHflip s _ s.flipChecks rfl ?_ ?_
  · intro hn
    refine writes_flipped .tileHflip s hflip rfl rfl hflip_length ?_
    exact (inMem_iff s.tileWindow s.params).1 (by simpa [State.flipChecks] using hn)
  · intro e he
    simp only [State.flipChecks, firstError_cons, firstError_nil] at he
    split at he <;> simp_all [ErrCode.spoilsDst]
    subst he; simp

theorem tileVflip_answers (s : State) : ExecAnswers .tileVflip s := by
  refine answers_checked .tileVflip s _ s.flipChecks rfl ?_ ?_
  · intro hn
    refine writes_flipped .tileVflip s vflip rfl rfl vflip_length ?_
    exact (inMem_iff s.tileWindow s.params).1 (by simpa [State.flipChecks] using hn)
  · intro e he
    simp only [State.flipChecks, firstError_cons, firstError_nil] at he
    split at he <;> simp_all [ErrCode.spoilsDst]
    subst he; simp

theorem oamDec_answers (s : State) : ExecAnswers .oamDec s := by
  unfold ExecAnswers
  have he : exec .oamDec s = .next (s.complete (oamDecResult s)) := rfl
  rw [he]
  unfold oamDecResult
  cases hd : oamDecode s.oamW0 s.oamW1 s.oamW2 with
  | error e =>
    right
    refine ⟨e, rfl, ?_⟩
    unfold oamDecode at hd
    split at hd <;> cases hd
    exact ⟨by simp, .inl rfl⟩
  | ok r =>
    left
    exact ⟨_, rfl, writes_record s r⟩

theorem oamEnc_answers (s : State) : ExecAnswers .oamEnc s := by
  unfold ExecAnswers
  have he : exec .oamEnc s = .next (s.complete (oamEncResult s)) := rfl
  rw [he]
  unfold oamEncResult oamEncode
  cases hd : firstError (encodeChecks s.oamRec) with
  | some e =>
    right
    refine ⟨e, rfl, ?_⟩
    obtain ⟨before, after, hcs, -⟩ := firstError_eq_some hd
    have hmem : (true, e) ∈ encodeChecks s.oamRec := by rw [hcs]; simp
    simp only [encodeChecks, List.mem_cons, Prod.mk.injEq, List.not_mem_nil, or_false] at hmem
    rcases hmem with ⟨_, rfl⟩ | ⟨_, rfl⟩ | ⟨_, rfl⟩ <;> exact ⟨by simp, .inl rfl⟩
  | none =>
    left
    exact ⟨_, rfl, writes_triple s _⟩

theorem cipher_answers (s : State) : ExecAnswers .cipher s := by
  refine answers_checked .cipher s _ s.cipherChecks rfl ?_ ?_
  · intro hn
    have hn' := hn
    rw [State.cipherChecks, firstError_append, Option.or_eq_none_iff] at hn'
    have hwin := (windowChecks_none s s.srcWindow).1 hn'.1
    have h1 := firstError_eq_none.1 hn (decide (s.srcLen.toNat > s.dstCap.toNat), .dstCap)
      (by simp [State.cipherChecks])
    have h2 := firstError_eq_none.1 hn (s.srcLen.toNat % 2 != 0, .cipherOdd) (by simp [State.cipherChecks])
    refine writes_sameLength .cipher s _ rfl rfl ?_ hwin.2.1
    rw [cipher_length _ _ (by simpa using h2)]
    simpa using h1
  · intro e he
    refine ⟨firstError_ne_illegal ?_ he, (windowChecks_then he).imp id (fun h => ⟨rfl, h⟩)⟩
    simp [State.cipherChecks, State.windowChecks]

theorem decipher_answers (s : State) : ExecAnswers .decipher s := by
  refine answers_checked .decipher s _ s.decipherChecks rfl ?_ ?_
  · intro hn
    have hn' := hn
    rw [State.decipherChecks, firstError_append, Option.or_eq_none_iff] at hn'
    have hwin := (windowChecks_none s s.srcWindow).1 hn'.1
    have h1 := firstError_eq_none.1 hn (decide (s.srcLen.toNat > s.dstCap.toNat), .dstCap)
      (by simp [State.decipherChecks])
    have h2 := firstError_eq_none.1 hn (s.srcLen.toNat % 2 != 0, .cipherOdd) (by simp [State.decipherChecks])
    refine writes_deciphered s ?_ hwin.2.1
    rw [decipher_length _ (by simpa using h2)]
    simpa using h1
  · intro e he
    refine ⟨firstError_ne_illegal ?_ he, (windowChecks_then he).imp id (fun h => ⟨rfl, h⟩)⟩
    simp [State.decipherChecks, State.windowChecks]

/-- Everything exec can answer, for every command. -/
theorem exec_answers (i : Instr) (s : State) : ExecAnswers i s := by
  cases i with
  | ntrParse => exact ntrParse_answers s
  | ntrBuild => exact ntrBuild_answers s
  | pix2tile => exact pix2tile_answers s
  | tile2pix => exact tile2pix_answers s
  | tileHflip => exact tileHflip_answers s
  | tileVflip => exact tileVflip_answers s
  | oamDec => exact oamDec_answers s
  | oamEnc => exact oamEnc_answers s
  | cipher => exact cipher_answers s
  | decipher => exact decipher_answers s

/-! ## Errors in order -/

/-- An error that spares MEM, as a claim states it (R264). -/
theorem failsClean_of {i : Instr} {s : State} {e : ErrCode} (h : exec i s = .next (s.fail e))
    (he : e.spoilsDst = false) : FailsClean i e.errClass e.code s :=
  ⟨_, h, by simp [ErrStatus, Status.finishErr], fun r hr => fail_readReg s e r (by simpa using hr),
    byteAt_congr (fail_mem_clean s e he) (by simp), by simp [SameSurroundings]⟩

/-- An error that leaves the destination window unspecified, as a claim states it (R264). -/
theorem failsSpoiling_of {i : Instr} {s : State} {e : ErrCode} (h : exec i s = .next (s.fail e)) :
    FailsSpoiling i e.errClass e.code s :=
  ⟨_, h, by simp [ErrStatus, Status.finishErr], fun r hr => fail_readReg s e r (by simpa using hr),
    fail_byteAt_outside s e, by simp [SameSurroundings]⟩

/-- A row of an error order states a check: its condition, its class and its code. -/
def StatesCheck (c : Check) (row : Prop × BitVec 4 × BitVec 8) : Prop :=
  (c.1 = true ↔ row.1) ∧ row.2.1 = c.2.errClass ∧ row.2.2 = c.2.code

/-- The rows of an error order state the checks of a command, each row where the checks before it have passed. -/
def StateChecks : List Check → List (Prop × BitVec 4 × BitVec 8) → Prop
  | [], [] => True
  | c :: cs, row :: rows => StatesCheck c row ∧ (c.1 = false → StateChecks cs rows)
  | [], _ :: _ => False
  | _ :: _, [] => False

theorem stateChecks_append {cs ds : List Check} {rows more : List (Prop × BitVec 4 × BitVec 8)}
    (h : StateChecks cs rows) (h' : firstError cs = none → StateChecks ds more) :
    StateChecks (cs ++ ds) (rows ++ more) := by
  induction cs generalizing rows with
  | nil =>
    cases rows with
    | nil => exact h' rfl
    | cons row rows => exact h.elim
  | cons c cs ih =>
    cases rows with
    | nil => exact h.elim
    | cons row rows =>
      obtain ⟨v, e⟩ := c
      refine ⟨h.1, fun hv => ih (h.2 hv) (fun hn => h' ?_)⟩
      simp only at hv
      simp [hv, hn]

/-- A command that answers the first failing check reports its errors in the order of its checks (R263). -/
theorem reportsFirst_of_checks {i : Instr} {s : State} {clear : Prop} {cs : List Check}
    {rows : List (Prop × BitVec 4 × BitVec 8)} (hr : StateChecks cs rows)
    (herr : ∀ e, firstError cs = some e → exec i s = .next (s.fail e)) (hok : firstError cs = none → clear) :
    ReportsFirst i s clear rows := by
  induction cs generalizing rows with
  | nil =>
    cases rows with
    | nil => exact hok rfl
    | cons row rows => exact hr.elim
  | cons c cs ih =>
    cases rows with
    | nil => exact hr.elim
    | cons row rows =>
      obtain ⟨v, e⟩ := c
      obtain ⟨p, cls, code⟩ := row
      obtain ⟨⟨hp, rfl, rfl⟩, hrest⟩ := hr
      simp only [firstError_cons] at herr hok hp hrest
      refine ⟨fun h => ?_, fun h => ?_⟩
      · have hx := herr e (by simp [hp.2 h])
        split
        · rename_i hm
          exact failsClean_of hx ((code_mem_cleanCodes e).1 hm)
        · exact failsSpoiling_of hx
      · have hv : v = false := Bool.eq_false_iff.2 (fun hv => h (hp.1 hv))
        refine ih (hrest hv) ?_ ?_
        · simpa [hv] using herr
        · simpa [hv] using hok

/-- The window checks state the window order (R262). -/
theorem windowChecks_states (s : State) (w : Window) :
    StateChecks (s.windowChecks w) (windowOrder s w.start w.len) := by
  refine ⟨⟨?_, rfl, rfl⟩, fun _ => ⟨⟨?_, rfl, rfl⟩, fun _ => ⟨⟨overlaps_iff _ _, rfl, rfl⟩, fun _ => trivial⟩⟩⟩
  · rw [Bool.not_eq_true', ← Bool.not_eq_true, inMem_iff, Nat.not_le]
  · rw [Bool.not_eq_true', ← Bool.not_eq_true, inMem_iff, Nat.not_le]
    rfl

/-- What exec answers when the checks report an error. -/
theorem exec_of_error {i : Instr} {s t : State} {cs : List Check} {e : ErrCode}
    (he : exec i s = .next (s.complete (checked cs t))) (h : firstError cs = some e) :
    exec i s = .next (s.fail e) := by
  rw [he, checked, h]
  rfl

/-- What exec answers when every check passes. -/
theorem exec_of_pass {i : Instr} {s t : State} {cs : List Check}
    (he : exec i s = .next (s.complete (checked cs t))) (h : firstError cs = none) : exec i s = .next t.finish := by
  rw [he, checked, h]
  rfl

/-- A completion whose writes are those of the command's rule, as a claim states it (R92). -/
theorem completes_of {i : Instr} {s t : State} {P : State → Prop} (h : exec i s = .next t.finish) (hw : Writes i s t)
    (hp : P t.finish) : Completes i s P := by
  refine ⟨t.finish, h, ?_, ?_, hw.surroundings, hw.draws, hp⟩
  · simp [DoneStatus, Status.finishOk, hw.status]
  · intro r hr
    simp only [List.mem_cons, not_or] at hr
    rw [← hw.regs r hr.2]
    cases r <;> first | exact absurd rfl hr.1 | rfl

/-- A completion is a success. -/
theorem succeeds_of {i : Instr} {s t : State} (h : exec i s = .next t.finish) (hs : t.status = s.status) :
    Succeeds i s :=
  ⟨t.finish, h, by simp [DoneStatus, Status.finishOk, hs]⟩

end Sys2Proof.Machine
end

