-- ==== Sys2Proof/Laws/Container.lean ====
section
/-! SUPPORT. Reading back the parts of a written block, and the little-endian readers against the windows of MEM. -/

namespace Sys2Proof.Machine

/-! ## Little-endian numbers -/

theorem leNat_le16 {v : Nat} (h : v < 2 ^ 16) : leNat (le16 v) = v := by
  simp only [le16, leNat, BitVec.toNat_ofNat]
  omega

theorem leNat_le32 (v : Nat) : leNat (le32 v) = v % 2 ^ 32 := by
  simp only [le32, leNat, BitVec.toNat_ofNat]
  omega

theorem leNat_tagBytes (v : Word) : leNat (tagBytes v) = v.toNat := by
  have := v.isLt
  simp only [tagBytes, leNat, BitVec.extractLsb'_toNat, Nat.shiftRight_eq_div_pow]
  omega

theorem u16le_lt (b : List Byte) (o : Nat) : u16le b o < 2 ^ 16 := by
  have := (byteOf b o).isLt
  have := (byteOf b (o + 1)).isLt
  unfold u16le
  omega

theorem u32le_lt (b : List Byte) (o : Nat) : u32le b o < 2 ^ 32 := by
  have := (byteOf b o).isLt
  have := (byteOf b (o + 1)).isLt
  have := (byteOf b (o + 2)).isLt
  have := (byteOf b (o + 3)).isLt
  unfold u32le
  omega

/-! ## The source window -/

/-- A 16-bit field of the source window is a read of MEM. -/
theorem u16le_srcBytes (s : State) (o : Nat) (h : o + 2 ≤ s.srcLen.toNat) :
    u16le s.srcBytes o = s.memRead (s.srcAddr.toNat + o) 2 := by
  unfold u16le State.srcBytes
  rw [byteOf_memBytes _ _ _ _ (by omega), byteOf_memBytes _ _ _ _ (by omega)]
  simp [State.memRead, State.memBytes, leNat, List.range_succ, Nat.add_assoc]

/-- A 32-bit field of the source window is a read of MEM. -/
theorem u32le_srcBytes (s : State) (o : Nat) (h : o + 4 ≤ s.srcLen.toNat) :
    u32le s.srcBytes o = s.memRead (s.srcAddr.toNat + o) 4 := by
  unfold u32le State.srcBytes
  rw [byteOf_memBytes _ _ _ _ (by omega), byteOf_memBytes _ _ _ _ (by omega), byteOf_memBytes _ _ _ _ (by omega),
    byteOf_memBytes _ _ _ _ (by omega)]
  simp [State.memRead, State.memBytes, leNat, List.range_succ, Nat.add_assoc]
  ring_nf

/-- A slice of the source window is a block of MEM. -/
theorem sliceOf_srcBytes (s : State) (o n : Nat) (h : o + n ≤ s.srcLen.toNat) :
    sliceOf s.srcBytes o n = s.memBytes (s.srcAddr.toNat + o) n := by
  apply List.ext_getElem
  · simp [sliceOf]
    omega
  · intro i hi hi'
    simp [sliceOf, State.srcBytes, State.memBytes, Nat.add_assoc]

theorem versionKnown_iff (s : State) (v : Nat) : versionKnown s.params v = true ↔ VersionOk s v := by
  simp [versionKnown, VersionOk]

/-- The header checks of NTR_PARSE pass on a good header (R125). -/
theorem headerChecks_none {s : State} (h16 : 16 ≤ s.srcLen.toNat)
    (hb : s.memRead (s.srcAddr.toNat + 4) 2 = s.params.ntrBom.toNat)
    (hv : VersionOk s (s.memRead (s.srcAddr.toNat + 6) 2))
    (hh : s.memRead (s.srcAddr.toNat + 12) 2 = 16)
    (hc : 12 * s.memRead (s.srcAddr.toNat + 14) 2 ≤ s.dstCap.toNat) :
    firstError (headerChecks s.params s.srcBytes s.dstCap.toNat) = none := by
  rw [firstError_eq_none, headerChecks, srcBytes_length, u16le_srcBytes s 4 (by omega),
    u16le_srcBytes s 6 (by omega), u16le_srcBytes s 12 (by omega), u16le_srcBytes s 14 (by omega), hb, hh,
    (versionKnown_iff s _).2 hv]
  simp
  omega

/-- An error after some framed blocks is the error of the whole block loop (R125). -/
theorem parseBlocks_after {b : List Byte} {blocks : List Block} {o n : Nat} {e : ErrCode}
    (hf : FramedFrom b o blocks)
    (h : parseBlocks b n (o + (blocks.map (fun k => k.len + 8)).sum) = .error e) :
    parseBlocks b (blocks.length + n) o = .error e := by
  induction blocks generalizing o with
  | nil => simpa using h
  | cons k rest ih =>
    obtain ⟨h1, h2, h3, h4, h5⟩ := hf
    have hk : k.len + 8 = u32le b (o + 4) := by
      rw [h4]
      simp only
      omega
    have hi := ih h5 (by rw [← h, List.map_cons, List.sum_cons, hk, Nat.add_assoc])
    rw [List.length_cons, Nat.add_right_comm, parseBlocks, if_neg (by omega), if_neg (by omega), if_neg (by omega),
      hi]

/-! ## Parts of a written block -/

/-- A part of a block of bytes that was written reads back. -/
theorem memBytes_part {s t : State} {d : Nat} (pre mid post : List Byte)
    (hm : t.mem = s.mem.write d (pre ++ mid ++ post)) (hp : t.powerOns = s.powerOns) :
    t.memBytes (d + pre.length) mid.length = mid := by
  apply List.ext_getElem (by simp)
  intro i hi hi'
  have h := byteAt_writeBytes_inside s d (pre.length + i) (pre ++ mid ++ post) (by simp; omega)
  rw [memBytes_getElem, Nat.add_assoc, byteAt_congr (s := s.writeBytes d (pre ++ mid ++ post)) hm hp, h,
    List.getElem_append_left (by simp; omega), List.getElem_append_right (by omega)]
  simp

/-- A list of pieces, split at one of them. -/
theorem flatMap_split {α : Type} (f : α → List Byte) (l : List α) (k : Nat) (h : k < l.length) :
    l.flatMap f = (l.take k).flatMap f ++ f l[k] ++ (l.drop (k + 1)).flatMap f := by
  have e : l = l.take k ++ l[k] :: l.drop (k + 1) := by
    rw [← List.drop_eq_getElem_cons h, List.take_append_drop]
  calc l.flatMap f = (l.take k ++ l[k] :: l.drop (k + 1)).flatMap f := by rw [← e]
    _ = _ := by rw [List.flatMap_append, List.flatMap_cons, List.append_assoc]

/-! ## Fields of a byte sequence after a prefix -/

theorem byteOf_append (pre rest : List Byte) (i : Nat) : byteOf (pre ++ rest) (pre.length + i) = byteOf rest i := by
  unfold byteOf
  rw [List.getD_eq_getElem?_getD, List.getD_eq_getElem?_getD, List.getElem?_append_right (by omega)]
  congr 2
  omega

theorem u16le_append (pre rest : List Byte) (i : Nat) : u16le (pre ++ rest) (pre.length + i) = u16le rest i := by
  unfold u16le
  simp only [Nat.add_assoc, byteOf_append]

theorem u32le_append (pre rest : List Byte) (i : Nat) : u32le (pre ++ rest) (pre.length + i) = u32le rest i := by
  unfold u32le
  simp only [Nat.add_assoc, byteOf_append]

theorem u16le_le16 {v : Nat} (h : v < 2 ^ 16) (rest : List Byte) : u16le (le16 v ++ rest) 0 = v := by
  simp [u16le, le16, byteOf, BitVec.toNat_ofNat]
  omega

theorem u32le_le32 {v : Nat} (h : v < 2 ^ 32) (rest : List Byte) : u32le (le32 v ++ rest) 0 = v := by
  simp [u32le, le32, byteOf, BitVec.toNat_ofNat]
  omega

theorem sliceOf_append (pre mid post : List Byte) : sliceOf (pre ++ mid ++ post) pre.length mid.length = mid := by
  simp [sliceOf]

end Sys2Proof.Machine
end

