-- ==== Sys2Proof/Laws/PerInstr.lean ====
section
/-! SUPPORT. Statements for all instructions, one lemma a constructor. -/

/-- The family EncodeDecodes: the command is well formed, its OPCODE stands in the opcode map beside it (R93), and its CMD
word decodes to it (R90). -/
def Sys2Proof.Laws.EncodeDecodes.Statement (i : Sys2Proof.Instr) : Prop :=
  i.wf = true ∧ (i.opcode, i) ∈ Sys2Proof.opcodeMap ∧ Sys2Proof.decode (Sys2Proof.encode i) = .ok i

theorem Sys2Proof.Laws.EncodeDecodes.ntrParse : Sys2Proof.Laws.EncodeDecodes.Statement .ntrParse := by
  unfold Sys2Proof.Laws.EncodeDecodes.Statement; decide

theorem Sys2Proof.Laws.EncodeDecodes.ntrBuild : Sys2Proof.Laws.EncodeDecodes.Statement .ntrBuild := by
  unfold Sys2Proof.Laws.EncodeDecodes.Statement; decide

theorem Sys2Proof.Laws.EncodeDecodes.pix2tile : Sys2Proof.Laws.EncodeDecodes.Statement .pix2tile := by
  unfold Sys2Proof.Laws.EncodeDecodes.Statement; decide

theorem Sys2Proof.Laws.EncodeDecodes.tile2pix : Sys2Proof.Laws.EncodeDecodes.Statement .tile2pix := by
  unfold Sys2Proof.Laws.EncodeDecodes.Statement; decide

theorem Sys2Proof.Laws.EncodeDecodes.tileHflip : Sys2Proof.Laws.EncodeDecodes.Statement .tileHflip := by
  unfold Sys2Proof.Laws.EncodeDecodes.Statement; decide

theorem Sys2Proof.Laws.EncodeDecodes.tileVflip : Sys2Proof.Laws.EncodeDecodes.Statement .tileVflip := by
  unfold Sys2Proof.Laws.EncodeDecodes.Statement; decide

theorem Sys2Proof.Laws.EncodeDecodes.oamDec : Sys2Proof.Laws.EncodeDecodes.Statement .oamDec := by
  unfold Sys2Proof.Laws.EncodeDecodes.Statement; decide

theorem Sys2Proof.Laws.EncodeDecodes.oamEnc : Sys2Proof.Laws.EncodeDecodes.Statement .oamEnc := by
  unfold Sys2Proof.Laws.EncodeDecodes.Statement; decide

theorem Sys2Proof.Laws.EncodeDecodes.cipher : Sys2Proof.Laws.EncodeDecodes.Statement .cipher := by
  unfold Sys2Proof.Laws.EncodeDecodes.Statement; decide

theorem Sys2Proof.Laws.EncodeDecodes.decipher : Sys2Proof.Laws.EncodeDecodes.Statement .decipher := by
  unfold Sys2Proof.Laws.EncodeDecodes.Statement; decide
end

