-- ==== Sys2Proof/Laws/Steps.lean ====
section
/-! SUPPORT. Everything a step can do: which agent moves, and what each host action leads to. -/

namespace Sys2Proof.Machine

/-! ## Which agent moves -/

theorem nextAgent_host {s : State} : s.nextAgent = .host ↔ HostMoves s := by
  unfold State.nextAgent HostMoves
  cases hb : s.status.busy <;> cases hs : s.script <;> cases ht : s.turns <;> simp
  rename_i a _
  cases a <;> simp

theorem nextAgent_engine {s : State} : s.nextAgent = .engine ↔ EngineMoves s := by
  unfold State.nextAgent EngineMoves
  cases hb : s.status.busy <;> cases hs : s.script <;> cases ht : s.turns <;> simp
  rename_i a _
  cases a <;> simp

/-- One of the two agents moves. -/
theorem host_or_engine (s : State) : HostMoves s ∨ EngineMoves s := by
  rw [← nextAgent_host, ← nextAgent_engine]
  cases s.nextAgent <;> simp

/-! ## What a step is -/

theorem step_host {s : State} (h : HostMoves s) : step s = hostStep s.endTurn := by
  unfold step
  rw [nextAgent_host.2 h]

theorem step_engine {s : State} (h : EngineMoves s) {i : Instr} (hf : s.fetch = .ok i) :
    step s = exec i s.endTurn := by
  unfold step
  rw [nextAgent_engine.2 h]
  simp only [hf]

theorem step_engine_illegal {s : State} (h : EngineMoves s) {e : DecodeError} (hf : s.fetch = .error e) :
    step s = .next (s.endTurn.fail .illegalOpcode) := by
  unfold step
  rw [nextAgent_engine.2 h]
  simp only [hf]
  rfl

/-! ## What a host action leads to -/

/-- Everything the host's next action can lead to, with `u` the state whose script has moved on. -/
inductive HostEffect (s u : State) : State → Prop where
  | quiet : HostEffect s u u
  | regWrite (off : Nat) (v : Word) (rest : List HostAction) (h : s.script = .regWrite 4 off v :: rest) :
      HostEffect s u (u.writeOffset off v)
  | regRead (off : Nat) : HostEffect s u (u.record (.reg off (u.readOffset off)))
  | store (a : Nat) (b : Byte) (h : a < s.params.memBytes) : HostEffect s u (u.storeByte a b)
  | load (a : Nat) (h : a < s.params.memBytes) : HostEffect s u (u.loadByte a)
  | reset (rest : List HostAction) (h : s.script = .reset :: rest) : HostEffect s u u.abandon.resetRegs
  | powerOn (rest : List HostAction) (h : s.script = .powerOn :: rest) : HostEffect s u u.resetRegs.powerOnMem

theorem regAccessOk_width {width off : Nat} (h : regAccessOk width off = true) : width = 4 := by
  simp only [regAccessOk, Bool.and_eq_true, beq_iff_eq, decide_eq_true_eq] at h
  exact h.1.1

theorem hostStep_effect {s t : State} (h : hostStep s = .next t) :
    ∃ script, HostEffect s (s.withScript script) t := by
  unfold hostStep at h
  split at h
  · cases h
    exact ⟨s.script, .quiet⟩
  · rename_i width off v rest hs
    unfold hostRegWrite at h
    split at h
    · rename_i hok
      have hw := regAccessOk_width hok
      subst hw
      cases h
      exact ⟨rest, .regWrite off v rest hs⟩
    · cases h
  · rename_i width off rest hs
    unfold hostRegRead at h
    split at h
    · cases h
      exact ⟨rest, .regRead off⟩
    · cases h
  · cases h
    exact ⟨_, .quiet⟩
  · unfold hostMemWrite at h
    split at h
    · rename_i ha
      cases h
      exact ⟨_, .store _ _ ha⟩
    · cases h
  · cases h
    exact ⟨_, .quiet⟩
  · unfold hostMemRead at h
    split at h
    · rename_i ha
      cases h
      exact ⟨_, .load _ ha⟩
    · cases h
  · unfold hostRegRead at h
    split at h
    · cases h
      exact ⟨_, .regRead _⟩
    · cases h
  · rename_i rest hs
    cases h
    exact ⟨rest, .reset rest hs⟩
  · rename_i rest hs
    cases h
    exact ⟨rest, .powerOn rest hs⟩

/-- Everything a step that has a next state can be. -/
inductive StepEffect (s : State) : State → Prop where
  | host (script : List HostAction) (t : State) (h : HostMoves s)
      (he : HostEffect s.endTurn (s.endTurn.withScript script) t) : StepEffect s t
  | done (i : Instr) (t : State) (h : EngineMoves s) (hf : s.fetch = .ok i) (hw : Writes i s.endTurn t) :
      StepEffect s t.finish
  | error (e : ErrCode) (h : EngineMoves s) : StepEffect s (s.endTurn.fail e)

theorem step_effect {s t : State} (h : step s = .next t) : StepEffect s t := by
  rcases host_or_engine s with hm | hm
  · rw [step_host hm] at h
    obtain ⟨script, he⟩ := hostStep_effect h
    exact .host script t hm he
  · cases hf : s.fetch with
    | error e =>
      rw [step_engine_illegal hm hf] at h
      cases h
      exact .error _ hm
    | ok i =>
      rw [step_engine hm hf] at h
      rcases exec_answers i s.endTurn with ⟨u, hu, hw⟩ | ⟨e, he, -⟩
      · rw [hu] at h
        cases h
        exact .done i u hm hf hw
      · rw [he] at h
        cases h
        exact .error e hm

/-! ## The registers by offset -/

theorem regAt_offset (r : Reg) : regAt r.offset = some r := by
  cases r <;> rfl

/-- A register is found only at its own offset. -/
theorem regAt_some {off : Nat} {r : Reg} (h : regAt off = some r) : off = r.offset := by
  have := List.find?_some h
  exact (beq_iff_eq.1 this).symm

/-! ## Turns and single accesses -/

theorem endTurn_idle {s : State} (h : s.status.busy = false) : s.endTurn = s := by
  simp [State.endTurn, h]

theorem endTurn_busy {s : State} (h : s.status.busy = true) : s.endTurn = s.withTurns s.turns.tail := by
  simp [State.endTurn, h]

/-- Using up a turn changes no register. -/
@[simp] theorem endTurn_readReg (s : State) (r : Reg) : s.endTurn.readReg r = s.readReg r := by
  unfold State.endTurn
  split <;> cases r <;> rfl

/-- Using up a turn changes no byte of MEM. -/
@[simp] theorem endTurn_byteAt (s : State) (a : Nat) : s.endTurn.byteAt a = s.byteAt a := by
  apply byteAt_congr <;> simp

/-- Moving the script on changes no register. -/
@[simp] theorem withScript_readReg (s : State) (script : List HostAction) (r : Reg) :
    (s.withScript script).readReg r = s.readReg r := by
  cases r <;> rfl

/-- The host's write of a register. -/
theorem hostStep_write {s : State} {r : Reg} {v : Word} {rest : List HostAction}
    (h : s.script = .regWrite 4 r.offset v :: rest) :
    hostStep s = .next ((s.withScript rest).hostWriteReg r v) := by
  have hok : regAccessOk 4 r.offset = true := by cases r <;> rfl
  unfold hostStep
  rw [h]
  simp [hostRegWrite, hok, State.writeOffset, regAt_offset]

/-- The host's read of a register. -/
theorem hostStep_read {s : State} {r : Reg} {rest : List HostAction} (h : s.script = .regRead 4 r.offset :: rest) :
    hostStep s = .next ((s.withScript rest).record (.reg r.offset (s.readReg r))) := by
  have hok : regAccessOk 4 r.offset = true := by cases r <;> rfl
  unfold hostStep
  rw [h]
  simp [hostRegRead, hok, State.readOffset, regAt_offset]

/-- No register stands at a reserved offset (R42). -/
theorem regAt_reserved {off : Nat} (h : 0x54 ≤ off) : regAt off = none := by
  unfold regAt
  rw [List.find?_eq_none]
  intro r _
  have : r.offset < 0x54 := by cases r <;> decide
  simp
  omega

/-! ## A register write -/

/-- A plain store changes no other register. -/
theorem storeReg_readReg (s : State) (v : Word) (r q : Reg) (h : q ≠ r) :
    (s.storeReg v r).readReg q = s.readReg q := by
  cases r <;> cases q <;> first | exact absurd rfl h | rfl

/-- A plain store does not touch STATUS. -/
@[simp] theorem storeReg_status (s : State) (v : Word) (r : Reg) : (s.storeReg v r).status = s.status := by
  cases r <;> rfl

/-- A host register write changes no other register, but that a CMD write changes STATUS as well. -/
theorem hostWriteReg_readReg (s : State) (r : Reg) (v : Word) (q : Reg) (h : q ≠ r) (hc : r = .cmd → q ≠ .status) :
    (s.hostWriteReg r v).readReg q = s.readReg q := by
  unfold State.hostWriteReg
  split
  · have hq := hc rfl
    split <;> cases q <;> first | exact absurd rfl h | exact absurd rfl hq | rfl
  · cases q <;> first | exact absurd rfl h | rfl
  · cases q <;> first | exact absurd rfl h | rfl
  · split
    · rfl
    · exact storeReg_readReg s v r q h

/-- A host register write changes neither MEM nor the surroundings. -/
theorem hostWriteReg_keeps (s : State) (r : Reg) (v : Word) :
    (s.hostWriteReg r v).mem = s.mem ∧ SameSurroundings s (s.hostWriteReg r v) := by
  unfold State.hostWriteReg
  split
  · split <;> exact ⟨rfl, rfl, rfl, rfl, rfl, rfl, rfl⟩
  · exact ⟨rfl, rfl, rfl, rfl, rfl, rfl, rfl⟩
  · exact ⟨rfl, rfl, rfl, rfl, rfl, rfl, rfl⟩
  · split
    · exact ⟨rfl, rfl, rfl, rfl, rfl, rfl, rfl⟩
    · cases r <;> exact ⟨rfl, rfl, rfl, rfl, rfl, rfl, rfl⟩

/-! ## A byte access -/

@[simp] theorem endTurn_inFootprint (s : State) (a : Nat) : s.endTurn.inFootprint a = s.inFootprint a := by
  unfold State.endTurn
  split <;> rfl

@[simp] theorem withScript_inFootprint (s : State) (script : List HostAction) (a : Nat) :
    (s.withScript script).inFootprint a = s.inFootprint a := rfl

@[simp] theorem withScript_byteAt (s : State) (script : List HostAction) (a : Nat) :
    (s.withScript script).byteAt a = s.byteAt a := rfl

@[simp] theorem record_byteAt (s : State) (x : HostRead) (a : Nat) : (s.record x).byteAt a = s.byteAt a := rfl

@[simp] theorem record_readReg (s : State) (x : HostRead) (r : Reg) : (s.record x).readReg r = s.readReg r := by
  cases r <;> rfl

/-- A byte write changes no register (R60, R300). -/
@[simp] theorem storeByte_readReg (s : State) (a : Nat) (b : Byte) (r : Reg) :
    (s.storeByte a b).readReg r = s.readReg r := by
  unfold State.storeByte
  split <;> cases r <;> rfl

/-- A byte write changes no other byte. -/
theorem storeByte_outside (s : State) (a : Nat) (b : Byte) (x : Nat) (h : ¬ (a ≤ x ∧ x < a + 1)) :
    (s.storeByte a b).byteAt x = s.byteAt x := by
  unfold State.storeByte
  split
  · exact byteAt_spoil_outside s a 1 x h
  · exact byteAt_writeBytes_outside s a x [b] (by simpa using h)

/-- Outside the footprint a byte write stores the byte (R60). -/
theorem storeByte_inside (s : State) (a : Nat) (b : Byte) (h : s.inFootprint a = false) :
    (s.storeByte a b).byteAt a = b := by
  unfold State.storeByte
  rw [h]
  exact byteAt_writeBytes_inside s a 0 [b] (by simp)

/-- A byte write records the hazard exactly in the footprint (R300). -/
theorem storeByte_hazard (s : State) (a : Nat) (b : Byte) :
    (s.storeByte a b).hazard = if s.inFootprint a then some .footprintHazard else s.hazard := by
  unfold State.storeByte
  cases s.inFootprint a <;> rfl

@[simp] theorem storeByte_script (s : State) (a : Nat) (b : Byte) : (s.storeByte a b).script = s.script := by
  unfold State.storeByte
  split <;> rfl

/-- A byte read changes no register. -/
@[simp] theorem loadByte_readReg (s : State) (a : Nat) (r : Reg) : (s.loadByte a).readReg r = s.readReg r := by
  unfold State.loadByte
  split <;> cases r <;> rfl

/-- A byte read changes no byte. -/
@[simp] theorem loadByte_byteAt (s : State) (a x : Nat) : (s.loadByte a).byteAt x = s.byteAt x := by
  unfold State.loadByte
  split <;> rfl

/-- A byte read returns the byte, or a draw in the footprint (R60, R300). -/
theorem loadByte_reads (s : State) (a : Nat) :
    (s.loadByte a).reads
      = .mem a (if s.inFootprint a then Config.freeByte s.draws else s.byteAt a) :: s.reads := by
  unfold State.loadByte
  cases s.inFootprint a <;> rfl

@[simp] theorem loadByte_hazard (s : State) (a : Nat) : (s.loadByte a).hazard = s.hazard := by
  unfold State.loadByte
  split <;> rfl

@[simp] theorem loadByte_script (s : State) (a : Nat) : (s.loadByte a).script = s.script := by
  unfold State.loadByte
  split <;> rfl

/-! ## Reset -/

/-- After RESET every register reads as at reset (R290). -/
theorem resetRegs_readReg (s : State) (r : Reg) : s.resetRegs.readReg r = State.reset.readReg r := by
  cases r <;> rfl

/-- Abandoning a command leaves every byte of MEM outside its destination window (R292). -/
theorem abandon_outside (s : State) (a : Nat)
    (h : s.status.busy = true → ¬ (s.pendingDest.start ≤ a ∧ a < s.pendingDest.start + s.pendingDest.len)) :
    s.abandon.byteAt a = s.byteAt a := by
  unfold State.abandon
  split
  · exact byteAt_spoil_outside s _ _ a (h ‹_›)
  · rfl

/-- Abandoning a running command spoils its destination window (R292). -/
theorem abandon_busy {s : State} (h : s.status.busy = true) :
    s.abandon = s.spoil s.pendingDest.start s.pendingDest.len := if_pos h

/-- With no command running there is nothing to abandon. -/
theorem abandon_idle {s : State} (h : s.status.busy = false) : s.abandon = s := by simp [State.abandon, h]

/-- Abandoning a command changes nothing but MEM and the draws. -/
theorem abandon_keeps (s : State) : s.abandon = { s with mem := s.abandon.mem, draws := s.abandon.draws } := by
  unfold State.abandon
  split <;> rfl

/-- A reserved OPCODE selects no command (R95). -/
theorem decodeOpcode_reserved {op : Byte} (h : ReservedOpcode op.toNat) :
    decodeOpcode op = .error (.illegalOpcode op) := by
  cases hd : decodeOpcode op with
  | ok i =>
    exfalso
    rw [decodeOpcode_ok.1 hd] at h
    unfold ReservedOpcode at h
    cases i <;> simp [Instr.opcode] at h
  | error e =>
    unfold decodeOpcode at hd
    split at hd <;> cases hd
    rfl

/-- While a command runs, an address is in its footprint exactly if it is in a window the command reads or in its
destination window (R64). -/
theorem inFootprint_busy {s : State} (h : s.status.busy = true) (a : Nat) :
    s.inFootprint a = true ↔ (∃ w ∈ s.pendingReads, w.has a = true) ∨ s.pendingDest.has a = true := by
  simp [State.inFootprint, State.footprint, h]

/-- The destination window of the pending command, by its OPCODE: the tile of a flip, else W(DST_ADDR, DST_CAP) (R64,
R292). -/
theorem pendingDest_eq (s : State) :
    s.pendingDest = if s.opcode ∈ [0x22#8, 0x23#8] then s.tileWindow else s.dstWindow := by
  unfold State.pendingDest State.fetch
  cases h : decodeOpcode s.opcode with
  | ok i => rw [decodeOpcode_ok.1 h]; cases i <;> rfl
  | error e =>
    rw [if_neg]
    intro hm
    simp only [List.mem_cons, List.not_mem_nil, or_false] at hm
    rcases hm with hm | hm <;> rw [hm] at h <;> cases h

@[simp] theorem endTurn_pendingDest (s : State) : s.endTurn.pendingDest = s.pendingDest := by
  unfold State.endTurn
  split <;> rfl

@[simp] theorem withScript_pendingDest (s : State) (script : List HostAction) :
    (s.withScript script).pendingDest = s.pendingDest := rfl

end Sys2Proof.Machine
end

