-- ==== Sys2Proof/Laws/Tile.lean ====
section
/-! SUPPORT. The tile-major index map and its inverse, the bytes of the transforms and of the flips. -/

namespace Sys2Proof.Machine

/-- The tile-major index of the pixel at row `y`, column `x` (R161). -/
theorem tileIndex_pixel {w x : Nat} (y : Nat) (hx : x < 8 * w) :
    tileIndex w (y * (8 * w) + x) = 64 * (y / 8 * w + x / 8) + 8 * (y % 8) + x % 8 := by
  have h1 : (y * (8 * w) + x) / (8 * w) = y := by
    rw [Nat.mul_comm, Nat.mul_add_div (by omega), Nat.div_eq_of_lt hx, Nat.add_zero]
  have h2 : (y * (8 * w) + x) % (8 * w) = x := by
    rw [Nat.mul_comm, Nat.mul_add_mod, Nat.mod_eq_of_lt hx]
  unfold tileIndex
  rw [h1, h2]

/-- The pixel at a tile-major index (R161). -/
theorem pixelIndex_tile {w x : Nat} (y : Nat) (hx : x < 8 * w) :
    pixelIndex w (64 * (y / 8 * w + x / 8) + 8 * (y % 8) + x % 8) = y * (8 * w) + x := by
  have hw : 0 < w := by omega
  have hx8 : x / 8 < w := by omega
  generalize ht : y / 8 * w + x / 8 = t
  have e1 : (64 * t + 8 * (y % 8) + x % 8) / 64 = t := by omega
  have e2 : (64 * t + 8 * (y % 8) + x % 8) % 64 / 8 = y % 8 := by omega
  have e3 : (64 * t + 8 * (y % 8) + x % 8) % 8 = x % 8 := by omega
  have e4 : t / w = y / 8 := by
    rw [← ht, Nat.mul_comm, Nat.mul_add_div hw, Nat.div_eq_of_lt hx8, Nat.add_zero]
  have e5 : t % w = x / 8 := by
    rw [← ht, Nat.mul_comm, Nat.mul_add_mod, Nat.mod_eq_of_lt hx8]
  have e6 : 8 * (y / 8) + y % 8 = y := by omega
  unfold pixelIndex
  rw [e1, e2, e3, e4, e5, e6]
  omega

theorem pixelIndex_tileIndex {w : Nat} (hw : 0 < w) (i : Nat) : pixelIndex w (tileIndex w i) = i := by
  have h := pixelIndex_tile (w := w) (i / (8 * w)) (Nat.mod_lt i (by omega))
  unfold tileIndex
  rw [h, Nat.div_add_mod']

theorem tileIndex_pixelIndex {w : Nat} (hw : 0 < w) (j : Nat) : tileIndex w (pixelIndex w j) = j := by
  have h2 : j / 64 % w < w := Nat.mod_lt _ hw
  have e1 : (8 * (j / 64 / w) + j % 64 / 8) / 8 = j / 64 / w := by omega
  have e2 : (8 * (j / 64 % w) + j % 8) / 8 = j / 64 % w := by omega
  unfold pixelIndex
  rw [Nat.add_assoc, tileIndex_pixel _ (by omega), e1, e2, Nat.div_add_mod']
  omega

/-- An image of whole rows of tiles has `w · h` tiles. -/
theorem tiles_factor {n w : Nat} (h64 : n % 64 = 0) (hn : n / 64 % w = 0) : n = 64 * (w * (n / 64 / w)) := by
  rw [Nat.mul_div_cancel' (Nat.dvd_of_mod_eq_zero hn)]
  omega

/-- The tile-major index of a pixel of the image is inside the image. -/
theorem tileIndex_lt {w n : Nat} (hw : 0 < w) (h64 : n % 64 = 0) (hn : n / 64 % w = 0) {i : Nat} (hi : i < n) :
    tileIndex w i < n := by
  have hf := tiles_factor h64 hn
  generalize n / 64 / w = h at hf
  have hx : i % (8 * w) < 8 * w := Nat.mod_lt _ (by omega)
  have hy : i / (8 * w) < 8 * h := by
    apply Nat.div_lt_of_lt_mul
    have e : 8 * w * (8 * h) = 64 * (w * h) := by ring
    omega
  have h1 := Nat.mul_le_mul_right w (show i / (8 * w) / 8 + 1 ≤ h by omega)
  have e1 : (i / (8 * w) / 8 + 1) * w = i / (8 * w) / 8 * w + w := by ring
  have e2 : h * w = w * h := by ring
  unfold tileIndex
  omega

/-- The pixel at a tile-major index inside the image is inside the image. -/
theorem pixelIndex_lt {w n : Nat} (hw : 0 < w) (h64 : n % 64 = 0) (hn : n / 64 % w = 0) {j : Nat} (hj : j < n) :
    pixelIndex w j < n := by
  have hf := tiles_factor h64 hn
  generalize n / 64 / w = h at hf
  have h1 : j / 64 / w < h := Nat.div_lt_of_lt_mul (by omega)
  have h2 : j / 64 % w < w := Nat.mod_lt _ hw
  have h3 := Nat.mul_le_mul_right (8 * w) (show 8 * (j / 64 / w) + j % 64 / 8 + 1 ≤ 8 * h by omega)
  have e1 : 8 * h * (8 * w) = 64 * (w * h) := by ring
  have e2 : (8 * (j / 64 / w) + j % 64 / 8 + 1) * (8 * w) = (8 * (j / 64 / w) + j % 64 / 8) * (8 * w) + 8 * w := by
    ring
  unfold pixelIndex
  omega

theorem pixelsToTiles_getElem (p : List Byte) (w j : Nat) (h : j < (pixelsToTiles p w).length) :
    (pixelsToTiles p w)[j] = byteOf p (pixelIndex w j) := by
  simp [pixelsToTiles]

theorem tilesToPixels_getElem (q : List Byte) (w i : Nat) (h : i < (tilesToPixels q w).length) :
    (tilesToPixels q w)[i] = byteOf q (tileIndex w i) := by
  simp [tilesToPixels]

theorem hflip_getElem (t : List Byte) (j : Nat) (h : j < (hflip t).length) :
    (hflip t)[j] = byteOf t (8 * (j / 8) + (7 - j % 8)) := by
  simp [hflip]

theorem vflip_getElem (t : List Byte) (j : Nat) (h : j < (vflip t).length) :
    (vflip t)[j] = byteOf t (8 * (7 - j / 8) + j % 8) := by
  simp [vflip]

/-- A byte of the output of a command whose output has the length of its input. -/
theorem writeSameLength_byteAt (s : State) (out : List Byte) (k : Nat) (h : k < out.length) :
    (s.writeSameLength out).byteAt (s.dstAddr.toNat + k) = out[k] :=
  byteAt_writeBytes_inside s s.dstAddr.toNat k out h

end Sys2Proof.Machine
end

