-- ==== Sys2Proof/Tests/Slice0.lean ====
section
/-! SUPPORT. The model's own tests: well-formedness, decoding of written-out words, one step an instruction with the
vectors of spec 95_test_vectors.md, and a witness for the hypotheses of each obligation. -/

open Sys2Proof Sys2Proof.Machine

namespace Sys2Proof.Tests

-- One theorem after another: the kernel evaluations of this file would else take a thread each.
set_option Elab.async false

/-! ## Helpers -/

/-- The next state, if there is one. -/
def nextOf : Answer → Option State
  | .next t => some t
  | .fault _ => none
  | .refused _ => none

/-- Whether a step is refused. -/
def isRefused : Answer → Bool
  | .next _ => false
  | .fault _ => false
  | .refused _ => true

/-- A register after an answer. -/
def regAfter (r : Reg) (a : Answer) : Option Word := (nextOf a).map (fun t => t.readReg r)

/-- Bytes of MEM after an answer. -/
def bytesAfter (addr n : Nat) (a : Answer) : Option (List Byte) := (nextOf a).map (fun t => t.memBytes addr n)

/-- The bytes 0, 1, 2, ... -/
def ramp (n : Nat) : List Byte := (List.range n).map (fun i => BitVec.ofNat 8 i)

/-- A state with the operand registers of a memory command and some bytes in MEM. -/
def job (src len dst cap : Word) (at_ : Nat) (bytes : List Byte) : State :=
  { State.reset with srcAddr := src, srcLen := len, dstAddr := dst, dstCap := cap, mem := cellsFrom at_ bytes }

/-- A state in which the command of an OPCODE is running. -/
def running (op : Byte) : State :=
  { State.reset with opcode := op, status := { State.reset.status with busy := true } }

/-- A state whose host does these actions next. -/
def hostDoes (actions : List HostAction) : State := { State.reset with script := actions }

/-- A state with a command running whose host does these actions next. -/
def hostDoesBusy (op : Byte) (actions : List HostAction) : State :=
  { running op with script := actions, turns := [.host] }

/-- The 36-byte container of 95_test_vectors.md, C36. -/
def c36 : List Byte :=
  [0x52#8, 0x4C#8, 0x43#8, 0x4E#8, 0xFF#8, 0xFE#8, 0x00#8, 0x01#8, 0x24#8, 0x00#8, 0x00#8, 0x00#8, 0x10#8, 0x00#8,
    0x02#8, 0x00#8]
  ++ [0x54#8, 0x54#8, 0x4C#8, 0x50#8, 0x0C#8, 0x00#8, 0x00#8, 0x00#8, 0x01#8, 0x02#8, 0x03#8, 0x04#8]
  ++ [0x50#8, 0x4D#8, 0x43#8, 0x50#8, 0x08#8, 0x00#8, 0x00#8, 0x00#8]

/-- C36 at 0x0200, the operands of vector NP1. -/
def parseJob : State := job 0x0200#32 36#32 0x0300#32 0x30#32 0x0200 c36

/-- The descriptor table of the NTR_BUILD vectors, with the payload. -/
def buildCells : Memory :=
  cellsFrom 0x0100
      [0x54#8, 0x54#8, 0x4C#8, 0x50#8, 0x40#8, 0x01#8, 0x00#8, 0x00#8, 0x04#8, 0x00#8, 0x00#8, 0x00#8,
       0x50#8, 0x4D#8, 0x43#8, 0x50#8, 0x44#8, 0x01#8, 0x00#8, 0x00#8, 0x00#8, 0x00#8, 0x00#8, 0x00#8]
    ++ cellsFrom 0x0140 [0x01#8, 0x02#8, 0x03#8, 0x04#8]

/-- The base state of the NTR_BUILD vectors, with VERSION 0x0100. -/
def buildJob : State :=
  { State.reset with srcAddr := 0x0100#32, dstAddr := 0x0200#32, dstCap := 0x100#32, ntrTag := 0x4E434C52#32,
                     ntrVer := 0x0100#16, ntrNblk := 2#16, mem := buildCells }

/-- The operands of vector T1. -/
def tileJob : State := { job 0#32 128#32 0x1000#32 0x100#32 0 (ramp 128) with tiles := 2#16 }

/-- A tile at 0x100. -/
def flipJob : State := { State.reset with dstAddr := 0x100#32, mem := cellsFrom 0x100 (ramp 64) }

/-- The operands of vector K1. -/
def cipherJob : State :=
  { job 0x10#32 6#32 0x20#32 6#32 0x10 [0x00#8, 0x00#8, 0x11#8, 0x22#8, 0x33#8, 0x44#8] with keyIn := 0x12345678#32 }

/-- The example of R241. -/
def decipherJob : State := job 0x10#32 6#32 0x20#32 6#32 0x10 [0x78#8, 0x56#8, 0x34#8, 0x12#8, 0xF0#8, 0xDE#8]

/-- A record for OAM_ENC. -/
def encJob (x y : Half) (attr : Word) : State :=
  { State.reset with recX := x, recY := y, recAttr := recAttrOfWord attr }

/-! ## Well-formedness (R68, R90) -/

theorem test_wf_instructions : Instr.wf .ntrParse = true ∧ Instr.wf .decipher = true := by decide

theorem test_wf_register_width : HostAction.wf Params.standard (.regWrite 2 0x10 0) = false := by decide

theorem test_wf_register_offset : HostAction.wf Params.standard (.regRead 4 0x12) = false := by decide

theorem test_wf_register_aperture :
    HostAction.wf Params.standard (.regRead 4 0x100) = false ∧ HostAction.wf Params.standard (.regRead 4 0xFC) = true := by
  decide

theorem test_wf_mem_write :
    HostAction.wf Params.standard (.memWrite 0xFFFF [1#8, 2#8]) = false
      ∧ HostAction.wf Params.standard (.memWrite 0xFFFF [1#8]) = true := by decide

theorem test_wf_mem_read :
    HostAction.wf Params.standard (.memRead 0x10000 1) = false
      ∧ HostAction.wf Params.standard (.memRead 0xFFFF 1) = true := by decide

/-! ## Decoding: words written out from the opcode map of R93 and the ignored bits of R90 -/

theorem test_decode_ntrParse : decode 0b00000000000000000000000000010000#32 = .ok .ntrParse := by decide

theorem test_decode_ntrBuild : decode 0b00000000000000000000000000010001#32 = .ok .ntrBuild := by decide

theorem test_decode_pix2tile : decode 0b00000000000000000000000000100000#32 = .ok .pix2tile := by decide

theorem test_decode_tile2pix : decode 0b00000000000000000000000000100001#32 = .ok .tile2pix := by decide

theorem test_decode_tileHflip : decode 0b00000000000000000000000000100010#32 = .ok .tileHflip := by decide

theorem test_decode_tileVflip : decode 0b00000000000000000000000000100011#32 = .ok .tileVflip := by decide

theorem test_decode_oamDec : decode 0b00000000000000000000000000110000#32 = .ok .oamDec := by decide

theorem test_decode_oamEnc : decode 0b00000000000000000000000000110001#32 = .ok .oamEnc := by decide

theorem test_decode_cipher : decode 0b00000000000000000000000001000000#32 = .ok .cipher := by decide

theorem test_decode_decipher : decode 0b00000000000000000000000001000001#32 = .ok .decipher := by decide

theorem test_decode_ignores_high_bits : decode 0b11111111111111111111111100110001#32 = .ok .oamEnc := by decide

theorem test_decode_refuses_reserved :
    decode 0x00000000#32 = .error (.illegalOpcode 0x00#8) ∧ decode 0x00001042#32 = .error (.illegalOpcode 0x42#8) := by
  decide

theorem test_decodeTableWord : decodeTableWord 32 0x22 = some .tileHflip ∧ decodeTableWord 32 0x99 = none := by decide

/-- R99: the bus transactions of `tile.hflip 0x100`. -/
theorem test_script_hflip :
    scriptTileHflip 0x100#32 = [.regWrite 4 0x18 0x00000100#32, .regWrite 4 0x04 0x00000022#32, .wait] := by decide

/-- An accepted CMD write runs as the first command after reset. -/
theorem test_withFetchWord_runs :
    regAfter .status (step (State.reset.withFetchWord 32 0x30)) = some 0x00000002#32 := by decide

/-! ## One step an instruction -/

/-- 95_test_vectors.md NP1. -/
theorem test_ntrParse :
    regAfter .ntrTag (exec .ntrParse parseJob) = some 0x4E434C52#32
      ∧ regAfter .resultLen (exec .ntrParse parseJob) = some 24#32
      ∧ bytesAfter 0x0300 24 (exec .ntrParse parseJob)
        = some [0x54#8, 0x54#8, 0x4C#8, 0x50#8, 0x18#8, 0x02#8, 0x00#8, 0x00#8, 0x04#8, 0x00#8, 0x00#8, 0x00#8,
            0x50#8, 0x4D#8, 0x43#8, 0x50#8, 0x24#8, 0x02#8, 0x00#8, 0x00#8, 0x00#8, 0x00#8, 0x00#8, 0x00#8] := by
  decide +kernel

/-- 95_test_vectors.md NP4, NP5 and NP6. -/
theorem test_ntrParse_errors :
    regAfter .status (exec .ntrParse { parseJob with dstAddr := 0x0223#32, dstCap := 0x10#32 }) = some 0x00040304#32
      ∧ regAfter .status (exec .ntrParse { parseJob with dstAddr := 0x0224#32, dstCap := 0x10#32 })
        = some 0x00050304#32
      ∧ regAfter .status (exec .ntrParse { parseJob with srcLen := 0#32 }) = some 0x00400104#32 := by decide +kernel

/-- 95_test_vectors.md NB1. -/
theorem test_ntrBuild :
    bytesAfter 0x0200 36 (exec .ntrBuild buildJob) = some c36
      ∧ regAfter .ntrTotal (exec .ntrBuild buildJob) = some 36#32 := by decide +kernel

/-- 95_test_vectors.md NB3 and NB4. -/
theorem test_ntrBuild_errors :
    regAfter .status (exec .ntrBuild { buildJob with ntrVer := 0x0200#16 }) = some 0x00450304#32
      ∧ regAfter .status (exec .ntrBuild { buildJob with dstCap := 35#32 }) = some 0x00050304#32 := by decide +kernel

/-- 95_test_vectors.md T1, the first row of the listing and the start of the second tile. -/
theorem test_pix2tile :
    bytesAfter 0x1000 9 (exec .pix2tile tileJob)
        = some [0x00#8, 0x01#8, 0x02#8, 0x03#8, 0x04#8, 0x05#8, 0x06#8, 0x07#8, 0x10#8]
      ∧ bytesAfter 0x1040 1 (exec .pix2tile tileJob) = some [0x08#8] := by decide +kernel

/-- 95_test_vectors.md T3. -/
theorem test_pix2tile_width_zero :
    regAfter .status (exec .pix2tile State.reset) = some 0x00110304#32 := by decide +kernel

/-- The listing of `tiles_to_pixels(q, 2)`: the second half of the first scanline is the second tile. -/
theorem test_tile2pix :
    bytesAfter 0x1007 2 (exec .tile2pix tileJob) = some [0x07#8, 0x40#8]
      ∧ bytesAfter 0x1010 1 (exec .tile2pix tileJob) = some [0x08#8] := by decide +kernel

/-- R168's example: row 0 and row 7. -/
theorem test_tileHflip :
    bytesAfter 0x100 8 (exec .tileHflip flipJob)
        = some [0x07#8, 0x06#8, 0x05#8, 0x04#8, 0x03#8, 0x02#8, 0x01#8, 0x00#8]
      ∧ bytesAfter 0x138 2 (exec .tileHflip flipJob) = some [0x3F#8, 0x3E#8] := by decide +kernel

/-- R169's example: row 0 and row 7. -/
theorem test_tileVflip :
    bytesAfter 0x100 2 (exec .tileVflip flipJob) = some [0x38#8, 0x39#8]
      ∧ bytesAfter 0x138 2 (exec .tileVflip flipJob) = some [0x00#8, 0x01#8] := by decide +kernel

/-- R200's example. -/
theorem test_oamDec :
    regAfter .recPos (exec .oamDec { State.reset with oamW0 := 0x40F0#16, oamW1 := 0x81F0#16, oamW2 := 0x5401#16 })
        = some 0xFFF0FFF0#32
      ∧ regAfter .recAttr (exec .oamDec { State.reset with oamW0 := 0x40F0#16, oamW1 := 0x81F0#16, oamW2 := 0x5401#16 })
        = some 0x05401900#32 := by decide +kernel

theorem test_oamDec_shape :
    regAfter .status (exec .oamDec { State.reset with oamW0 := 0xC000#16 }) = some 0x00200204#32 := by decide +kernel

/-- R210's example. -/
theorem test_oamEnc :
    regAfter .oamW0 (exec .oamEnc (encJob 0xFFF0#16 0xFFF0#16 0x05401900#32)) = some 0x40F0#32
      ∧ regAfter .oamW1 (exec .oamEnc (encJob 0xFFF0#16 0xFFF0#16 0x05401900#32)) = some 0x81F0#32
      ∧ regAfter .oamW2 (exec .oamEnc (encJob 0xFFF0#16 0xFFF0#16 0x05401900#32)) = some 0x5401#32 := by decide +kernel

/-- R211's examples of the ranges. -/
theorem test_oamEnc_ranges :
    regAfter .status (exec .oamEnc (encJob 0xFEFF#16 0#16 0#32)) = some 0x00210304#32
      ∧ regAfter .status (exec .oamEnc (encJob 0#16 0x0080#16 0x300#32)) = some 0x00220304#32
      ∧ regAfter .status (exec .oamEnc (encJob 0xFF00#16 0xFF80#16 0x300#32)) = some 0x00230304#32 := by decide +kernel

/-- 95_test_vectors.md K1. -/
theorem test_cipher :
    bytesAfter 0x20 6 (exec .cipher cipherJob) = some [0x37#8, 0x27#8, 0xCF#8, 0xF6#8, 0xCA#8, 0xE2#8] := by
  decide +kernel

theorem test_cipher_odd :
    regAfter .status (exec .cipher { cipherJob with srcLen := 5#32 }) = some 0x00300304#32 := by decide +kernel

/-- R241's example. -/
theorem test_decipher :
    bytesAfter 0x20 6 (exec .decipher decipherJob) = some [0x00#8, 0x00#8, 0xBF#8, 0xD3#8, 0x52#8, 0xFC#8]
      ∧ regAfter .keyOut (exec .decipher decipherJob) = some 0xCAC67B6D#32 := by decide +kernel

theorem test_decipher_empty :
    regAfter .status (exec .decipher State.reset) = some 0x00310304#32 := by decide +kernel

/-- 30_encoding.md R95: a reserved OPCODE completes with ILLEGAL_OPCODE. -/
theorem test_illegal_opcode : regAfter .status (step (running 0x00#8)) = some 0x00010404#32 := by decide

/-- R44: a CMD write while BUSY = 1 sets OVR. -/
theorem test_overrun :
    regAfter .status (step (hostDoesBusy 0x10#8 [cmd .oamDec])) = some 0x00000009#32
      ∧ regAfter .cmd (step (hostDoesBusy 0x10#8 [cmd .oamDec])) = some 0x00000010#32 := by decide

/-- R42, R68: the last word of the aperture reads 0, and the access behind it is refused. -/
theorem test_aperture_end :
    (nextOf (step (hostDoes [.regRead 4 0xFC]))).map (fun t => t.reads) = some [.reg 0xFC 0]
      ∧ isRefused (step (hostDoes [.regRead 4 0x100])) = true := by decide


/-! ## Witnesses: for each obligation with hypotheses, concrete data that meet them; its clauses at their boundaries -/

/-- A state with the command of an OPCODE running, its other fields those of `s`. -/
def start (op : Byte) (s : State) : State := { s with opcode := op, status := s.status.start }

/-- The host's turn while a command runs: it does these actions next. -/
def interrupting (op : Byte) (actions : List HostAction) (s : State) : State :=
  { start op s with script := actions, turns := [.host] }

/-- STATUS after the command. -/
def statusAfter (i : Instr) (s : State) : Option Word := regAfter .status (exec i s)

theorem witness_DecodeInvertsEncode : Instr.wf .decipher = true ∧ decode 0xFFFFFF41#32 = .ok .decipher := by decide

theorem witness_ReservedOpcodeCompletesIllegal :
    (hostDoes [.regWrite 4 0x04 0xFFFFFF00#32]).status.busy = false
      ∧ (hostDoes [.regWrite 4 0x04 0xFFFFFF00#32]).script = [.regWrite 4 0x04 0xFFFFFF00#32]
      ∧ ReservedOpcode ((0xFFFFFF00#32).toNat % 256)
      ∧ EngineMoves (running 0xFF#8) ∧ ReservedOpcode (running 0xFF#8).opcode.toNat := by
  unfold ReservedOpcode EngineMoves; decide

/-- The ends of the reserved ranges. -/
theorem witness_ReservedOpcode_bounds :
    ReservedOpcode 0x0F
      ∧ ReservedOpcode 0x12 ∧ ReservedOpcode 0x1F ∧ ReservedOpcode 0x24 ∧ ReservedOpcode 0x2F
      ∧ ReservedOpcode 0x32 ∧ ReservedOpcode 0x3F ∧ ReservedOpcode 0x42 ∧ ReservedOpcode 0xFF := by
  unfold ReservedOpcode; omega

theorem witness_StepRunsPendingCommand :
    EngineMoves (running 0x30#8) ∧ (0xABCDEF30#32).extractLsb' 0 8 = (running 0x30#8).opcode
      ∧ decode 0xABCDEF30#32 = .ok .oamDec
      ∧ EngineMoves { running 0x30#8 with script := [.wait], turns := [.engine, .host] }
      ∧ EngineMoves { running 0x30#8 with turns := [.host] } := by
  unfold EngineMoves; decide

theorem witness_StepRunsHostAccess :
    HostMoves (hostDoes []) ∧ HostMoves (hostDoesBusy 0x30#8 [.wait]) := by
  unfold HostMoves; decide

theorem witness_CmdWriteStartsCommand :
    (hostDoes [cmd .oamDec]).status.busy = false
      ∧ (hostDoes [cmd .oamDec]).script = .regWrite 4 0x04 0x00000030#32 :: [] := by decide

/-- One register of each access type. -/
theorem witness_RegisterWriteObeysAccessType :
    (hostDoes [wr .recAttr 0xFFFFFFFF#32]).status.busy = false ∧ Reg.recAttr ≠ .cmd
      ∧ (hostDoes [wr .recAttr 0xFFFFFFFF#32]).script = .regWrite 4 (Reg.offset .recAttr) 0xFFFFFFFF#32 :: []
      ∧ (Reg.recAttr, 0x0FFFFFFF#32) ∈ storeMasks ∧ Reg.ntrTotal ∈ readOnlyRegs
      ∧ (hostDoes [ack]).script = .regWrite 4 (Reg.offset .status) 0x0000000E#32 :: []
      ∧ (hostDoes [wr .irqen 3#32]).script = .regWrite 4 (Reg.offset .irqen) 3#32 :: [] := by decide

theorem witness_BusyRegisterAccess :
    (hostDoesBusy 0x10#8 [wr .srcAddr 1#32]).status.busy = true
      ∧ (hostDoesBusy 0x10#8 [wr .srcAddr 1#32]).turns.head? = some .host
      ∧ (hostDoesBusy 0x10#8 [wr .srcAddr 1#32]).script = .regWrite 4 (Reg.offset .srcAddr) 1#32 :: []
      ∧ (hostDoesBusy 0x10#8 [cmd .oamDec]).script = .regWrite 4 (Reg.offset .cmd) 0x30#32 :: []
      ∧ (hostDoesBusy 0x10#8 [ack]).script = .regWrite 4 (Reg.offset .status) 0xE#32 :: []
      ∧ (hostDoesBusy 0x10#8 [wr .irqen 1#32]).script = .regWrite 4 (Reg.offset .irqen) 1#32 :: []
      ∧ (hostDoesBusy 0x10#8 [rd .ntrTotal]).script = .regRead 4 (Reg.offset .ntrTotal) :: [] := by decide

theorem witness_RegisterReadHasNoSideEffect :
    HostMoves (hostDoes [rd .id]) ∧ (hostDoes [rd .id]).script = .regRead 4 (Reg.offset .id) :: []
      ∧ HostMoves (hostDoesBusy 0x41#8 [rd .keyOut])
      ∧ (hostDoesBusy 0x41#8 [rd .keyOut]).script = .regRead 4 (Reg.offset .keyOut) :: [] := by
  unfold HostMoves; decide

theorem witness_ReservedOffsetsReadZero :
    HostMoves (hostDoes [.regRead 4 0x54]) ∧ (hostDoes [.regRead 4 0x54]).script = .regRead 4 0x54 :: []
      ∧ 0x54 % 4 = 0 ∧ HostMoves (hostDoes [.regWrite 4 0xFC 7#32])
      ∧ (hostDoes [.regWrite 4 0xFC 7#32]).script = .regWrite 4 0xFC 7#32 :: [] ∧ 0xFC % 4 = 0 := by
  unfold HostMoves; decide

theorem witness_HostAccessInterface_registers :
    HostMoves (hostDoes [.regWrite 2 0x10 0#32]) ∧ (hostDoes [.regWrite 2 0x10 0#32]).script = .regWrite 2 0x10 0#32 :: []
      ∧ HostMoves (hostDoes [.regRead 4 0x0E]) ∧ (hostDoes [.regRead 4 0x0E]).script = .regRead 4 0x0E :: []
      ∧ HostMoves (hostDoes [.regRead 4 0x100]) ∧ (hostDoes [.regRead 4 0x100]).script = .regRead 4 0x100 :: [] := by
  unfold HostMoves; decide

theorem witness_HostAccessInterface_memory :
    HostMoves (hostDoes [.memWrite 0x10000 [1#8]]) ∧ State.reset.params.memBytes ≤ 0x10000
      ∧ HostMoves (hostDoes [.memRead 0x10000 (0 + 1)]) ∧ HostMoves (hostDoes [.memWrite 0xFFFF [1#8, 2#8]])
      ∧ 0xFFFF < State.reset.params.memBytes ∧ HostMoves (hostDoes [.memRead 0xFFFF (1 + 1)]) := by
  unfold HostMoves; decide

/-- The last byte of MEM while nothing runs; the two bytes around the destination window while PIX2TILE runs. -/
theorem witness_HostByteAccess :
    HostMoves (hostDoes [.memWrite 0xFFFF [1#8]]) ∧ (hostDoes [.memWrite 0xFFFF [1#8]]).inFootprint 0xFFFF = false
      ∧ HostMoves (interrupting 0x20#8 [.memRead 0xFFF 1] tileJob)
      ∧ (interrupting 0x20#8 [.memRead 0xFFF 1] tileJob).inFootprint 0xFFF = false
      ∧ (interrupting 0x20#8 [.memWrite 0x1100 [9#8]] tileJob).inFootprint 0x1100 = false := by
  unfold HostMoves; decide +kernel

/-- The first and the last byte of the window read and of the destination window, for OAM_DEC and for a reserved OPCODE
too. -/
theorem witness_FootprintAccessIsHazard :
    (interrupting 0x20#8 [.memWrite 127 [9#8]] tileJob).status.busy = true
      ∧ (interrupting 0x20#8 [.memWrite 127 [9#8]] tileJob).turns.head? = some .host
      ∧ decodeOpcode (interrupting 0x20#8 [.memWrite 127 [9#8]] tileJob).opcode = .ok .pix2tile
      ∧ (⟨0, 128⟩ : Window) ∈ (interrupting 0x20#8 [.memWrite 127 [9#8]] tileJob).readWindows .pix2tile
      ∧ (interrupting 0x20#8 [.memWrite 127 [9#8]] tileJob).script = .memWrite 127 [9#8] :: []
      ∧ (interrupting 0x20#8 [.memRead 0x1000 1] tileJob).destWindow .pix2tile = ⟨0x1000, 0x100⟩
      ∧ (interrupting 0x20#8 [.memRead 0x1000 1] tileJob).inFootprint 0x1000 = true
      ∧ (interrupting 0x20#8 [.memRead 0x10FF 1] tileJob).inFootprint 0x10FF = true
      ∧ (interrupting 0x20#8 [.memRead 0 1] tileJob).inFootprint 0 = true
      ∧ decodeOpcode (interrupting 0x30#8 [.memRead 0x10FF 1] tileJob).opcode = .ok .oamDec
      ∧ (interrupting 0x30#8 [.memRead 0x10FF 1] tileJob).destWindow .oamDec = ⟨0x1000, 0x100⟩
      ∧ (interrupting 0x42#8 [.memWrite 0x1000 [9#8]] tileJob).dstWindow = ⟨0x1000, 0x100⟩
      ∧ 0x42 ≤ (interrupting 0x42#8 [.memWrite 0x1000 [9#8]] tileJob).opcode.toNat := by decide +kernel

theorem witness_HazardIsSticky :
    ({ hostDoes [.reset] with hazard := some .footprintHazard } : State).hazard = some .footprintHazard
      ∧ (nextOf (step { hostDoes [.reset] with hazard := some .footprintHazard })).isSome = true := by decide

/-- Each clause, at the last byte inside and the first byte outside. -/
theorem witness_FootprintIsReadAndDestination :
    ((start 0x20#8 tileJob).status.busy = true ∧ (start 0x20#8 tileJob).opcode ∈ [0x10#8, 0x20#8, 0x21#8, 0x40#8, 0x41#8]
      ∧ (start 0x20#8 tileJob).inFootprint 127 = true ∧ (start 0x20#8 tileJob).inFootprint 128 = false)
    ∧ ((start 0x11#8 buildJob).opcode = 0x11#8
      ∧ (start 0x11#8 buildJob).srcAddr.toNat + 12 * (start 0x11#8 buildJob).ntrNblk.toNat ≤ buildJob.params.memBytes
      ∧ (start 0x11#8 buildJob).inFootprint 0x117 = true ∧ (start 0x11#8 buildJob).inFootprint 0x118 = false
      ∧ (start 0x11#8 buildJob).inFootprint 0x143 = true ∧ (start 0x11#8 buildJob).inFootprint 0x144 = false)
    ∧ ((start 0x22#8 flipJob).opcode ∈ [0x22#8, 0x23#8]
      ∧ (start 0x22#8 flipJob).inFootprint 0x13F = true ∧ (start 0x22#8 flipJob).inFootprint 0x140 = false)
    ∧ ((start 0x30#8 tileJob).opcode ∈ [0x30#8, 0x31#8] ∧ (start 0x30#8 tileJob).inFootprint 127 = false
      ∧ (start 0x30#8 tileJob).inFootprint 0x10FF = true ∧ (start 0x30#8 tileJob).inFootprint 0x1100 = false
      ∧ (start 0x42#8 tileJob).inFootprint 0x1000 = true ∧ (start 0x42#8 tileJob).inFootprint 0xFFF = false) := by
  decide +kernel

theorem witness_ResetReturnsRegisters :
    HostMoves (hostDoes [.reset]) ∧ (hostDoes [.reset]).script = .reset :: [] ∧ (hostDoes [.reset]).status.busy = false
      ∧ HostMoves (interrupting 0x20#8 [.reset] tileJob)
      ∧ HostMoves (hostDoes [.powerOn]) ∧ (hostDoes [.powerOn]).script = .powerOn :: [] := by
  unfold HostMoves; decide

/-- A flip whose tile ends with MEM, its last byte; OAM_DEC with a window that runs past MEM, its last byte in MEM. -/
theorem witness_ResetAbandonsRunningCommand :
    (interrupting 0x22#8 [.reset] { flipJob with dstAddr := 0xFFC0#32 }).status.busy = true
      ∧ (interrupting 0x22#8 [.reset] { flipJob with dstAddr := 0xFFC0#32 }).turns.head? = some .host
      ∧ (interrupting 0x22#8 [.reset] { flipJob with dstAddr := 0xFFC0#32 }).opcode = 0x22#8
      ∧ (interrupting 0x22#8 [.reset] { flipJob with dstAddr := 0xFFC0#32 }).script = .reset :: []
      ∧ 63 < 64 ∧ (0xFFC0#32).toNat + 63 < State.reset.params.memBytes
      ∧ (interrupting 0x30#8 [.reset] { tileJob with dstAddr := 0xFFC0#32 }).opcode = 0x30#8
      ∧ (interrupting 0x30#8 [.reset] { tileJob with dstAddr := 0xFFC0#32 }).dstCap.toNat = 256 ∧ 63 < 256
      ∧ (interrupting 0x30#8 [.reset] { tileJob with dstAddr := 0xFFC0#32 }).script = .reset :: [] := by decide +kernel

theorem witness_PowerOnDrawsMemory :
    HostMoves (hostDoes [.powerOn]) ∧ (hostDoes [.powerOn]).script = .powerOn :: []
      ∧ HostMoves (hostDoesBusy 0x10#8 [.powerOn]) := by
  unfold HostMoves; decide

/-- An interrupt cleared by the two bits of STATUS alone, and one cleared by the start of a command. -/
theorem witness_IrqIsLevelOfCompletion :
    ({ hostDoes [wr .status 6#32] with ie := true, status := Status.reset.finishOk } : State).irq = true
      ∧ HostMoves { hostDoes [wr .status 6#32] with ie := true, status := Status.reset.finishOk }
      ∧ (hostDoes [wr .status 6#32]).script = .regWrite 4 0x08 6#32 :: [] ∧ 6#32 &&& 0x00000006#32 = 0x00000006#32
      ∧ ({ hostDoes [cmd .oamDec] with ie := true, status := Status.reset.finishOk } : State).status.busy = false
      ∧ (hostDoes [cmd .oamDec]).script = .regWrite 4 0x04 0x30#32 :: [] := by
  unfold HostMoves; decide

theorem witness_RunningCommandEnds :
    (running 0x30#8).status.busy = true ∧ (nextOf (step (running 0x30#8))).isSome = true
      ∧ (nextOf (step (hostDoesBusy 0x30#8 [rd .id]))).isSome = true := by decide

theorem witness_EveryCommandCompletes : State.reset.status.err = false := by decide

/-- An error that leaves MEM unchanged, one that spoils the destination window, and one of NTR_BUILD. -/
theorem witness_ErrorCommit :
    statusAfter .oamDec { State.reset with oamW0 := 0xC000#16 } = some 0x00200204#32
      ∧ 0x20#8 ∈ cleanCodes
      ∧ statusAfter .pix2tile { tileJob with tiles := 0#16 } = some 0x00110304#32
      ∧ 0x11#8 ∉ cleanCodes ∧ 255 < ({ tileJob with tiles := 0#16 } : State).dstCap.toNat
      ∧ ({ tileJob with tiles := 0#16 } : State).srcWindow.has 127 = true
      ∧ statusAfter .ntrBuild { buildJob with ntrVer := 0x0200#16 } = some 0x00450304#32
      ∧ ({ buildJob with ntrVer := 0x0200#16 } : State).tableWindow.has 0x117 = true := by decide +kernel

theorem witness_ErrorIdentityIsInTable :
    State.reset.status.err = false ∧ statusAfter .pix2tile State.reset = some 0x00110304#32 := by decide +kernel

theorem witness_CommandRegisterFrame : (nextOf (exec .decipher decipherJob)).isSome = true := by decide +kernel

theorem witness_CommandMemoryFrame :
    (nextOf (exec .oamDec State.reset)).isSome = true ∧ State.reset.writeWindow .oamDec = none
      ∧ (nextOf (exec .tileVflip flipJob)).isSome = true
      ∧ flipJob.writeWindow .tileVflip = some ⟨0x100, 64⟩ := by decide +kernel

/-- The two memories differ in the byte after the tile and agree on it. -/
theorem witness_CommandReadsOnlyItsWindows :
    flipJob.readWindows .tileHflip = [⟨0x100, 64⟩]
      ∧ (∀ a, a < 0x100 + 64 → 0x100 ≤ a →
          State.byteAt { flipJob with mem := cellsFrom 0x100 (ramp 65) } a = flipJob.byteAt a)
      ∧ (cellsFrom 0x100 (ramp 65)).stored 0x140 ≠ flipJob.mem.stored 0x140 := by decide +kernel

theorem witness_KeyOutWrittenOnlyByDecipher :
    regAfter .keyOut (step (start 0x41#8 decipherJob)) = some 0xCAC67B6D#32 ∧ decipherJob.keyOut = 0
      ∧ regAfter .keyOut (step { hostDoes [.reset] with keyOut := 5#32 }) = some 0#32
      ∧ regAfter .keyOut (step { hostDoes [.powerOn] with keyOut := 5#32 }) = some 0#32 := by decide +kernel

/-- A completion, a CMD write, a STATUS write, and the two resets. -/
theorem witness_FlagsChangeOnlyByListedEvents :
    regAfter .status (step (running 0x30#8)) = some 2#32 ∧ (running 0x30#8).readReg .status = 1#32
      ∧ regAfter .status (step (hostDoes [cmd .oamDec])) = some 1#32 ∧ (hostDoes []).readReg .status = 0#32
      ∧ regAfter .status (step { hostDoes [ack] with status := Status.reset.finishOk }) = some 0#32
      ∧ regAfter .status (step { hostDoes [.reset] with status := Status.reset.finishOk }) = some 0#32
      ∧ regAfter .status (step { hostDoes [.powerOn] with status := Status.reset.finishOk }) = some 0#32 := by
  decide

theorem witness_StepKeepsMemoryLegal :
    (start 0x23#8 flipJob).MemoryLegal ∧ (nextOf (step (start 0x23#8 flipJob))).isSome = true := by
  unfold State.MemoryLegal; decide +kernel

theorem witness_StepKeepsStatusLegal :
    (running 0x30#8).status.Legal ∧ (nextOf (step (running 0x30#8))).isSome = true := by
  refine ⟨?_, by decide⟩
  unfold Status.Legal Status.NoError
  exact ⟨by decide, by decide, fun h => absurd h (by decide), .inl (by decide)⟩

/-- The last pixel of the image, and an empty image. -/
theorem witness_PixToTileRearranges :
    WindowsOk tileJob tileJob.srcAddr.toNat tileJob.srcLen.toNat ∧ tileJob.srcLen.toNat % 64 = 0
      ∧ tileJob.tiles.toNat ≠ 0 ∧ tileJob.srcLen.toNat / 64 % tileJob.tiles.toNat = 0
      ∧ tileJob.srcLen.toNat ≤ tileJob.dstCap.toNat
      ∧ 15 < 8 * tileJob.tiles.toNat ∧ 7 * (8 * tileJob.tiles.toNat) + 15 < tileJob.srcLen.toNat := by
  unfold WindowsOk Overlap; decide +kernel

theorem witness_TileToPixRearranges :
    WindowsOk { tileJob with srcLen := 0#32 } 0 0 ∧ (0#32).toNat % 64 = 0
      ∧ tileJob.tiles.toNat ≠ 0 ∧ (0#32).toNat / 64 % tileJob.tiles.toNat = 0 := by
  unfold WindowsOk Overlap; decide +kernel

/-- Each check is the first violated one of some state, by the least margin. -/
theorem witness_TileErrorsInOrder :
    statusAfter .pix2tile { tileJob with srcAddr := 0xFF81#32 } = some 0x00020304#32
      ∧ statusAfter .tile2pix { tileJob with dstAddr := 0xFF01#32 } = some 0x00030304#32
      ∧ statusAfter .pix2tile { tileJob with dstAddr := 127#32 } = some 0x00040304#32
      ∧ statusAfter .tile2pix { tileJob with srcLen := 127#32 } = some 0x00100304#32
      ∧ statusAfter .pix2tile { tileJob with tiles := 0#16 } = some 0x00110304#32
      ∧ statusAfter .tile2pix { tileJob with tiles := 3#16 } = some 0x00120304#32
      ∧ statusAfter .pix2tile { tileJob with dstCap := 127#32 } = some 0x00050304#32
      ∧ statusAfter .tile2pix { tileJob with dstCap := 128#32 } = some 2#32 := by decide +kernel

/-- The last tile that is in MEM and the first that is not. -/
theorem witness_HflipMirrorsRows :
    ({ flipJob with dstAddr := 0xFFC0#32 } : State).dstAddr.toNat + 64 ≤ State.reset.params.memBytes
      ∧ statusAfter .tileHflip { flipJob with dstAddr := 0xFFC1#32 } = some 0x00030304#32 := by decide +kernel

theorem witness_VflipMirrorsColumns :
    flipJob.dstAddr.toNat + 64 ≤ flipJob.params.memBytes
      ∧ statusAfter .tileVflip { flipJob with dstAddr := 0xFFFFFFFF#32 } = some 0x00030304#32 := by decide +kernel

theorem witness_TileTransformsInvert :
    (ramp 128).length % 64 = 0 ∧ 2 ≠ 0 ∧ (ramp 128).length / 64 % 2 = 0 := by decide +kernel

theorem witness_FlipLaws : (ramp 64).length = 64 := by decide +kernel

theorem witness_OamDecUnpacksTriple :
    (0xC000#16).toNat / 2 ^ 14 = 3 ∧ (0xBFFF#16).toNat / 2 ^ 14 ≠ 3
      ∧ regAfter .recPos (exec .oamDec { State.reset with oamW0 := 0xBF80#16, oamW1 := 0x0100#16 })
        = some 0xFF80FF00#32
      ∧ regAfter .recPos (exec .oamDec { State.reset with oamW0 := 0xBF7F#16, oamW1 := 0x00FF#16 })
        = some 0x007F00FF#32 := by decide +kernel

/-- Both ends of the two ranges. -/
theorem witness_OamEncPacksRecord :
    -256 ≤ (0xFF00#16).toInt ∧ (0x00FF#16).toInt ≤ 255 ∧ -128 ≤ (0xFF80#16).toInt ∧ (0x007F#16).toInt ≤ 127
      ∧ (recAttrOfWord 0xFFFFFEFF#32).shape ≠ 3#2
      ∧ regAfter .oamW1 (exec .oamEnc (encJob 0xFF00#16 0xFF80#16 0#32)) = some 0x0100#32
      ∧ regAfter .oamW1 (exec .oamEnc (encJob 0x00FF#16 0x007F#16 0#32)) = some 0x00FF#32 := by decide +kernel

theorem witness_OamEncErrorsInOrder :
    statusAfter .oamEnc (encJob 0x0100#16 0x7FFF#16 0x300#32) = some 0x00210304#32
      ∧ statusAfter .oamEnc (encJob 0xFEFF#16 0#16 0#32) = some 0x00210304#32
      ∧ statusAfter .oamEnc (encJob 0x00FF#16 0xFF7F#16 0x300#32) = some 0x00220304#32
      ∧ statusAfter .oamEnc (encJob 0#16 0#16 0x300#32) = some 0x00230304#32 := by decide +kernel

/-- R212's example of a triple with unused bits set, and a legal triple. -/
theorem witness_OamTripleRoundTrip :
    (0xBFFF#16).extractLsb' 14 2 ≠ 3#2 ∧ (0xFFFF#16).extractLsb' 9 3 ≠ 0#3 ∧ (0xF1FF#16).extractLsb' 9 3 = 0#3 := by
  decide

theorem witness_OamRecordRoundTrip :
    -256 ≤ (encJob 0xFF00#16 0x007F#16 0x0FFFFEFF#32).recX.toInt
      ∧ (encJob 0xFF00#16 0x007F#16 0x0FFFFEFF#32).recX.toInt ≤ 255
      ∧ -128 ≤ (encJob 0xFF00#16 0x007F#16 0x0FFFFEFF#32).recY.toInt
      ∧ (encJob 0xFF00#16 0x007F#16 0x0FFFFEFF#32).recY.toInt ≤ 127
      ∧ (encJob 0xFF00#16 0x007F#16 0x0FFFFEFF#32).recAttr.shape ≠ 3#2 := by decide

theorem witness_CipherMasksWords :
    WindowsOk cipherJob cipherJob.srcAddr.toNat cipherJob.srcLen.toNat ∧ cipherJob.srcLen.toNat % 2 = 0
      ∧ cipherJob.srcLen.toNat ≤ cipherJob.dstCap.toNat ∧ 2 < cipherJob.srcLen.toNat / 2 := by
  unfold WindowsOk Overlap; decide +kernel

theorem witness_DecipherMasksWords :
    WindowsOk decipherJob decipherJob.srcAddr.toNat decipherJob.srcLen.toNat ∧ decipherJob.srcLen.toNat % 2 = 0
      ∧ decipherJob.srcLen.toNat ≠ 0 ∧ decipherJob.srcLen.toNat ≤ decipherJob.dstCap.toNat
      ∧ 2 < decipherJob.srcLen.toNat / 2 := by
  unfold WindowsOk Overlap; decide +kernel

theorem witness_CipherErrorsInOrder :
    statusAfter .cipher { cipherJob with srcAddr := 0xFFFB#32 } = some 0x00020304#32
      ∧ statusAfter .cipher { cipherJob with dstAddr := 0xFFFB#32 } = some 0x00030304#32
      ∧ statusAfter .cipher { cipherJob with dstAddr := 0x15#32 } = some 0x00040304#32
      ∧ statusAfter .cipher { cipherJob with srcLen := 7#32 } = some 0x00300304#32
      ∧ statusAfter .cipher { cipherJob with dstCap := 5#32 } = some 0x00050304#32
      ∧ statusAfter .cipher { cipherJob with srcLen := 0#32 } = some 2#32 := by decide +kernel

theorem witness_DecipherErrorsInOrder :
    statusAfter .decipher { decipherJob with srcAddr := 0xFFFB#32 } = some 0x00020304#32
      ∧ statusAfter .decipher { decipherJob with dstAddr := 0xFFFB#32 } = some 0x00030304#32
      ∧ statusAfter .decipher { decipherJob with dstAddr := 0x15#32 } = some 0x00040304#32
      ∧ statusAfter .decipher { decipherJob with srcLen := 1#32 } = some 0x00300304#32
      ∧ statusAfter .decipher { decipherJob with srcLen := 0#32 } = some 0x00310304#32
      ∧ statusAfter .decipher { decipherJob with dstCap := 5#32 } = some 0x00050304#32 := by decide +kernel

theorem witness_RecipherRestores : (ramp 6).length % 2 = 0 ∧ ramp 6 ≠ [] := by decide

theorem witness_CipherThenDecipher :
    [0x00#8, 0x00#8, 0x11#8, 0x22#8].length % 2 = 0
      ∧ [0x00#8, 0x00#8, 0x11#8, 0x22#8].take 2 = [0#8, 0#8] := by decide

/-- The two blocks of C36. -/
def c36Blocks : List Block := [⟨[0x54#8, 0x54#8, 0x4C#8, 0x50#8], 24, 4⟩, ⟨[0x50#8, 0x4D#8, 0x43#8, 0x50#8], 36, 0⟩]

theorem witness_NtrParseWritesDescriptors :
    (WindowsOk parseJob parseJob.srcAddr.toNat parseJob.srcLen.toNat ∧ 16 ≤ parseJob.srcLen.toNat)
      ∧ parseJob.memRead (parseJob.srcAddr.toNat + 4) 2 = parseJob.params.ntrBom.toNat
      ∧ VersionOk parseJob (parseJob.memRead (parseJob.srcAddr.toNat + 6) 2)
      ∧ parseJob.memRead (parseJob.srcAddr.toNat + 12) 2 = 16
      ∧ parseJob.memRead (parseJob.srcAddr.toNat + 14) 2 = c36Blocks.length
      ∧ 12 * c36Blocks.length ≤ parseJob.dstCap.toNat
      ∧ FramedFrom parseJob.srcBytes 16 c36Blocks := by
  unfold WindowsOk Overlap VersionOk c36Blocks FramedFrom FramedFrom FramedFrom; decide +kernel

/-- Every truncation of the header, and each other check. -/
theorem witness_NtrParseHeaderErrorsInOrder :
    statusAfter .ntrParse { parseJob with srcAddr := 0xFFDD#32 } = some 0x00020304#32
      ∧ statusAfter .ntrParse { parseJob with dstAddr := 0xFFD1#32 } = some 0x00030304#32
      ∧ statusAfter .ntrParse { parseJob with dstAddr := 0x0223#32 } = some 0x00040304#32
      ∧ [3#32, 5#32, 7#32, 11#32, 13#32, 15#32].map (fun n => statusAfter .ntrParse { parseJob with srcLen := n })
        = [some 0x00400104#32, some 0x00400104#32, some 0x00400104#32, some 0x00400104#32, some 0x00400104#32,
           some 0x00400104#32]
      ∧ statusAfter .ntrParse { parseJob with params := { Params.standard with ntrBom := 0xFFFE#16 } }
        = some 0x00410204#32
      ∧ statusAfter .ntrParse { parseJob with params := { Params.standard with ntrVerA := 0x0102#16 } }
        = some 0x00420204#32
      ∧ statusAfter .ntrParse { parseJob with mem := parseJob.mem.write 0x020C [0x11#8] } = some 0x00430104#32
      ∧ statusAfter .ntrParse { parseJob with dstCap := 23#32 } = some 0x00050304#32 := by decide +kernel

/-- The hypotheses hold before the second block of C36, at 28; there each of the three errors is met. -/
theorem witness_NtrParseBlockErrorsInOrder :
    (WindowsOk { parseJob with srcLen := 35#32 } 0x0200 35 ∧ 16 ≤ 35
      ∧ 1 < State.memRead { parseJob with srcLen := 35#32 } 0x020E 2
      ∧ 12 * State.memRead { parseJob with srcLen := 35#32 } 0x020E 2 ≤ 0x30
      ∧ FramedFrom (State.srcBytes { parseJob with srcLen := 35#32 }) 16 (c36Blocks.take 1)
      ∧ 16 + ((c36Blocks.take 1).map (fun k => k.len + 8)).sum = 28 ∧ 28 + 8 > 35)
    ∧ statusAfter .ntrParse { parseJob with srcLen := 35#32 } = some 0x00400104#32
    ∧ statusAfter .ntrParse { parseJob with mem := parseJob.mem.write 0x0220 [0x07#8] } = some 0x00440104#32
    ∧ statusAfter .ntrParse { parseJob with mem := parseJob.mem.write 0x0220 [0x09#8] } = some 0x00400104#32 := by
  unfold WindowsOk Overlap c36Blocks
  refine ⟨⟨by decide +kernel, by decide, by decide +kernel, by decide +kernel, ?_, by decide, by decide⟩,
    by decide +kernel, by decide +kernel, by decide +kernel⟩
  simp only [List.take, FramedFrom]
  decide +kernel

theorem witness_NtrBuildWritesContainer :
    (WindowsOk buildJob buildJob.srcAddr.toNat (12 * buildJob.ntrNblk.toNat) ∧ VersionOk buildJob buildJob.ntrVer.toNat)
      ∧ (∀ k, k < buildJob.ntrNblk.toNat → WindowsOk buildJob (buildJob.descriptor k).addr (buildJob.descriptor k).len)
      ∧ buildJob.blockOffset buildJob.ntrNblk.toNat ≤ buildJob.dstCap.toNat := by
  unfold WindowsOk Overlap VersionOk; decide +kernel

/-- Each check is the first violated one of some state; the payload checks at the first descriptor. -/
theorem witness_NtrBuildErrorsInOrder :
    statusAfter .ntrBuild { buildJob with srcAddr := 0xFFE9#32 } = some 0x00020304#32
      ∧ statusAfter .ntrBuild { buildJob with dstAddr := 0xFF01#32 } = some 0x00030304#32
      ∧ statusAfter .ntrBuild { buildJob with dstAddr := 0x0117#32 } = some 0x00040304#32
      ∧ statusAfter .ntrBuild { buildJob with ntrVer := 0x0102#16 } = some 0x00450304#32
      ∧ statusAfter .ntrBuild { buildJob with mem := buildJob.mem.write 0x0106 [0x01#8] } = some 0x00020304#32
      ∧ statusAfter .ntrBuild { buildJob with dstAddr := 0x0143#32 } = some 0x00040304#32
      ∧ statusAfter .ntrBuild { buildJob with dstCap := 35#32 } = some 0x00050304#32 := by decide +kernel

theorem witness_NtrStructuralRoundTrip :
    [0x52#8, 0x4C#8, 0x43#8, 0x4E#8].length = 4
      ∧ (∀ k ∈ [([0x54#8, 0x54#8, 0x4C#8, 0x50#8], [0x01#8])], k.1.length = 4)
      ∧ 0x0101 = Params.standard.ntrVerB.toNat ∧ 1 ≤ 65535
      ∧ (ntrBuild Params.standard [0x52#8, 0x4C#8, 0x43#8, 0x4E#8] 0x0101
          [([0x54#8, 0x54#8, 0x4C#8, 0x50#8], [0x01#8])]).length < 2 ^ 32
      ∧ 12 * 1 ≤ 12 := by decide

end Sys2Proof.Tests
end

section
/-! PROOFS. The family 00_scope.md: the reset state meets the invariants, every step keeps MEM legal, and what NTR_PARSE
writes for a well-framed container. -/

namespace Sys2Proof.Machine

/-! ## The reset state -/

/-- Settles O32: nothing is listed in MEM, STATUS is all 0, and the parameters are the default column of R7. -/
theorem resetMeetsInvariants : Obligations.ResetMeetsInvariants := by
  have hStatus : State.reset.status.Legal :=
    ⟨nofun, nofun, nofun, .inl ⟨rfl, rfl⟩⟩
  exact ⟨reset_memory_wf, hStatus, by decide⟩

/-! ## Every step keeps MEM legal -/

/-- The parameters stay, and MEM stays in canonical form and inside MEM_BYTES (R7, R60). -/
def KeepsMemoryLegal (s t : State) : Prop := t.params = s.params ∧ (s.MemoryLegal → t.MemoryLegal)

theorem KeepsMemoryLegal.trans {s t u : State} (h : KeepsMemoryLegal s t) (h' : KeepsMemoryLegal t u) :
    KeepsMemoryLegal s u :=
  ⟨h'.1.trans h.1, fun hs => h'.2 (h.2 hs)⟩

theorem keepsMemoryLegal_of_mem_eq {s t : State} (hm : t.mem = s.mem) (hp : t.params = s.params) :
    KeepsMemoryLegal s t :=
  ⟨hp, fun hs => by rwa [State.MemoryLegal, hm, hp]⟩

theorem spoil_keepsMemoryLegal (s : State) (a n : Nat) : KeepsMemoryLegal s (s.spoil a n) :=
  ⟨rfl, spoil_keeps_memory s a n⟩

theorem fail_keepsMemoryLegal (s : State) (e : ErrCode) : KeepsMemoryLegal s (s.fail e) := by
  unfold State.fail
  split
  · exact (spoil_keepsMemoryLegal s _ _).trans (keepsMemoryLegal_of_mem_eq rfl rfl)
  · exact keepsMemoryLegal_of_mem_eq rfl rfl

theorem writeOffset_keepsMemoryLegal (s : State) (off : Nat) (v : Word) :
    KeepsMemoryLegal s (s.writeOffset off v) := by
  unfold State.writeOffset
  split
  · obtain ⟨hmem, -, hparams, -⟩ := hostWriteReg_keeps s ‹Reg› v
    exact keepsMemoryLegal_of_mem_eq hmem hparams
  · exact keepsMemoryLegal_of_mem_eq rfl rfl

/-- A host byte write keeps MEM legal because R68 admits only addresses below MEM_BYTES. -/
theorem storeByte_keepsMemoryLegal (s : State) (a : Nat) (b : Byte) (h : a < s.params.memBytes) :
    KeepsMemoryLegal s (s.storeByte a b) := by
  unfold State.storeByte
  split
  · exact (spoil_keepsMemoryLegal s a 1).trans (keepsMemoryLegal_of_mem_eq rfl rfl)
  · exact ⟨rfl, writeBytes_legal s _ ⟨a, 1⟩ [b] rfl rfl (Nat.le_refl 1) h⟩

theorem loadByte_keepsMemoryLegal (s : State) (a : Nat) : KeepsMemoryLegal s (s.loadByte a) := by
  unfold State.loadByte
  split <;> exact keepsMemoryLegal_of_mem_eq rfl rfl

theorem abandon_keepsMemoryLegal (s : State) : KeepsMemoryLegal s s.abandon := by
  unfold State.abandon
  split
  · exact spoil_keepsMemoryLegal s _ _
  · exact keepsMemoryLegal_of_mem_eq rfl rfl

theorem powerOnMem_keepsMemoryLegal (s : State) : KeepsMemoryLegal s s.powerOnMem :=
  ⟨rfl, fun _ => by simp [State.MemoryLegal]⟩

/-- Whatever the host's next action leads to. -/
theorem hostEffect_keepsMemoryLegal {s u t : State} (h : HostEffect s u t) (hp : u.params = s.params) :
    KeepsMemoryLegal u t := by
  cases h with
  | quiet => exact keepsMemoryLegal_of_mem_eq rfl rfl
  | regWrite off v rest _ => exact writeOffset_keepsMemoryLegal u off v
  | regRead off => exact keepsMemoryLegal_of_mem_eq rfl rfl
  | store a b ha => exact storeByte_keepsMemoryLegal u a b (hp ▸ ha)
  | load a _ => exact loadByte_keepsMemoryLegal u a
  | reset rest _ => exact (abandon_keepsMemoryLegal u).trans (keepsMemoryLegal_of_mem_eq rfl rfl)
  | powerOn rest _ =>
    have hregs : KeepsMemoryLegal u u.resetRegs := keepsMemoryLegal_of_mem_eq rfl rfl
    exact hregs.trans (powerOnMem_keepsMemoryLegal _)

/-- Whatever a step is: a host action, a completion or an error commit. -/
theorem stepEffect_keepsMemoryLegal {s t : State} (h : StepEffect s t) : KeepsMemoryLegal s t := by
  have hturn : KeepsMemoryLegal s s.endTurn := keepsMemoryLegal_of_mem_eq (by simp) (by simp)
  cases h with
  | host script _ _ he =>
    have hscript : KeepsMemoryLegal s.endTurn (s.endTurn.withScript script) := keepsMemoryLegal_of_mem_eq rfl rfl
    exact (hturn.trans hscript).trans (hostEffect_keepsMemoryLegal he rfl)
  | done i u _ _ hw =>
    have hwrites : KeepsMemoryLegal s.endTurn u := ⟨hw.surroundings.2.1, hw.legal⟩
    exact (hturn.trans hwrites).trans (keepsMemoryLegal_of_mem_eq rfl rfl)
  | error e _ => exact hturn.trans (fail_keepsMemoryLegal _ e)

/-- Settles O33, by cases on everything a step can be. -/
theorem stepKeepsMemoryLegal : Obligations.StepKeepsMemoryLegal :=
  fun _ _ h => stepEffect_keepsMemoryLegal (step_effect h)

/-! ## Reads of MEM as numbers -/

theorem leNat_lt (b : List Byte) : leNat b < 256 ^ b.length := by
  induction b with
  | nil => simp [leNat]
  | cons x b ih =>
    have := x.isLt
    simp only [leNat, List.length_cons, Nat.pow_succ]
    omega

theorem memRead_lt (s : State) (a n : Nat) : s.memRead a n < 256 ^ n := by
  have h := leNat_lt (s.memBytes a n)
  rwa [memBytes_length] at h

theorem u32le_memBytes (s : State) (a : Nat) : u32le (s.memBytes a 4) 0 = s.memRead a 4 := by
  have hbytes : s.memBytes a 4 = [s.byteAt a, s.byteAt (a + 1), s.byteAt (a + 2), s.byteAt (a + 3)] := rfl
  simp only [State.memRead, hbytes, u32le, byteOf, leNat, Nat.zero_add, List.getD_cons_zero, List.getD_cons_succ]
  omega

/-- NTR_TAG of four bytes of MEM is their little-endian number (R38). -/
theorem tagWord_memBytes_toNat (s : State) (a : Nat) : (tagWord (s.memBytes a 4)).toNat = s.memRead a 4 := by
  rw [tagWord, u32le_memBytes, BitVec.toNat_ofNat]
  exact Nat.mod_eq_of_lt (memRead_lt s a 4)

/-! ## NTR_PARSE of a well-framed container -/

/-- What `ntr_parse` returns for the container in the source window, with `blocks` its blocks (R125). -/
def State.parsedAs (s : State) (blocks : List Block) : Parsed where
  tag := s.memBytes s.srcAddr.toNat 4
  ver := s.memRead (s.srcAddr.toNat + 6) 2
  total := s.memRead (s.srcAddr.toNat + 8) 4
  count := blocks.length
  blocks := blocks

/-- `ntr_parse` of a container with a good header and framed blocks (R125). -/
theorem ntrParse_of_framed {s : State} {blocks : List Block} (h16 : 16 ≤ s.srcLen.toNat)
    (hbom : s.memRead (s.srcAddr.toNat + 4) 2 = s.params.ntrBom.toNat)
    (hver : VersionOk s (s.memRead (s.srcAddr.toNat + 6) 2))
    (hhdr : s.memRead (s.srcAddr.toNat + 12) 2 = 16)
    (hcount : s.memRead (s.srcAddr.toNat + 14) 2 = blocks.length)
    (hcap : 12 * blocks.length ≤ s.dstCap.toNat) (hframed : FramedFrom s.srcBytes 16 blocks) :
    ntrParse s.params s.srcBytes s.dstCap.toNat = .ok (s.parsedAs blocks) := by
  have hchecks := headerChecks_none h16 hbom hver hhdr (hcount ▸ hcap)
  have hn : u16le s.srcBytes 14 = blocks.length := (u16le_srcBytes s 14 (by omega)).trans hcount
  simp only [ntrParse, hchecks, hn, parseBlocks_of_framed hframed]
  rw [sliceOf_srcBytes s 0 4 (by omega), u16le_srcBytes s 6 (by omega), u32le_srcBytes s 8 (by omega)]
  rfl

/-- NTR_PARSE completes when its windows pass and `ntr_parse` answers (R127). -/
theorem exec_ntrParse_of_ok {s : State} {r : Parsed} (hwin : WindowsOk s s.srcAddr.toNat s.srcLen.toNat)
    (hparse : ntrParse s.params s.srcBytes s.dstCap.toNat = .ok r) :
    exec .ntrParse s = .next (s.writeParsed r).finish := by
  have hchecks := (windowChecks_none s s.srcWindow).2 hwin
  have hresult : ntrParseResult s = .ok (s.writeParsed r) := by simp only [ntrParseResult, hchecks, hparse]
  show Host.Outcome.next (s.complete (ntrParseResult s)) = _
  rw [hresult, complete_ok]

/-- Every block of a framed list is read at some cursor, whose block header lies in the container (R122, R125). -/
theorem framed_block {b : List Byte} {o : Nat} {blocks : List Block} (h : FramedFrom b o blocks) :
    ∀ k ∈ blocks, ∃ c, c + 8 ≤ b.length ∧ k = ⟨sliceOf b c 4, c + 8, u32le b (c + 4) - 8⟩ := by
  induction blocks generalizing o with
  | nil => simp
  | cons k rest ih =>
    obtain ⟨hheader, -, -, hk, hrest⟩ := h
    intro k' hmem
    rcases List.mem_cons.1 hmem with rfl | hmem
    · exact ⟨o, hheader, hk⟩
    · exact ih hrest k' hmem

/-- A framed block's tag is the four bytes of MEM before its size field (R122). -/
theorem framed_tag_srcBytes {s : State} {o : Nat} {blocks : List Block} (h : FramedFrom s.srcBytes o blocks)
    {k : Block} (hk : k ∈ blocks) : k.tag = s.memBytes (s.srcAddr.toNat + k.off - 8) 4 := by
  obtain ⟨c, hc, rfl⟩ := framed_block h k hk
  rw [srcBytes_length] at hc
  exact sliceOf_srcBytes s c 4 (by omega)

theorem framed_len_lt {b : List Byte} {o : Nat} {blocks : List Block} (h : FramedFrom b o blocks)
    {k : Block} (hk : k ∈ blocks) : k.len < 2 ^ 32 := by
  obtain ⟨c, -, rfl⟩ := framed_block h k hk
  exact Nat.lt_of_le_of_lt (Nat.sub_le _ _) (u32le_lt b (c + 4))

/-- The three fields of descriptor k read back from where the descriptors were written (R124). -/
theorem memBytes_blockDescriptors {s t : State} {d base : Nat} {blocks : List Block}
    (htag : ∀ k ∈ blocks, k.tag.length = 4) (hm : t.mem = s.mem.write d (blocks.flatMap (blockDescriptor base)))
    (hp : t.powerOns = s.powerOns) {k : Nat} (h : k < blocks.length) :
    t.memBytes (d + 12 * k) 4 = blocks[k].tag
      ∧ t.memBytes (d + 12 * k + 4) 4 = le32 (base + blocks[k].off)
      ∧ t.memBytes (d + 12 * k + 8) 4 = le32 blocks[k].len := by
  have hk : blocks[k].tag.length = 4 := htag _ (List.getElem_mem h)
  have hpre : ((blocks.take k).flatMap (blockDescriptor base)).length = 12 * k := by
    rw [blockDescriptors_length _ _ (fun b hb => htag b (List.mem_of_mem_take hb)), List.length_take,
      Nat.min_eq_left (Nat.le_of_lt h)]
  rw [flatMap_split _ _ k h, blockDescriptor] at hm
  generalize (blocks.take k).flatMap (blockDescriptor base) = pre at hm hpre
  generalize (blocks.drop (k + 1)).flatMap (blockDescriptor base) = post at hm
  refine ⟨?_, ?_, ?_⟩
  · have hread := memBytes_part (s := s) (d := d) pre blocks[k].tag
      (le32 (base + blocks[k].off) ++ le32 blocks[k].len ++ post) (by rw [hm]; simp only [List.append_assoc]) hp
    rwa [hpre, hk] at hread
  · have hread := memBytes_part (s := s) (d := d) (pre ++ blocks[k].tag) (le32 (base + blocks[k].off))
      (le32 blocks[k].len ++ post) (by rw [hm]; simp only [List.append_assoc]) hp
    rwa [List.length_append, hpre, hk, le32_length, ← Nat.add_assoc] at hread
  · have hread := memBytes_part (s := s) (d := d) (pre ++ blocks[k].tag ++ le32 (base + blocks[k].off))
      (le32 blocks[k].len) post (by rw [hm]; simp only [List.append_assoc]) hp
    rwa [List.length_append, List.length_append, hpre, hk, le32_length, le32_length, Nat.add_assoc (12 * k),
      ← Nat.add_assoc] at hread

/-- Settles O54: the parse succeeds, and the descriptors and registers it writes are read back one by one. -/
theorem ntrParseWritesDescriptors : Obligations.NtrParseWritesDescriptors := by
  intro s blocks hwin h16 hbom hver hhdr hcount hcap hframed
  have hexec := exec_ntrParse_of_ok hwin (ntrParse_of_framed h16 hbom hver hhdr hcount hcap hframed)
  have htag := framed_tag_length hframed
  have hlen := blockDescriptors_length s.srcAddr.toNat blocks htag
  have hlt16 : blocks.length < 2 ^ 16 := hcount ▸ memRead_lt s _ 2
  refine completes_of hexec (writes_parsed s _ (hlen.trans_le hcap) hwin.2.1) ⟨?outside, ?descriptors, ?registers⟩
  case outside => exact writeBytes_outside_window s _ ⟨_, _⟩ _ rfl rfl hlen.le
  case descriptors =>
    intro k hk
    have hmem : blocks[k] ∈ blocks := List.getElem_mem hk
    obtain ⟨htagk, haddr, hlenk⟩ := memBytes_blockDescriptors (s := s)
      (t := (s.writeParsed (s.parsedAs blocks)).finish) htag rfl rfl hk
    refine ⟨htagk.trans (framed_tag_srcBytes hframed hmem), ?_, ?_⟩
    · rw [State.memRead, haddr, leNat_le32]
    · rw [State.memRead, hlenk, leNat_le32, Nat.mod_eq_of_lt (framed_len_lt hframed hmem)]
  case registers =>
    have hver16 := memRead_lt s (s.srcAddr.toNat + 6) 2
    have htotal := memRead_lt s (s.srcAddr.toNat + 8) 4
    refine ⟨tagWord_memBytes_toNat s _, ?_⟩
    simp only [State.readReg, State.parsedAs, finish_ntrVer, finish_ntrNblk, finish_ntrTotal, finish_resultLen,
      writeParsed_ntrVer, writeParsed_ntrNblk, writeParsed_ntrTotal, writeParsed_resultLen, BitVec.toNat_setWidth,
      BitVec.toNat_ofNat]
    omega

end Sys2Proof.Machine
end

section
/-! PROOFS. The family 10_state.md: when step is the engine's or the host's, the register words, what a host register
access does at any time, and which events change STATUS and KEY_OUT. -/

namespace Sys2Proof.Machine

/-! ## Whose step it is -/

/-- Settles O4: the pending OPCODE decodes as the word does, and the engine moves only while BUSY = 1. -/
theorem stepRunsPendingCommand : Obligations.StepRunsPendingCommand := by
  intro s w i hm hop hdec
  have hfetch : s.fetch = .ok i := by
    rw [State.fetch, ← hop]
    exact hdec
  rw [step_engine hm hfetch, endTurn_busy hm.1]
  rfl

/-- Settles O5: a turn is used up exactly while BUSY = 1. -/
theorem stepRunsHostAccess : Obligations.StepRunsHostAccess :=
  fun _ hm => step_host hm

/-! ## The register words -/

/-- Settles O11: the word is the concatenation of the fields. -/
theorem statusWordLayout : Obligations.StatusWordLayout := by
  intro s
  simp only [State.readReg, Status.toWord, toNat_append_add, BitVec.toNat_ofBool, BitVec.toNat_ofNat]
  omega

/-- Settles O12: the word is the concatenation of the fields. -/
theorem recAttrWordLayout : Obligations.RecAttrWordLayout := by
  intro s
  simp only [State.readReg, RecAttr.toWord, toNat_append_add, BitVec.toNat_ofBool, BitVec.toNat_ofNat]
  omega

/-- Settles O18, register by register. -/
theorem resetStateRegisters : Obligations.ResetStateRegisters := by
  refine ⟨?_, rfl, rfl⟩
  intro r
  cases r <;> rfl

/-! ## What a host write leaves in the register it writes -/

/-- Bits that a plain store keeps read back; the reserved ones read 0 (R22, R31, R35, R37, R39, R40). -/
theorem storeReg_readReg_same (s : State) (v : Word) {r : Reg} {m : Word} (h : (r, m) ∈ storeMasks) :
    (s.storeReg v r).readReg r = v &&& m := by
  have hfull : v = v &&& 0xFFFFFFFF#32 := BitVec.and_allOnes.symm
  cases r <;> simp [storeMasks] at h <;> subst h
  case srcAddr | srcLen | dstAddr | dstCap | keyIn | ntrTag => exact hfull
  case width | oamW0 | oamW1 | oamW2 | ntrVer | ntrNblk => exact half_toWord v
  case recPos => exact (append_halves v).trans hfull
  case recAttr => exact recAttrOfWord_toWord v

/-- A register other than CMD, STATUS and IRQEN is written only while BUSY = 0 (R43, R44). -/
theorem hostWriteReg_plain (s : State) {r : Reg} (v : Word) (hc : r ≠ .cmd) (hs : r ≠ .status) (hi : r ≠ .irqen) :
    s.hostWriteReg r v = if s.status.busy then s else s.storeReg v r := by
  unfold State.hostWriteReg
  split
  · exact absurd rfl hc
  · exact absurd rfl hs
  · exact absurd rfl hi
  · rfl

theorem hostWriteReg_readReg_stored {s : State} (hb : s.status.busy = false) (v : Word) {r : Reg} {m : Word}
    (h : (r, m) ∈ storeMasks) : (s.hostWriteReg r v).readReg r = v &&& m := by
  rw [hostWriteReg_plain s v, hb]
  · exact storeReg_readReg_same s v h
  all_goals rintro rfl; simp [storeMasks] at h

/-- A write of a read-only register changes nothing (R43). -/
theorem hostWriteReg_readOnly (s : State) (v : Word) {r : Reg} (h : r ∈ readOnlyRegs) : s.hostWriteReg r v = s := by
  cases r <;> simp [readOnlyRegs] at h
  case id | keyOut | resultLen | ntrTotal => exact ite_self s

theorem hostWriteReg_readReg_status (s : State) (v : Word) :
    (s.hostWriteReg .status v).readReg .status = s.readReg .status &&& ~~~(v &&& 0x0000000E#32) :=
  status_clear_toWord s.status v

theorem hostWriteReg_readReg_irqen (s : State) (v : Word) : (s.hostWriteReg .irqen v).readReg .irqen = v &&& 1#32 :=
  bit0_toWord v

/-- A CMD write while BUSY = 1 sets OVR and does nothing else (R44). -/
theorem hostWriteReg_overrun {s : State} (hb : s.status.busy = true) (v : Word) :
    s.hostWriteReg .cmd v = { s with status := s.status.overrun } := if_pos hb

/-- A CMD write while BUSY = 0 starts the command (R91). -/
theorem hostWriteReg_start {s : State} (hb : s.status.busy = false) (v : Word) :
    s.hostWriteReg .cmd v = s.startCommand v := by
  simp [State.hostWriteReg, hb]

/-- A write of a register other than CMD and STATUS does not touch STATUS. -/
theorem hostWriteReg_status_other (s : State) {r : Reg} (v : Word) (hc : r ≠ .cmd) (hs : r ≠ .status) :
    (s.hostWriteReg r v).status = s.status := by
  by_cases hi : r = .irqen
  · subst hi; rfl
  · rw [hostWriteReg_plain s v hc hs hi]
    split
    · rfl
    · exact storeReg_status s v r

/-- While BUSY = 1 a write changes no register but the one written, and a CMD write only STATUS (R44). -/
theorem hostWriteReg_sameRegs_busy {s : State} (hb : s.status.busy = true) (r : Reg) (v : Word) :
    SameRegs (if r = .cmd then [.status] else [r]) s (s.hostWriteReg r v) := by
  intro q hq
  by_cases hc : r = .cmd
  · subst hc
    rw [hostWriteReg_overrun hb]
    cases q <;> simp at hq <;> rfl
  · rw [if_neg hc, List.mem_singleton] at hq
    exact hostWriteReg_readReg s r v q hq (fun h => absurd h hc)

/-! ## A host register access, stepped -/

/-- The state a host access starts from: its turn is used up and the script has moved on. -/
def State.accessed (s : State) (rest : List HostAction) : State := s.endTurn.withScript rest

@[simp] theorem accessed_readReg (s : State) (rest : List HostAction) (r : Reg) :
    (s.accessed rest).readReg r = s.readReg r := by
  simp [State.accessed]

@[simp] theorem accessed_status (s : State) (rest : List HostAction) : (s.accessed rest).status = s.status := by
  simp [State.accessed]

@[simp] theorem accessed_reads (s : State) (rest : List HostAction) : (s.accessed rest).reads = s.reads := by
  simp [State.accessed]

theorem accessed_idle {s : State} (hb : s.status.busy = false) (rest : List HostAction) :
    s.accessed rest = { s with script := rest } := by
  rw [State.accessed, endTurn_idle hb]
  rfl

theorem accessed_busy {s : State} (hb : s.status.busy = true) (rest : List HostAction) :
    s.accessed rest = { s with script := rest, turns := s.turns.tail } := by
  rw [State.accessed, endTurn_busy hb]
  rfl

theorem SameRegs.of_accessed {written : List Reg} {s t : State} {rest : List HostAction}
    (h : SameRegs written (s.accessed rest) t) : SameRegs written s t :=
  fun r hr => (h r hr).trans (accessed_readReg s rest r)

/-- An access that keeps the bytes stored and the power-ons keeps every byte of MEM. -/
theorem sameMem_of_accessed {s t : State} {rest : List HostAction} (hm : t.mem = (s.accessed rest).mem)
    (hp : t.powerOns = (s.accessed rest).powerOns) : SameMem s t :=
  byteAt_congr (by simp [hm, State.accessed]) (by simp [hp, State.accessed])

theorem step_write {s : State} {r : Reg} {v : Word} {rest : List HostAction} (hm : HostMoves s)
    (h : s.script = .regWrite 4 r.offset v :: rest) : step s = .next ((s.accessed rest).hostWriteReg r v) := by
  rw [step_host hm]
  exact hostStep_write (by simpa using h)

theorem step_read {s : State} {r : Reg} {rest : List HostAction} (hm : HostMoves s)
    (h : s.script = .regRead 4 r.offset :: rest) :
    step s = .next ((s.accessed rest).record (.reg r.offset (s.readReg r))) := by
  rw [step_host hm, hostStep_read (by simpa using h), endTurn_readReg]
  rfl

theorem accessed_write_sameMem (s : State) (rest : List HostAction) (r : Reg) (v : Word) :
    SameMem s ((s.accessed rest).hostWriteReg r v) := by
  obtain ⟨hmem, -, -, hpower, -⟩ := hostWriteReg_keeps (s.accessed rest) r v
  exact sameMem_of_accessed hmem hpower

theorem accessed_record_sameRegs (s : State) (rest : List HostAction) (x : HostRead) :
    SameRegs [] s ((s.accessed rest).record x) :=
  SameRegs.of_accessed fun r _ => record_readReg _ x r

theorem accessed_record_sameMem (s : State) (rest : List HostAction) (x : HostRead) :
    SameMem s ((s.accessed rest).record x) :=
  sameMem_of_accessed (rest := rest) rfl rfl

/-- Settles O7: the write happens in the state itself, no turn being used up while BUSY = 0. -/
theorem registerWriteObeysAccessType : Obligations.RegisterWriteObeysAccessType := by
  intro s r v rest hb hc hscript
  refine ⟨_, step_write (.inl hb) hscript, ?regs, accessed_write_sameMem s rest r v, ?surroundings, ?stored, ?irqen,
    ?status, ?readOnly⟩
  case regs =>
    refine SameRegs.of_accessed (rest := rest) fun q hq => ?_
    exact hostWriteReg_readReg _ r v q (by simpa using hq) (fun h => absurd h hc)
  case surroundings =>
    rw [← accessed_idle hb]
    exact (hostWriteReg_keeps _ r v).2
  case stored =>
    intro m hmask
    exact hostWriteReg_readReg_stored (by simpa using hb) v hmask
  case irqen =>
    rintro rfl
    exact hostWriteReg_readReg_irqen _ v
  case status =>
    rintro rfl
    rw [hostWriteReg_readReg_status, accessed_readReg]
  case readOnly =>
    intro hro
    rw [hostWriteReg_readOnly _ v hro, accessed_readReg]

/-- Settles O8: a write does what `hostWriteReg` does while BUSY = 1, a read records the register. -/
theorem busyRegisterAccess : Obligations.BusyRegisterAccess := by
  intro s r v rest hb hturn
  have hmoves : ∀ a, s.script = a :: rest → HostMoves s := fun a h => .inr ⟨by simp [h], hturn⟩
  have hbusy : (s.accessed rest).status.busy = true := by simpa using hb
  refine ⟨fun hscript => ?_, fun hscript => ?_⟩
  · refine ⟨_, step_write (hmoves _ hscript) hscript, (hostWriteReg_sameRegs_busy hbusy r v).of_accessed,
      accessed_write_sameMem s rest r v, ?surroundings, ?cmd, ?status, ?irqen, ?ignored, ?flags⟩
    case surroundings =>
      rw [← accessed_busy hb]
      exact (hostWriteReg_keeps _ r v).2
    case cmd =>
      rintro rfl
      rw [hostWriteReg_overrun hbusy, accessed_status]
      rfl
    case status =>
      rintro rfl
      rw [hostWriteReg_readReg_status, accessed_readReg]
    case irqen =>
      rintro rfl
      exact hostWriteReg_readReg_irqen _ v
    case ignored =>
      intro hc hs hi
      rw [hostWriteReg_plain _ v hc hs hi, if_pos hbusy, accessed_readReg]
    case flags =>
      intro hc hs
      rw [hostWriteReg_status_other _ v hc hs, accessed_status]
  · exact ⟨_, step_read (hmoves _ hscript) hscript, by simp, accessed_record_sameRegs s rest _,
      accessed_record_sameMem s rest _⟩

/-- Settles O9: the step records the register and moves the script on. -/
theorem registerReadHasNoSideEffect : Obligations.RegisterReadHasNoSideEffect := by
  intro s r rest hm hscript
  refine ⟨_, step_read hm hscript, by simp, rfl, accessed_record_sameRegs s rest _,
    accessed_record_sameMem s rest _, ?_⟩
  simp [State.accessed]

/-! ## Reserved offsets -/

/-- An access at a multiple of 4 in the aperture is inside the interface (R68). -/
theorem regAccessOk_aligned {off : Nat} (h4 : off % 4 = 0) (hlt : off < 0x100) : regAccessOk 4 off = true := by
  simp [regAccessOk, h4, hlt]

/-- A read of a reserved offset records 0 (R42). -/
theorem step_read_reserved {s : State} {off : Nat} {rest : List HostAction} (hm : HostMoves s) (hlo : 0x54 ≤ off)
    (hok : regAccessOk 4 off = true) (h : s.script = .regRead 4 off :: rest) :
    step s = .next ((s.accessed rest).record (.reg off 0)) := by
  rw [step_host hm, hostStep, endTurn_script, h]
  simp [hostRegRead, hok, State.readOffset, regAt_reserved hlo, State.accessed]

/-- A write of a reserved offset only moves the script on (R42). -/
theorem step_write_reserved {s : State} {off : Nat} {v : Word} {rest : List HostAction} (hm : HostMoves s)
    (hlo : 0x54 ≤ off) (hok : regAccessOk 4 off = true) (h : s.script = .regWrite 4 off v :: rest) :
    step s = .next (s.accessed rest) := by
  rw [step_host hm, hostStep, endTurn_script, h]
  simp [hostRegWrite, hok, State.writeOffset, regAt_reserved hlo, State.accessed]

/-- Settles O10: no register stands at such an offset, which is inside the interface. -/
theorem reservedOffsetsReadZero : Obligations.ReservedOffsetsReadZero := by
  intro s off v rest hm hlo hhi h4
  have hok := regAccessOk_aligned h4 (by omega : off < 0x100)
  refine ⟨fun hscript => ?_, fun hscript => ?_⟩
  · exact ⟨_, step_read_reserved hm hlo hok hscript, by simp, accessed_record_sameRegs s rest _,
      accessed_record_sameMem s rest _⟩
  · exact ⟨_, step_write_reserved hm hlo hok hscript, by simp, fun r _ => accessed_readReg s rest r,
      sameMem_of_accessed (rest := rest) rfl rfl⟩

/-! ## STATUS over all commands and all steps -/

/-- Settles O24: a completion sets DONE beside an ERR that was 0, an error commit sets ERR alone. -/
theorem everyCommandCompletes : Obligations.EveryCommandCompletes := by
  intro i s herr
  rcases exec_answers i s with ⟨t, hexec, hw⟩ | ⟨e, hexec, -⟩
  · exact ⟨_, hexec, by simp [hw.status, herr]⟩
  · exact ⟨_, hexec, by simp⟩

/-- What STATUS can become in one step, each change with its event (R45). -/
inductive StatusEvent (s : State) : Status → Prop where
  | unchanged : StatusEvent s s.status
  | start (v : Word) (hm : HostMoves s) (h : s.script.head? = some (.regWrite 4 0x04 v)) : StatusEvent s s.status.start
  | overrun (v : Word) (hm : HostMoves s) (h : s.script.head? = some (.regWrite 4 0x04 v)) :
      StatusEvent s s.status.overrun
  | clear (v : Word) (hm : HostMoves s) (h : s.script.head? = some (.regWrite 4 0x08 v)) :
      StatusEvent s (s.status.clear v)
  | reset (hm : HostMoves s) (h : s.script.head? = some .reset ∨ s.script.head? = some .powerOn) :
      StatusEvent s Status.reset
  | done (hm : EngineMoves s) : StatusEvent s s.status.finishOk
  | error (hm : EngineMoves s) (e : ErrCode) : StatusEvent s (s.status.finishErr e)

@[simp] theorem storeByte_status (s : State) (a : Nat) (b : Byte) : (s.storeByte a b).status = s.status := by
  unfold State.storeByte
  split <;> rfl

@[simp] theorem loadByte_status (s : State) (a : Nat) : (s.loadByte a).status = s.status := by
  unfold State.loadByte
  split <;> rfl

/-- A host write at an offset changes STATUS only at the offsets of CMD and STATUS. -/
theorem writeOffset_statusEvent {s u : State} {off : Nat} {v : Word} {rest : List HostAction} (hm : HostMoves s)
    (h : s.script = .regWrite 4 off v :: rest) (hu : u.status = s.status) :
    StatusEvent s (u.writeOffset off v).status := by
  unfold State.writeOffset
  split
  · rename_i r hr
    obtain rfl := regAt_some hr
    by_cases hc : r = .cmd
    · subst hc
      have hhead : s.script.head? = some (.regWrite 4 0x04 v) := by rw [h]; rfl
      cases hb : u.status.busy with
      | true =>
        rw [hostWriteReg_overrun hb, hu]
        exact .overrun v hm hhead
      | false =>
        rw [hostWriteReg_start hb, startCommand_status, hu]
        exact .start v hm hhead
    by_cases hs : r = .status
    · subst hs
      have hstatus : (u.hostWriteReg .status v).status = s.status.clear v := by rw [← hu]; rfl
      rw [hstatus]
      exact .clear v hm (by rw [h]; rfl)
    · rw [hostWriteReg_status_other u v hc hs, hu]
      exact .unchanged
  · rw [hu]
    exact .unchanged

/-- Whatever the host's next action leads to, with `u` the state it starts from. -/
theorem hostEffect_statusEvent {s u t : State} (hm : HostMoves s) (h : HostEffect s u t) (hu : u.status = s.status) :
    StatusEvent s t.status := by
  cases h with
  | quiet => exact hu ▸ .unchanged
  | regWrite off v rest hs => exact writeOffset_statusEvent hm hs hu
  | regRead off => exact hu ▸ .unchanged
  | store a b _ => rw [storeByte_status, hu]; exact .unchanged
  | load a _ => rw [loadByte_status, hu]; exact .unchanged
  | reset rest hs => exact .reset hm (.inl (by simp [hs]))
  | powerOn rest hs => exact .reset hm (.inr (by simp [hs]))

theorem HostEffect.of_endTurn {s u t : State} (h : HostEffect s.endTurn u t) : HostEffect s u t := by
  cases h with
  | quiet => exact .quiet
  | regWrite off v rest hs => exact .regWrite off v rest (by simpa using hs)
  | regRead off => exact .regRead off
  | store a b ha => exact .store a b (by simpa using ha)
  | load a ha => exact .load a (by simpa using ha)
  | reset rest hs => exact .reset rest (by simpa using hs)
  | powerOn rest hs => exact .powerOn rest (by simpa using hs)

/-- Everything a step can make of STATUS (R45). -/
theorem step_statusEvent {s t : State} (h : step s = .next t) : StatusEvent s t.status := by
  cases step_effect h with
  | host script t hm he => exact hostEffect_statusEvent hm he.of_endTurn (by simp)
  | done i u hm _ hw =>
    rw [finish_status, hw.status, endTurn_status]
    exact .done hm
  | error e hm =>
    rw [fail_status, endTurn_status]
    exact .error hm e

/-- Settles O31: each event that changes STATUS is one of R45's list. -/
theorem flagsChangeOnlyByListedEvents : Obligations.FlagsChangeOnlyByListedEvents := by
  intro s t hstep hne
  have hevent := step_statusEvent hstep
  generalize t.status = f at hevent hne
  cases hevent with
  | unchanged => exact absurd rfl hne
  | start v hm h => exact .inr ⟨hm, .inl ⟨v, h⟩⟩
  | overrun v hm h => exact .inr ⟨hm, .inl ⟨v, h⟩⟩
  | clear v hm h => exact .inr ⟨hm, .inr (.inl ⟨v, h⟩)⟩
  | reset hm h => exact .inr ⟨hm, .inr (.inr h)⟩
  | done hm => exact .inl hm
  | error hm e => exact .inl hm

/-! ## Every change of STATUS keeps it legal -/

theorem reset_legal : Status.reset.Legal := ⟨nofun, nofun, nofun, .inl ⟨rfl, rfl⟩⟩

/-- A start clears both flags and the error identity (R91). -/
theorem start_legal (f : Status) : f.start.Legal :=
  ⟨fun _ => ⟨rfl, rfl, rfl, rfl⟩, nofun, nofun, .inl ⟨rfl, rfl⟩⟩

/-- OVR has no part in legality. -/
theorem overrun_legal {f : Status} (h : f.Legal) : f.overrun.Legal := h

/-- A W1C write only clears flags, and leaves the error identity (R25). -/
theorem clear_legal {f : Status} (h : f.Legal) (v : Word) : (f.clear v).Legal := by
  obtain ⟨hbusy, hdone, herr, hid⟩ := h
  refine ⟨fun hb => ?_, fun hd => ?_, fun he => ?_, hid⟩
  · obtain ⟨hd0, he0, hno⟩ := hbusy hb
    exact ⟨by simp [hd0], by simp [he0], hno⟩
  · obtain ⟨he0, hno⟩ := hdone (Bool.and_eq_true_iff.1 hd).1
    exact ⟨by simp [he0], hno⟩
  · exact herr (Bool.and_eq_true_iff.1 he).1

/-- A running command has no flag and no error identity, so that a completion leaves DONE alone (R92). -/
theorem finishOk_legal {f : Status} (h : f.Legal) (hb : f.busy = true) : f.finishOk.Legal := by
  obtain ⟨hbusy, -, herr, -⟩ := h
  obtain ⟨-, he0, hno⟩ := hbusy hb
  exact ⟨nofun, fun _ => ⟨he0, hno⟩, herr, .inl hno⟩

/-- An error commit reports a row of R261 with ERR alone (R264). -/
theorem finishErr_legal (f : Status) (e : ErrCode) : (f.finishErr e).Legal :=
  ⟨nofun, nofun, fun _ => ⟨e, rfl, rfl⟩, .inr ⟨e, rfl, rfl⟩⟩

/-- Settles O34, by cases on what a step can make of STATUS. -/
theorem stepKeepsStatusLegal : Obligations.StepKeepsStatusLegal := by
  intro s t hlegal hstep
  have hevent := step_statusEvent hstep
  generalize t.status = f at hevent
  cases hevent with
  | unchanged => exact hlegal
  | start v _ _ => exact start_legal s.status
  | overrun v _ _ => exact overrun_legal hlegal
  | clear v _ _ => exact clear_legal hlegal v
  | reset _ _ => exact reset_legal
  | done hm => exact finishOk_legal hlegal hm.1
  | error _ e => exact finishErr_legal s.status e

/-! ## KEY_OUT over all steps -/

/-- No host write changes KEY_OUT, which is read-only (R33, R43). -/
theorem writeOffset_keyOut (s : State) (off : Nat) (v : Word) : (s.writeOffset off v).keyOut = s.keyOut := by
  unfold State.writeOffset
  split
  · rename_i r _
    by_cases hr : r = .keyOut
    · rw [hostWriteReg_readOnly s v (by simp [hr, readOnlyRegs])]
    · exact hostWriteReg_readReg s r v .keyOut (Ne.symm hr) nofun
  · rfl

/-- Of the host's and the platform's actions only the resets change KEY_OUT. -/
theorem hostEffect_keyOut {s u t : State} (h : HostEffect s u t) :
    t.keyOut = u.keyOut ∨ s.script.head? = some .reset ∨ s.script.head? = some .powerOn := by
  cases h with
  | quiet => exact .inl rfl
  | regWrite off v _ _ => exact .inl (writeOffset_keyOut u off v)
  | regRead off => exact .inl rfl
  | store a b _ => exact .inl (storeByte_readReg u a b .keyOut)
  | load a _ => exact .inl (loadByte_readReg u a .keyOut)
  | reset rest hs => exact .inr (.inl (by simp [hs]))
  | powerOn rest hs => exact .inr (.inr (by simp [hs]))

/-- Settles O30: of the commands only DECIPHER's rule writes KEY_OUT, and an error commit writes only STATUS. -/
theorem keyOutWrittenOnlyByDecipher : Obligations.KeyOutWrittenOnlyByDecipher := by
  intro s t hstep hne
  cases step_effect hstep with
  | host script t hm he =>
    refine .inr ⟨hm, (hostEffect_keyOut he.of_endTurn).resolve_left fun h => hne ?_⟩
    rw [h, withScript_keyOut, endTurn_keyOut]
  | done i u hm hfetch hw =>
    by_cases hi : Reg.keyOut ∈ writtenRegs i
    · have hdec : i = .decipher := by cases i <;> simp [writtenRegs] at hi ⊢
      exact .inl ⟨hm, by rw [decodeOpcode_ok.1 hfetch, hdec]; rfl⟩
    · have hkeep : u.keyOut = s.endTurn.keyOut := hw.regs .keyOut hi
      exact absurd (by rw [finish_keyOut, hkeep, endTurn_keyOut]) hne
  | error e hm => exact absurd (by rw [fail_keyOut, endTurn_keyOut]) hne

end Sys2Proof.Machine
end

section
/-! PROOFS. The family 20_memory.md: the host's accesses to MEM and to the registers, the footprint of a running command,
the power-on reset, and what the engine writes and reads. -/

namespace Sys2Proof.Machine

/-! ## A host access, stepped -/

theorem step_regWrite {s : State} {width off : Nat} {v : Word} {rest : List HostAction} (hm : HostMoves s)
    (h : s.script = .regWrite width off v :: rest) : step s = hostRegWrite width off v (s.accessed rest) := by
  rw [step_host hm, hostStep, endTurn_script, h]
  rfl

theorem step_regRead {s : State} {width off : Nat} {rest : List HostAction} (hm : HostMoves s)
    (h : s.script = .regRead width off :: rest) : step s = hostRegRead width off (s.accessed rest) := by
  rw [step_host hm, hostStep, endTurn_script, h]
  rfl

theorem step_memWrite {s : State} {a : Nat} {b : Byte} {bs : List Byte} {rest : List HostAction} (hm : HostMoves s)
    (h : s.script = .memWrite a (b :: bs) :: rest) :
    step s = hostMemWrite a b (s.accessed (moreWrites (a + 1) bs rest)) := by
  rw [step_host hm, hostStep, endTurn_script, h]
  rfl

theorem step_memRead {s : State} {a n : Nat} {rest : List HostAction} (hm : HostMoves s)
    (h : s.script = .memRead a (n + 1) :: rest) :
    step s = hostMemRead a (s.accessed (moreReads (a + 1) n rest)) := by
  rw [step_host hm, hostStep, endTurn_script, h]
  rfl

@[simp] theorem accessed_params (s : State) (rest : List HostAction) : (s.accessed rest).params = s.params := by
  simp [State.accessed]

@[simp] theorem accessed_hazard (s : State) (rest : List HostAction) : (s.accessed rest).hazard = s.hazard := by
  simp [State.accessed]

@[simp] theorem accessed_draws (s : State) (rest : List HostAction) : (s.accessed rest).draws = s.draws := by
  simp [State.accessed]

@[simp] theorem accessed_powerOns (s : State) (rest : List HostAction) : (s.accessed rest).powerOns = s.powerOns := by
  simp [State.accessed]

@[simp] theorem accessed_script (s : State) (rest : List HostAction) : (s.accessed rest).script = rest := rfl

@[simp] theorem accessed_byteAt (s : State) (rest : List HostAction) (a : Nat) :
    (s.accessed rest).byteAt a = s.byteAt a := by
  simp [State.accessed]

@[simp] theorem accessed_inFootprint (s : State) (rest : List HostAction) (a : Nat) :
    (s.accessed rest).inFootprint a = s.inFootprint a := by
  simp [State.accessed]

/-- A byte write below MEM_BYTES has a step (R68). -/
theorem step_memWrite_inMem {s : State} {a : Nat} {b : Byte} {bs : List Byte} {rest : List HostAction}
    (hm : HostMoves s) (ha : a < s.params.memBytes) (h : s.script = .memWrite a (b :: bs) :: rest) :
    step s = .next ((s.accessed (moreWrites (a + 1) bs rest)).storeByte a b) := by
  rw [step_memWrite hm h, hostMemWrite, accessed_params, if_pos ha]

/-- A byte read below MEM_BYTES has a step (R68). -/
theorem step_memRead_inMem {s : State} {a n : Nat} {rest : List HostAction} (hm : HostMoves s)
    (ha : a < s.params.memBytes) (h : s.script = .memRead a (n + 1) :: rest) :
    step s = .next ((s.accessed (moreReads (a + 1) n rest)).loadByte a) := by
  rw [step_memRead hm h, hostMemRead, accessed_params, if_pos ha]

/-! ## The host interface -/

theorem regAccessOk_outside {width off : Nat} (h : width ≠ 4 ∨ off % 4 ≠ 0 ∨ 0x100 ≤ off) :
    regAccessOk width off = false := by
  simp only [regAccessOk, Bool.and_eq_false_iff, beq_eq_false_iff_ne, decide_eq_false_iff_not]
  omega

/-- Whose move it is does not depend on which actions the host has left, if it has one. -/
theorem hostMoves_script {s : State} (hm : HostMoves s) (action : HostAction) (rest : List HostAction) :
    HostMoves { s with script := action :: rest } :=
  hm.imp id fun h => ⟨nofun, h.2⟩

theorem accessed_setScript (s : State) (script rest : List HostAction) :
    State.accessed { s with script := script } rest = s.accessed rest := by
  unfold State.accessed State.endTurn
  split <;> rfl

/-- A byte write neither reads nor changes the script. -/
theorem storeByte_accessed (s : State) (script rest : List HostAction) (a : Nat) (b : Byte) :
    { (s.accessed script).storeByte a b with script := rest } = (s.accessed rest).storeByte a b := by
  simp only [State.storeByte, accessed_inFootprint]
  split <;> rfl

/-- A byte read neither reads nor changes the script. -/
theorem loadByte_accessed (s : State) (script rest : List HostAction) (a : Nat) :
    { (s.accessed script).loadByte a with script := rest } = (s.accessed rest).loadByte a := by
  simp only [State.loadByte, accessed_inFootprint]
  split <;> rfl

theorem moreWrites_eq (a : Nat) (bs : List Byte) (rest : List HostAction) :
    moreWrites a bs rest = if bs = [] then rest else .memWrite a bs :: rest := by
  cases bs <;> rfl

theorem moreReads_eq (a n : Nat) (rest : List HostAction) :
    moreReads a n rest = if n = 0 then rest else .memRead a n :: rest := by
  cases n <;> rfl

/-- Settles O13: the bound checks decide what is refused, and a byte access does the same whatever follows it. -/
theorem hostAccessInterface : Obligations.HostAccessInterface := by
  intro s rest hm
  refine ⟨fun width off v hout => ?registers, fun a n b bs ha => ?refused, fun a n b bs ha => ?stepped⟩
  case registers =>
    have hbad := regAccessOk_outside hout
    refine ⟨fun hscript => ?_, fun hscript => ?_⟩
    · simp [step_regWrite hm hscript, hostRegWrite, hbad]
    · simp [step_regRead hm hscript, hostRegRead, hbad]
  case refused =>
    refine ⟨fun hscript => ?_, fun hscript => ?_⟩
    · rw [step_memWrite hm hscript, hostMemWrite, accessed_params, if_neg (by omega)]
    · rw [step_memRead hm hscript, hostMemRead, accessed_params, if_neg (by omega)]
  case stepped =>
    refine ⟨fun hscript => ⟨_, step_memWrite_inMem hm ha hscript, ?_, ?_⟩,
      fun hscript => ⟨_, step_memRead_inMem hm ha hscript, ?_, ?_⟩⟩
    · rw [storeByte_script, accessed_script, moreWrites_eq]
    · rw [step_memWrite_inMem (hostMoves_script hm _ _) ha rfl, storeByte_accessed, accessed_setScript]
      rfl
    · rw [loadByte_script, accessed_script, moreReads_eq]
    · rw [step_memRead_inMem (n := 0) (hostMoves_script hm _ _) ha rfl, loadByte_accessed, accessed_setScript]
      rfl

/-! ## A byte access -/

theorem accessed_storeByte_sameRegs (s : State) (rest : List HostAction) (a : Nat) (b : Byte) :
    SameRegs [] s ((s.accessed rest).storeByte a b) :=
  SameRegs.of_accessed fun r _ => storeByte_readReg _ a b r

theorem accessed_storeByte_outside (s : State) (rest : List HostAction) (a : Nat) (b : Byte) :
    SameMemOutside ⟨a, 1⟩ s ((s.accessed rest).storeByte a b) :=
  fun x hx => (storeByte_outside _ a b x hx).trans (accessed_byteAt s rest x)

theorem accessed_loadByte_sameRegs (s : State) (rest : List HostAction) (a : Nat) :
    SameRegs [] s ((s.accessed rest).loadByte a) :=
  SameRegs.of_accessed fun r _ => loadByte_readReg _ a r

theorem accessed_loadByte_sameMem (s : State) (rest : List HostAction) (a : Nat) :
    SameMem s ((s.accessed rest).loadByte a) := by
  intro x
  rw [loadByte_byteAt, accessed_byteAt]

/-- Settles O14: outside the footprint the access is a plain store or a plain load. -/
theorem hostByteAccess : Obligations.HostByteAccess := by
  intro s a b rest hm ha hfoot
  have hfoot' : (s.accessed rest).inFootprint a = false := by rw [accessed_inFootprint, hfoot]
  refine ⟨fun hscript => ?write, fun hscript => ?read⟩
  case write =>
    refine ⟨_, step_memWrite_inMem hm ha hscript, storeByte_inside _ a b hfoot', accessed_storeByte_outside s rest a b,
      accessed_storeByte_sameRegs s rest a b, storeByte_script _ a b, ?_⟩
    simp [storeByte_hazard, moreWrites, hfoot]
  case read =>
    refine ⟨_, step_memRead_inMem hm ha hscript, ?_, accessed_loadByte_sameMem s rest a,
      accessed_loadByte_sameRegs s rest a, loadByte_script _ a, ?_⟩
    · simp [loadByte_reads, hfoot]
    · simp

/-! ## The footprint -/

/-- The footprint of a running command of the opcode map (R64). -/
theorem inFootprint_command {s : State} {i : Instr} (hb : s.status.busy = true) (hd : decodeOpcode s.opcode = .ok i)
    (a : Nat) :
    s.inFootprint a = true ↔ (∃ w ∈ s.readWindows i, w.has a = true) ∨ (s.destWindow i).has a = true := by
  have hreads : s.pendingReads = s.readWindows i := by simp only [State.pendingReads, State.fetch, hd]
  have hdest : s.pendingDest = s.destWindow i := by simp only [State.pendingDest, State.fetch, hd]
  rw [inFootprint_busy hb, hreads, hdest]

/-- The footprint while a reserved OPCODE is pending (log entry 14). -/
theorem inFootprint_reserved {s : State} (hb : s.status.busy = true) (hr : ReservedOpcode s.opcode.toNat) (a : Nat) :
    s.inFootprint a = true ↔ s.dstWindow.has a = true := by
  have hd := decodeOpcode_reserved hr
  have hreads : s.pendingReads = [] := by simp only [State.pendingReads, State.fetch, hd]
  have hdest : s.pendingDest = s.dstWindow := by simp only [State.pendingDest, State.fetch, hd]
  simp [inFootprint_busy hb, hreads, hdest]

/-- The footprint of a command that reads W(SRC_ADDR, SRC_LEN) (R64). -/
theorem inFootprint_source {s : State} {i : Instr} (hb : s.status.busy = true) (hop : s.opcode = i.opcode)
    (hreads : s.readWindows i = [s.srcWindow]) (hdest : s.destWindow i = s.dstWindow) (a : Nat) :
    s.inFootprint a = true ↔ s.srcWindow.has a = true ∨ s.dstWindow.has a = true := by
  simp [inFootprint_command hb (decodeOpcode_ok.2 hop), hreads, hdest]

/-- The footprint of a command that reads nothing outside its destination window (R64). -/
theorem inFootprint_dest {s : State} {i : Instr} (hb : s.status.busy = true) (hop : s.opcode = i.opcode)
    (hreads : ∀ w ∈ s.readWindows i, w = s.destWindow i) (a : Nat) :
    s.inFootprint a = true ↔ (s.destWindow i).has a = true := by
  rw [inFootprint_command hb (decodeOpcode_ok.2 hop), or_iff_right_of_imp]
  rintro ⟨w, hw, ha⟩
  rwa [← hreads w hw]

/-- A descriptor table in MEM names the payload of each of its descriptors (R300; log entry 8). -/
theorem namedPayloads_of_inMem {s : State} (h : s.srcAddr.toNat + 12 * s.ntrNblk.toNat ≤ s.params.memBytes) :
    s.namedPayloads = s.descriptors.map Descriptor.payload := by
  have hall : ∀ k ∈ List.range s.ntrNblk.toNat, Window.inMem ⟨s.srcAddr.toNat + 12 * k, 12⟩ s.params = true := by
    intro k hk
    rw [List.mem_range] at hk
    rw [inMem_iff]
    simp only
    omega
  rw [State.namedPayloads, List.filter_eq_self.2 hall, State.descriptors, List.map_map]
  rfl

/-- The footprint of NTR_BUILD when its table lies in MEM: the table, the destination window and every payload (R64). -/
theorem inFootprint_build {s : State} (hb : s.status.busy = true) (hop : s.opcode = Instr.opcode .ntrBuild)
    (hin : s.srcAddr.toNat + 12 * s.ntrNblk.toNat ≤ s.params.memBytes) (a : Nat) :
    s.inFootprint a = true ↔ s.tableWindow.has a = true ∨ s.dstWindow.has a = true
      ∨ ∃ k, k < s.ntrNblk.toNat ∧ (s.descriptor k).payload.has a = true := by
  rw [inFootprint_command hb (decodeOpcode_ok.2 hop)]
  simp only [State.readWindows, State.destWindow, namedPayloads_of_inMem hin, State.descriptors, List.map_map,
    List.exists_mem_cons_iff, List.mem_map, List.mem_range, exists_exists_and_eq_and, Function.comp_apply]
  rw [or_right_comm, or_assoc]

/-- Settles O17, by the OPCODE. -/
theorem footprintIsReadAndDestination : Obligations.FootprintIsReadAndDestination := by
  intro s a hb
  simp only [List.mem_cons, List.not_mem_nil, or_false]
  refine ⟨fun hop => ?source, fun hop hin => ?build, fun hop => ?flip, fun hop => ?dest⟩
  case source =>
    have hfoot : s.inFootprint a = true ↔ s.srcWindow.has a = true ∨ s.dstWindow.has a = true := by
      rcases hop with hop | hop | hop | hop | hop
      · exact inFootprint_source (i := .ntrParse) hb hop rfl rfl a
      · exact inFootprint_source (i := .pix2tile) hb hop rfl rfl a
      · exact inFootprint_source (i := .tile2pix) hb hop rfl rfl a
      · exact inFootprint_source (i := .cipher) hb hop rfl rfl a
      · exact inFootprint_source (i := .decipher) hb hop rfl rfl a
    rw [hfoot, has_iff, has_iff]
    rfl
  case build =>
    rw [inFootprint_build hb hop hin]
    simp only [has_iff]
    rfl
  case flip =>
    have hfoot : s.inFootprint a = true ↔ s.tileWindow.has a = true := by
      rcases hop with hop | hop
      · exact inFootprint_dest (i := .tileHflip) hb hop (fun _ => List.mem_singleton.1) a
      · exact inFootprint_dest (i := .tileVflip) hb hop (fun _ => List.mem_singleton.1) a
    rw [hfoot, has_iff]
    rfl
  case dest =>
    have hfoot : s.inFootprint a = true ↔ s.dstWindow.has a = true := by
      rcases hop with (hop | hop) | hop
      · exact inFootprint_dest (i := .oamDec) hb hop nofun a
      · exact inFootprint_dest (i := .oamEnc) hb hop nofun a
      · exact inFootprint_reserved hb hop a
    rw [hfoot, has_iff]
    rfl

/-- Settles O15: such an address is in the footprint, where a write is the hazard and a read a draw. -/
theorem footprintAccessIsHazard : Obligations.FootprintAccessIsHazard := by
  intro s w a b rest hb hturn hwindow hlo hhi ha
  have hmoves : ∀ action, s.script = action :: rest → HostMoves s := fun _ h => .inr ⟨by simp [h], hturn⟩
  have hhas : w.has a = true := (has_iff w a).2 ⟨hlo, hhi⟩
  have hfoot : s.inFootprint a = true := by
    rcases hwindow with ⟨i, hd, hread | rfl⟩ | ⟨hreserved, rfl⟩
    · exact (inFootprint_command hb hd a).2 (.inl ⟨w, hread, hhas⟩)
    · exact (inFootprint_command hb hd a).2 (.inr hhas)
    · exact (inFootprint_reserved hb hreserved a).2 hhas
  refine ⟨fun hscript => ?write, fun hscript => ?read⟩
  case write =>
    refine ⟨_, step_memWrite_inMem (hmoves _ hscript) ha hscript, ?_, accessed_storeByte_sameRegs s rest a b,
      accessed_storeByte_outside s rest a b⟩
    simp [storeByte_hazard, hfoot]
  case read =>
    refine ⟨_, step_memRead_inMem (hmoves _ hscript) ha hscript, by simp, ?_, accessed_loadByte_sameRegs s rest a,
      accessed_loadByte_sameMem s rest a⟩
    simp [loadByte_reads, hfoot]

/-! ## Power-on reset -/

theorem step_powerOn {s : State} {rest : List HostAction} (hm : HostMoves s) (h : s.script = .powerOn :: rest) :
    step s = .next (s.accessed rest).resetRegs.powerOnMem := by
  rw [step_host hm, hostStep, endTurn_script, h]
  rfl

/-- After a power-on a byte of MEM is its draw: nothing is listed (R291). -/
theorem powerOnMem_byteAt (s : State) (a : Nat) : s.powerOnMem.byteAt a = Config.powerOnByte (s.powerOns + 1) a := rfl

theorem powerOnMem_readReg (s : State) (r : Reg) : s.powerOnMem.readReg r = s.readReg r := by
  cases r <;> rfl

/-- Settles O21: the reset empties the list of written bytes and resets the registers. -/
theorem powerOnDrawsMemory : Obligations.PowerOnDrawsMemory := by
  intro s rest hm hscript
  refine ⟨_, step_powerOn hm hscript, fun a => ?_, fun r => ?_, rfl⟩
  · rw [powerOnMem_byteAt, resetRegs_powerOns, accessed_powerOns]
  · rw [powerOnMem_readReg, resetRegs_readReg]
    exact resetStateRegisters.1 r

/-! ## What a command writes -/

/-- Settles O28: a completion writes where the command's rule says, and an error spoils at most the destination window of
a command that writes there. -/
theorem commandMemoryFrame : Obligations.CommandMemoryFrame := by
  intro i s t hexec
  rcases exec_answers i s with ⟨u, hok, hw⟩ | ⟨e, herr, -, hspoil⟩
  · obtain rfl : u.finish = t := Host.Outcome.next.inj (hok.symm.trans hexec)
    obtain ⟨-, -, hpower, -⟩ := hw.surroundings
    exact ⟨fun hnone => byteAt_congr (hw.none hnone) hpower, hw.outside⟩
  · obtain rfl : s.fail e = t := Host.Outcome.next.inj (herr.symm.trans hexec)
    rcases hspoil with hclean | ⟨hdst, -⟩
    · have hsame : SameMem s (s.fail e) := byteAt_congr (fail_mem_clean s e hclean) (fail_powerOns s e)
      exact ⟨fun _ => hsame, fun _ _ a _ => hsame a⟩
    · rw [hdst]
      refine ⟨nofun, fun w hw => ?_⟩
      cases hw
      exact fail_byteAt_outside s e

/-! ## What a command reads -/

/-- The state with another MEM. -/
def State.withMem (s : State) (m : Memory) : State := { s with mem := m }

theorem withMem_readReg (s : State) (m : Memory) (r : Reg) : (s.withMem m).readReg r = s.readReg r := by
  cases r <;> rfl

/-- The bytes of the window read in `s'` as in `s`. -/
def AgreeOn (w : Window) (s s' : State) : Prop := ∀ a, w.start ≤ a → a < w.start + w.len → s'.byteAt a = s.byteAt a

theorem AgreeOn.memBytes {w : Window} {s s' : State} (h : AgreeOn w s s') {a n : Nat} (hlo : w.start ≤ a)
    (hhi : a + n ≤ w.start + w.len) : s'.memBytes a n = s.memBytes a n := by
  refine List.map_congr_left fun i hi => ?_
  rw [List.mem_range] at hi
  exact h (a + i) (by omega) (by omega)

/-- `t` comes from `s`, and `t'` from `s` with the MEM `m`, by the same writes. -/
inductive SameWrites (s : State) (m : Memory) (t : State) : State → Prop where
  | none (hm : t.mem = s.mem) (hp : t.powerOns = s.powerOns) : SameWrites s m t (t.withMem m)
  | bytes (d : Nat) (out : List Byte) (hm : t.mem = s.mem.write d out) (hp : t.powerOns = s.powerOns) :
      SameWrites s m t (t.withMem (m.write d out))

theorem SameWrites.readReg {s t t' : State} {m : Memory} (h : SameWrites s m t t') (r : Reg) :
    t'.readReg r = t.readReg r := by
  cases h with
  | none => exact withMem_readReg _ _ r
  | bytes => exact withMem_readReg _ _ r

/-- A byte is the one written in both, or in both what it was. -/
theorem SameWrites.byteAt {s t t' : State} {m : Memory} (h : SameWrites s m t t') (a : Nat) :
    t'.byteAt a = t.byteAt a ∨ (t'.byteAt a = (s.withMem m).byteAt a ∧ t.byteAt a = s.byteAt a) := by
  cases h with
  | none hm hp => exact .inr ⟨byteAt_congr (t := t.withMem m) (s := s.withMem m) rfl hp a, byteAt_congr hm hp a⟩
  | bytes d out hm hp =>
    have ht : t.byteAt a = (s.writeBytes d out).byteAt a :=
      byteAt_congr (s := s.writeBytes d out) hm hp a
    have ht' : (t.withMem (m.write d out)).byteAt a = ((s.withMem m).writeBytes d out).byteAt a :=
      byteAt_congr (t := t.withMem (m.write d out)) (s := (s.withMem m).writeBytes d out) rfl hp a
    rw [ht, ht']
    by_cases hin : d ≤ a ∧ a < d + out.length
    · obtain ⟨k, rfl⟩ := Nat.exists_eq_add_of_le hin.1
      have hk : k < out.length := by omega
      left
      rw [byteAt_writeBytes_inside _ d k out hk, byteAt_writeBytes_inside _ d k out hk]
    · exact .inr ⟨byteAt_writeBytes_outside _ d a out hin, byteAt_writeBytes_outside _ d a out hin⟩

theorem SameWrites.finish {s t t' : State} {m : Memory} (h : SameWrites s m t t') :
    SameWrites s m t.finish t'.finish := by
  cases h with
  | none hm hp => exact .none hm hp
  | bytes d out hm hp => exact .bytes d out hm hp

/-- The error commit writes the same free bytes, or none, whatever MEM holds (R264). -/
theorem fail_sameWrites (s : State) (m : Memory) (e : ErrCode) :
    SameWrites s m (s.fail e) ((s.withMem m).fail e) := by
  unfold State.fail
  split
  · exact .bytes _ _ rfl rfl
  · exact .none rfl rfl

theorem checked_sameWrites {s t t' : State} {m : Memory} (cs : List Check) (h : SameWrites s m t t') :
    SameWrites s m (s.complete (checked cs t)) ((s.withMem m).complete (checked cs t')) := by
  unfold checked
  cases firstError cs with
  | some e => exact fail_sameWrites s m e
  | none => exact h.finish

theorem writeSameLength_sameWrites (s : State) (m : Memory) (out : List Byte) :
    SameWrites s m (s.writeSameLength out) ((s.withMem m).writeSameLength out) :=
  .bytes _ out rfl rfl

/-- The command does the same in `s` and in `s` with the MEM `m`. -/
def SameAnswer (i : Instr) (s : State) (m : Memory) : Prop :=
  ∃ t t', exec i s = .next t ∧ exec i (s.withMem m) = .next t' ∧ SameWrites s m t t'

section Source
variable {s : State} {m : Memory} (hsrc : (s.withMem m).srcBytes = s.srcBytes)
include hsrc

theorem ntrParse_sameAnswer : SameAnswer .ntrParse s m := by
  refine ⟨_, _, rfl, rfl, ?_⟩
  have hchecks : (s.withMem m).windowChecks (s.withMem m).srcWindow = s.windowChecks s.srcWindow := rfl
  have hparse : ntrParse (s.withMem m).params s.srcBytes (s.withMem m).dstCap.toNat
      = ntrParse s.params s.srcBytes s.dstCap.toNat := rfl
  simp only [ntrParseResult, hchecks, hsrc, hparse]
  cases firstError (s.windowChecks s.srcWindow) with
  | some e => exact fail_sameWrites s m e
  | none =>
    cases ntrParse s.params s.srcBytes s.dstCap.toNat with
    | error e => exact fail_sameWrites s m e
    | ok r => exact SameWrites.finish (.bytes _ _ (writeParsed_mem s r) rfl)

theorem pix2tile_sameAnswer : SameAnswer .pix2tile s m := by
  refine ⟨_, _, rfl, rfl, ?_⟩
  rw [hsrc]
  exact checked_sameWrites s.tileChecks (writeSameLength_sameWrites s m _)

theorem tile2pix_sameAnswer : SameAnswer .tile2pix s m := by
  refine ⟨_, _, rfl, rfl, ?_⟩
  rw [hsrc]
  exact checked_sameWrites s.tileChecks (writeSameLength_sameWrites s m _)

theorem cipher_sameAnswer : SameAnswer .cipher s m := by
  refine ⟨_, _, rfl, rfl, ?_⟩
  rw [hsrc]
  exact checked_sameWrites s.cipherChecks (writeSameLength_sameWrites s m _)

theorem decipher_sameAnswer : SameAnswer .decipher s m := by
  refine ⟨_, _, rfl, rfl, checked_sameWrites s.decipherChecks ?_⟩
  have hwrites : (s.withMem m).writeDeciphered
      = s.writeDeciphered.withMem (m.write s.dstAddr.toNat (decipher s.srcBytes).1) := by
    simp only [State.writeDeciphered, hsrc]
    rfl
  rw [hwrites]
  exact .bytes _ _ rfl rfl

end Source

/-- A flip reads only the tile it mirrors (R168, R169). -/
theorem writeFlipped_sameWrites {s : State} {m : Memory} (flip : List Byte → List Byte)
    (h : (s.withMem m).memBytes s.dstAddr.toNat 64 = s.memBytes s.dstAddr.toNat 64) :
    SameWrites s m (s.writeFlipped flip) ((s.withMem m).writeFlipped flip) := by
  have hwrites : (s.withMem m).writeFlipped flip
      = (s.writeFlipped flip).withMem (m.write s.dstAddr.toNat (flip (s.memBytes s.dstAddr.toNat 64))) := by
    rw [← h]
    rfl
  rw [hwrites]
  exact .bytes _ _ rfl rfl

theorem oamDec_sameAnswer (s : State) (m : Memory) : SameAnswer .oamDec s m := by
  refine ⟨_, _, rfl, rfl, ?_⟩
  have hdecode : oamDecode (s.withMem m).oamW0 (s.withMem m).oamW1 (s.withMem m).oamW2
      = oamDecode s.oamW0 s.oamW1 s.oamW2 := rfl
  simp only [oamDecResult, hdecode]
  cases oamDecode s.oamW0 s.oamW1 s.oamW2 with
  | error e => exact fail_sameWrites s m e
  | ok r => exact SameWrites.finish (.none rfl rfl)

theorem oamEnc_sameAnswer (s : State) (m : Memory) : SameAnswer .oamEnc s m := by
  refine ⟨_, _, rfl, rfl, ?_⟩
  have hrec : (s.withMem m).oamRec = s.oamRec := rfl
  simp only [oamEncResult, hrec]
  cases oamEncode s.oamRec with
  | error e => exact fail_sameWrites s m e
  | ok w => exact SameWrites.finish (.none rfl rfl)

/-- Descriptor `k` lies in the table (R124). -/
theorem descriptor_of_agree {s : State} {m : Memory} (h : AgreeOn s.tableWindow s (s.withMem m)) {k : Nat}
    (hk : k < s.ntrNblk.toNat) : (s.withMem m).descriptor k = s.descriptor k := by
  have hread : ∀ a, s.srcAddr.toNat + 12 * k ≤ a → a + 4 ≤ s.srcAddr.toNat + 12 * k + 12 →
      (s.withMem m).memBytes a 4 = s.memBytes a 4 := by
    intro a hlo hhi
    exact h.memBytes (by simp only [State.tableWindow]; omega) (by simp only [State.tableWindow]; omega)
  have hsrc : (s.withMem m).srcAddr = s.srcAddr := rfl
  simp only [State.descriptor, State.memRead, hsrc]
  rw [hread _ (by omega) (by omega), hread _ (by omega) (by omega), hread _ (by omega) (by omega)]

theorem descriptors_of_agree {s : State} {m : Memory} (h : AgreeOn s.tableWindow s (s.withMem m)) :
    (s.withMem m).descriptors = s.descriptors :=
  List.map_congr_left fun _ hk => descriptor_of_agree h (List.mem_range.1 hk)

/-- The blocks NTR_BUILD frames lie in the payload windows its descriptors name (R131). -/
theorem buildBlocks_of_agree {s : State} {m : Memory} (hdesc : (s.withMem m).descriptors = s.descriptors)
    (h : ∀ d ∈ s.descriptors, AgreeOn d.payload s (s.withMem m)) : (s.withMem m).buildBlocks = s.buildBlocks := by
  rw [State.buildBlocks, hdesc]
  refine List.map_congr_left fun d hd => ?_
  have hpayload : (s.withMem m).memBytes d.addr d.len = s.memBytes d.addr d.len :=
    (h d hd).memBytes (Nat.le_refl _) (Nat.le_refl _)
  rw [hpayload]

/-- The first error of NTR_BUILD's window checks is its first error (R263). -/
theorem buildChecks_of_windowError {s : State} {e : ErrCode}
    (h : firstError (s.windowChecks s.tableWindow) = some e) : firstError s.buildChecks = some e := by
  rw [State.buildChecks, List.append_assoc, List.append_assoc, firstError_append, h]
  rfl

/-- A table outside MEM ends the command before any descriptor is read; a table in MEM names every payload (R131). -/
theorem ntrBuild_sameAnswer {s : State} {m : Memory}
    (h : ∀ w ∈ s.tableWindow :: s.namedPayloads, AgreeOn w s (s.withMem m)) : SameAnswer .ntrBuild s m := by
  cases hwin : firstError (s.windowChecks s.tableWindow) with
  | some e =>
    have hwin' : firstError ((s.withMem m).windowChecks (s.withMem m).tableWindow) = some e := hwin
    exact ⟨_, _, exec_of_error rfl (buildChecks_of_windowError hwin),
      exec_of_error rfl (buildChecks_of_windowError hwin'), fail_sameWrites s m e⟩
  | none =>
    obtain ⟨htable, -, -⟩ := (windowChecks_none s s.tableWindow).1 hwin
    rw [namedPayloads_of_inMem htable] at h
    have hdesc := descriptors_of_agree (h s.tableWindow (by simp))
    have hblocks := buildBlocks_of_agree hdesc fun d hd => h d.payload (by simp [List.mem_map_of_mem hd])
    have htotal : (s.withMem m).buildTotal = s.buildTotal := by simp only [State.buildTotal, hdesc]
    have hchecks : (s.withMem m).buildChecks = s.buildChecks := by
      simp only [State.buildChecks, hdesc, htotal]
      rfl
    have hwrites : (s.withMem m).writeBuilt = s.writeBuilt.withMem
        (m.write s.dstAddr.toNat (ntrBuild s.params (tagBytes s.ntrTag) s.ntrVer.toNat s.buildBlocks)) := by
      simp only [State.writeBuilt, hblocks, htotal]
      rfl
    refine ⟨_, _, rfl, rfl, ?_⟩
    rw [hchecks, hwrites]
    exact checked_sameWrites s.buildChecks (.bytes _ _ rfl rfl)

/-- A command does the same on two memories that agree on the windows it reads (R64). -/
theorem sameAnswer_of_agree {i : Instr} {s : State} {m : Memory}
    (h : ∀ w ∈ s.readWindows i, AgreeOn w s (s.withMem m)) : SameAnswer i s m := by
  have hsrc (hr : s.readWindows i = [s.srcWindow]) : (s.withMem m).srcBytes = s.srcBytes :=
    (h s.srcWindow (by simp [hr])).memBytes (Nat.le_refl _) (Nat.le_refl _)
  have htile (hr : s.readWindows i = [s.tileWindow]) :
      (s.withMem m).memBytes s.dstAddr.toNat 64 = s.memBytes s.dstAddr.toNat 64 :=
    (h s.tileWindow (by simp [hr])).memBytes (Nat.le_refl _) (Nat.le_refl _)
  cases i with
  | ntrParse => exact ntrParse_sameAnswer (hsrc rfl)
  | ntrBuild => exact ntrBuild_sameAnswer h
  | pix2tile => exact pix2tile_sameAnswer (hsrc rfl)
  | tile2pix => exact tile2pix_sameAnswer (hsrc rfl)
  | tileHflip => exact ⟨_, _, rfl, rfl, checked_sameWrites s.flipChecks (writeFlipped_sameWrites hflip (htile rfl))⟩
  | tileVflip => exact ⟨_, _, rfl, rfl, checked_sameWrites s.flipChecks (writeFlipped_sameWrites vflip (htile rfl))⟩
  | oamDec => exact oamDec_sameAnswer s m
  | oamEnc => exact oamEnc_sameAnswer s m
  | cipher => exact cipher_sameAnswer (hsrc rfl)
  | decipher => exact decipher_sameAnswer (hsrc rfl)

/-- Settles O29: the two runs commit the same error or write the same bytes and registers. -/
theorem commandReadsOnlyItsWindows : Obligations.CommandReadsOnlyItsWindows := by
  intro i s m hagree
  obtain ⟨t, t', hexec, hexec', hsame⟩ := sameAnswer_of_agree (i := i) (m := m) hagree
  exact ⟨t, t', hexec, hexec', fun r _ => hsame.readReg r, hsame.byteAt⟩

end Sys2Proof.Machine
end

section
/-! PROOFS. The family 30_encoding.md: the CMD word and its decoder, the CMD write, a reserved OPCODE, RESET while a
command runs, and what an error commits. -/

namespace Sys2Proof.Machine

/-! ## The CMD word -/

/-- The decoder reads nothing but OPCODE (R90). -/
theorem decode_append (ignored : BitVec 24) (op : Byte) : decode (ignored ++ op) = decodeOpcode op := by
  rw [decode, opcodeField_append]

theorem decode_encodeWith (ignored : BitVec 24) (i : Instr) : decode (encodeWith ignored i) = .ok i :=
  (decode_append ignored i.opcode).trans (decodeOpcode_ok.2 rfl)

/-- A word that decodes to a command is the command's, with the word's own ignored bits (R90, R93). -/
theorem eq_encodeWith_of_decode {w : Word} {i : Instr} (h : decode w = .ok i) :
    w = encodeWith (w.extractLsb' 8 24) i := by
  have hop : opcodeField w = i.opcode := decodeOpcode_ok.1 h
  rw [encodeWith, ← hop, append_opcodeField]

/-- Settles O1: a CMD word is its ignored bits and its OPCODE, and an OPCODE selects a command exactly when it is the
command's. -/
theorem decodeInvertsEncode : Obligations.DecodeInvertsEncode :=
  fun i _ => ⟨fun ignored => decode_encodeWith ignored i, fun _ => eq_encodeWith_of_decode⟩

/-- Settles O2: each row is the CMD word of its command, and every command has one of the ten OPCODEs. -/
theorem opcodeMapRows : Obligations.OpcodeMapRows := by
  refine ⟨by decide, fun x => ⟨decode_encodeWith x .ntrParse, decode_encodeWith x .ntrBuild,
    decode_encodeWith x .pix2tile, decode_encodeWith x .tile2pix, decode_encodeWith x .tileHflip,
    decode_encodeWith x .tileVflip, decode_encodeWith x .oamDec, decode_encodeWith x .oamEnc,
    decode_encodeWith x .cipher, decode_encodeWith x .decipher, fun op i hdec => ?_⟩⟩
  rw [decode_append] at hdec
  rw [decodeOpcode_ok.1 hdec]
  cases i <;> decide

/-! ## The CMD write -/

/-- The step of a CMD write while BUSY = 0 (R91). -/
theorem step_cmdWrite_idle {s : State} {v : Word} {rest : List HostAction} (hb : s.status.busy = false)
    (h : s.script = .regWrite 4 0x04 v :: rest) : step s = .next ((s.accessed rest).startCommand v) := by
  rw [step_write (r := .cmd) (.inl hb) h, hostWriteReg_start (by rw [accessed_status, hb])]

/-- The command just accepted is pending (R91, R47). -/
theorem startCommand_pending (s : State) (v : Word) : (s.startCommand v).pending = some (v.extractLsb' 0 8) := rfl

theorem startCommand_sameRegs (s : State) (v : Word) : SameRegs [.cmd, .status] s (s.startCommand v) := by
  intro r hr
  cases r <;> simp at hr <;> rfl

/-- Settles O6: the step is the accepted CMD write. -/
theorem cmdWriteStartsCommand : Obligations.CmdWriteStartsCommand := by
  intro s v rest hb hscript
  refine ⟨_, step_cmdWrite_idle hb hscript, rfl, ?status, startCommand_pending _ v,
    (startCommand_sameRegs _ v).of_accessed, sameMem_of_accessed (rest := rest) rfl rfl, ?surroundings⟩
  case status =>
    rw [startCommand_status, accessed_status]
    rfl
  case surroundings =>
    rw [accessed_idle hb]
    exact ⟨rfl, rfl, rfl, rfl, rfl, rfl⟩

/-! ## Reserved OPCODEs -/

/-- A word whose OPCODE is reserved names no command (R95). -/
theorem decode_reserved {v : Word} (h : ReservedOpcode (v.toNat % 256)) :
    decode v = .error (.illegalOpcode (v.extractLsb' 0 8)) := by
  refine decodeOpcode_reserved ?_
  rwa [opcodeField, toNat_field, Nat.pow_zero, Nat.div_one]

theorem step_reserved {s : State} (hm : EngineMoves s) (h : ReservedOpcode s.opcode.toNat) :
    step s = .next (s.endTurn.fail .illegalOpcode) :=
  step_engine_illegal hm (decodeOpcode_reserved h)

theorem fail_sameRegs (s : State) (e : ErrCode) : SameRegs [.status] s (s.fail e) :=
  fun r hr => fail_readReg s e r (by simpa using hr)

theorem fail_sameMem_clean (s : State) {e : ErrCode} (h : e.spoilsDst = false) : SameMem s (s.fail e) :=
  byteAt_congr (fail_mem_clean s e h) (fail_powerOns s e)

/-- Settles O3: the rejection is in the decoder, the write is accepted as any other, and the completion is the error commit
of ILLEGAL_OPCODE, which spares MEM. -/
theorem reservedOpcodeCompletesIllegal : Obligations.ReservedOpcodeCompletesIllegal := by
  refine ⟨fun v => decode_reserved, fun s v rest hb hscript _ => ?accepted, fun s hm hreserved => ?completes⟩
  case accepted => exact ⟨_, step_cmdWrite_idle hb hscript, startCommand_pending _ v⟩
  case completes =>
    refine ⟨_, step_reserved hm hreserved, ?status, ?regs, ?mem, ?surroundings⟩
    case status =>
      rw [ErrStatus, fail_status, endTurn_status]
      rfl
    case regs => exact fun r hr => (fail_sameRegs _ _ r hr).trans (endTurn_readReg s r)
    case mem => exact fun a => (fail_sameMem_clean s.endTurn rfl a).trans (endTurn_byteAt s a)
    case surroundings =>
      rw [endTurn_busy hm.1]
      exact ⟨rfl, rfl, rfl, rfl, rfl, rfl⟩

/-! ## RESET while a command runs -/

theorem step_reset {s : State} {rest : List HostAction} (hm : HostMoves s) (h : s.script = .reset :: rest) :
    step s = .next (s.accessed rest).abandon.resetRegs := by
  rw [step_host hm, hostStep, endTurn_script, h]
  rfl

/-- RESET leaves MEM as it is once the running command is abandoned (R291). -/
theorem resetRegs_byteAt (s : State) (a : Nat) : s.resetRegs.byteAt a = s.byteAt a := rfl

/-- The window an abandoned command leaves unspecified: 64 bytes for a flip, else DST_CAP bytes (R292). -/
theorem pendingDest_eq_window (s : State) :
    s.pendingDest = ⟨s.dstAddr.toNat, if s.opcode = 0x22#8 ∨ s.opcode = 0x23#8 then 64 else s.dstCap.toNat⟩ := by
  simp only [pendingDest_eq, List.mem_cons, List.not_mem_nil, or_false]
  split <;> rfl

/-- RESET while a command runs spoils the command's destination window (R292). -/
theorem accessed_abandon_busy {s : State} (hb : s.status.busy = true) (rest : List HostAction) :
    (s.accessed rest).abandon = (s.accessed rest).spoil s.pendingDest.start s.pendingDest.len := by
  rw [abandon_busy (by rw [accessed_status, hb]), State.accessed, withScript_pendingDest, endTurn_pendingDest]

/-- Settles O20: the step spoils the destination window and resets the registers. -/
theorem resetAbandonsRunningCommand : Obligations.ResetAbandonsRunningCommand := by
  intro s rest len hb hturn hscript hlen
  have hmoves : HostMoves s := .inr ⟨by simp [hscript], hturn⟩
  refine ⟨_, step_reset hmoves hscript, rfl, rfl, rfl, rfl, fun a ha => ?outside, fun k hk hin => ?inside⟩
  all_goals rw [resetRegs_byteAt, accessed_abandon_busy hb, pendingDest_eq_window, ← hlen]
  case outside => rw [byteAt_spoil_outside _ _ _ a ha, accessed_byteAt]
  case inside => rw [byteAt_spoil_inside _ _ _ k hk (by rwa [accessed_params]), accessed_draws]

/-! ## The error commit -/

/-- The windows a command reads, NTR_BUILD's payloads apart, are the one its window checks look at (R64, R262). -/
theorem eq_inputWindow_of_read {s : State} {i : Instr} {w : Window} (hi : i ≠ .ntrBuild) (hw : w ∈ s.readWindows i) :
    w = s.inputWindow i := by
  cases i with
  | ntrBuild => exact absurd rfl hi
  | ntrParse | pix2tile | tile2pix | tileHflip | tileVflip | cipher | decipher => exact List.mem_singleton.1 hw
  | oamDec | oamEnc => exact absurd hw List.not_mem_nil

/-- An address in a window that passed the window checks is not in the destination window (R262). -/
theorem not_dst_of_windowsOk {s : State} {w : Window} {a : Nat} (h : WindowsOk s w.start w.len)
    (ha : w.has a = true) : ¬ (s.dstAddr.toNat ≤ a ∧ a < s.dstAddr.toNat + s.dstCap.toNat) := by
  obtain ⟨-, -, hdisjoint⟩ := h
  obtain ⟨hlo, hhi⟩ := (has_iff w a).1 ha
  rintro ⟨hdlo, hdhi⟩
  exact hdisjoint ⟨by omega, by omega, by omega, by omega⟩

/-- Settles O25: an error that spoils the destination window comes after the window checks, so that the window lies in MEM
and apart from the window read. -/
theorem errorCommit : Obligations.ErrorCommit := by
  intro i s t hexec herr0 herr
  rcases exec_answers i s with ⟨u, hok, hw⟩ | ⟨e, hfail, -, hspoil⟩
  · obtain rfl : u.finish = t := Host.Outcome.next.inj (hok.symm.trans hexec)
    rw [finish_status, status_finishOk_err, hw.status, herr0] at herr
    cases herr
  · obtain rfl : s.fail e = t := Host.Outcome.next.inj (hfail.symm.trans hexec)
    simp only [fail_status, status_finishErr_errCode, code_mem_cleanCodes, Bool.not_eq_false]
    refine ⟨rfl, rfl, rfl, fail_sameRegs s e, fail_sameMem_clean s,
      fun hdirty => ⟨fail_byteAt_outside s e, fun k hk => ?free⟩, fun a ha => ?readOnly⟩
    case free =>
      obtain ⟨-, -, hin, -⟩ := hspoil.resolve_left (by simp [hdirty])
      exact fail_byteAt_spoiled s e hdirty k hk (by omega)
    case readOnly =>
      have hinput : (s.inputWindow i).has a = true := by
        split at ha
        · subst i; exact ha
        · obtain ⟨w, hw, hwa⟩ := ha
          rwa [← eq_inputWindow_of_read ‹_› hw]
      rcases hspoil with hclean | ⟨-, hwin⟩
      · exact fail_sameMem_clean s hclean a
      · exact fail_byteAt_outside s e a (not_dst_of_windowsOk hwin hinput)

end Sys2Proof.Machine
end

section
/-! PROOFS. The family 40_ntr_container.md: the register frame of every command, the errors of NTR_PARSE and NTR_BUILD
in order, what NTR_BUILD writes, and the structural round trip of `ntr_build` and `ntr_parse`. -/

namespace Sys2Proof.Machine

/-! ## The registers a command may change -/

/-- Settles O27: a completion writes the registers its rule names, an error commit changes STATUS alone. -/
theorem commandRegisterFrame : Obligations.CommandRegisterFrame := by
  intro i s t hexec
  rcases exec_answers i s with ⟨u, hok, hw⟩ | ⟨e, hfail, -⟩
  · obtain ⟨_, hdone, -, hregs, hsame, -⟩ := completes_of (P := fun _ => True) hok hw trivial
    obtain rfl := Host.Outcome.next.inj (hdone.symm.trans hexec)
    exact ⟨hregs, hsame⟩
  · obtain rfl := Host.Outcome.next.inj (hfail.symm.trans hexec)
    exact ⟨fun r hr => fail_readReg s e r (List.ne_of_not_mem_cons hr), by simp [SameSurroundings]⟩

/-! ## Rows that state checks -/

theorem StateChecks.cons {v : Bool} {e : ErrCode} {p : Prop} {cls : BitVec 4} {code : BitVec 8} {cs : List Check}
    {rows : List (Prop × BitVec 4 × BitVec 8)} (hv : v = true ↔ p) (hcls : cls = e.errClass) (hcode : code = e.code)
    (hrest : ¬ p → StateChecks cs rows) : StateChecks ((v, e) :: cs) ((p, cls, code) :: rows) :=
  ⟨⟨hv, hcls, hcode⟩, fun hpass => hrest fun hp => Bool.false_ne_true (hpass.symm.trans (hv.2 hp))⟩

theorem StateChecks.nil : StateChecks [] [] := trivial

/-- The checks of a list of items are stated by the rows of the items. -/
theorem stateChecks_flatMap {α : Type} {f : α → List Check} {g : α → List (Prop × BitVec 4 × BitVec 8)}
    (h : ∀ x, StateChecks (f x) (g x)) (l : List α) : StateChecks (l.flatMap f) (l.flatMap g) := by
  induction l with
  | nil => exact StateChecks.nil
  | cons x l ih => exact stateChecks_append (h x) fun _ => ih

/-- Checks pass when no row that states them holds. -/
theorem firstError_none_of_rows {cs : List Check} {rows : List (Prop × BitVec 4 × BitVec 8)}
    (hstates : StateChecks cs rows) (hrows : ∀ row ∈ rows, ¬ row.1) : firstError cs = none := by
  induction cs generalizing rows with
  | nil => rfl
  | cons c cs ih =>
    cases rows with
    | nil => exact hstates.elim
    | cons row rows =>
      obtain ⟨v, e⟩ := c
      obtain ⟨⟨hv, -⟩, hrest⟩ := hstates
      have hpass : v = false := Bool.eq_false_iff.2 fun hviolated => hrows row (by simp) (hv.1 hviolated)
      rw [firstError_cons, hpass]
      exact ih (hrest hpass) fun row' hmem => hrows row' (by simp [hmem])

theorem not_inMem_iff (w : Window) (p : Params) : (!w.inMem p) = true ↔ w.start + w.len > p.memBytes := by
  rw [Bool.not_eq_true', ← Bool.not_eq_true, inMem_iff, Nat.not_le]

theorem not_versionKnown_iff (s : State) (v : Nat) : (!versionKnown s.params v) = true ↔ ¬ VersionOk s v := by
  rw [Bool.not_eq_true', ← Bool.not_eq_true, versionKnown_iff]

/-! ## The errors of NTR_PARSE -/

/-- The header checks of NTR_PARSE as claims about the source window in MEM, in cursor order (R125). -/
def State.headerOrder (s : State) : List (Prop × BitVec 4 × BitVec 8) :=
  [(4 > s.srcLen.toNat, 1#4, 0x40#8),
   (6 > s.srcLen.toNat, 1#4, 0x40#8),
   (s.memRead (s.srcAddr.toNat + 4) 2 ≠ s.params.ntrBom.toNat, 2#4, 0x41#8),
   (8 > s.srcLen.toNat, 1#4, 0x40#8),
   (¬ VersionOk s (s.memRead (s.srcAddr.toNat + 6) 2), 2#4, 0x42#8),
   (12 > s.srcLen.toNat, 1#4, 0x40#8),
   (14 > s.srcLen.toNat, 1#4, 0x40#8),
   (s.memRead (s.srcAddr.toNat + 12) 2 ≠ 16, 1#4, 0x43#8),
   (16 > s.srcLen.toNat, 1#4, 0x40#8),
   (12 * s.memRead (s.srcAddr.toNat + 14) 2 > s.dstCap.toNat, 3#4, 0x05#8)]

/-- A field is read only after the check that it is present, so that it is a read of MEM (R125). -/
theorem headerChecks_states (s : State) :
    StateChecks (headerChecks s.params s.srcBytes s.dstCap.toNat) s.headerOrder := by
  rw [headerChecks, srcBytes_length]
  refine .cons decide_eq_true_iff rfl rfl fun _ => .cons decide_eq_true_iff rfl rfl fun h6 =>
    .cons ?bom rfl rfl fun _ => .cons decide_eq_true_iff rfl rfl fun h8 =>
    .cons ?version rfl rfl fun _ => .cons decide_eq_true_iff rfl rfl fun _ =>
    .cons decide_eq_true_iff rfl rfl fun h14 => .cons ?size rfl rfl fun _ =>
    .cons decide_eq_true_iff rfl rfl fun h16 => .cons ?capacity rfl rfl fun _ => .nil
  case bom => rw [u16le_srcBytes s 4 (by omega), bne_iff_ne]
  case version => rw [u16le_srcBytes s 6 (by omega), not_versionKnown_iff]
  case size => rw [u16le_srcBytes s 12 (by omega), bne_iff_ne]
  case capacity => rw [u16le_srcBytes s 14 (by omega), decide_eq_true_iff]

theorem exec_ntrParse_of_error {s : State} {e : ErrCode} (h : ntrParseResult s = .error e) :
    exec .ntrParse s = .next (s.fail e) := by
  show Host.Outcome.next (s.complete (ntrParseResult s)) = _
  rw [h, complete_error]

theorem ntrParse_of_headerError {p : Params} {b : List Byte} {cap : Nat} {e : ErrCode}
    (h : firstError (headerChecks p b cap) = some e) : ntrParse p b cap = .error e := by
  simp only [ntrParse, h]

/-- NTR_PARSE commits the first error of its window and header checks (R263). -/
theorem exec_ntrParse_of_checkError {s : State} {e : ErrCode}
    (h : firstError (s.windowChecks s.srcWindow ++ headerChecks s.params s.srcBytes s.dstCap.toNat) = some e) :
    exec .ntrParse s = .next (s.fail e) := by
  apply exec_ntrParse_of_error
  rw [firstError_append] at h
  cases hwin : firstError (s.windowChecks s.srcWindow) with
  | some e' =>
    rw [hwin] at h
    cases h
    simp only [ntrParseResult, hwin]
  | none =>
    rw [hwin] at h
    simp only [ntrParseResult, hwin, ntrParse_of_headerError h]

/-- `ntr_parse` of a good header with no block succeeds (R125). -/
theorem ntrParse_of_noBlock {p : Params} {b : List Byte} {cap : Nat} (h : firstError (headerChecks p b cap) = none)
    (hcount : u16le b 14 = 0) : ∃ r, ntrParse p b cap = .ok r := by
  simp only [ntrParse, h, hcount]
  exact ⟨_, rfl⟩

/-- Settles O55: the error order states the window checks and then the header checks; with no block nothing else can
fail. -/
theorem ntrParseHeaderErrorsInOrder : Obligations.NtrParseHeaderErrorsInOrder := by
  intro s
  refine reportsFirst_of_checks (rows := windowOrder s s.srcAddr.toNat s.srcLen.toNat ++ s.headerOrder)
    (stateChecks_append (windowChecks_states s s.srcWindow) fun _ => headerChecks_states s)
    (fun _ => exec_ntrParse_of_checkError) fun hpass hcount => ?_
  rw [firstError_append, Option.or_eq_none_iff] at hpass
  obtain ⟨hwin, hheader⟩ := hpass
  have h16 : 14 + 2 ≤ s.srcLen.toNat := by
    simpa using firstError_eq_none.1 hheader (decide (14 + 2 > s.srcBytes.length), .ntrTrunc) (by simp [headerChecks])
  obtain ⟨r, hparse⟩ := ntrParse_of_noBlock hheader ((u16le_srcBytes s 14 h16).trans hcount)
  exact succeeds_of (exec_ntrParse_of_ok ((windowChecks_none s s.srcWindow).1 hwin) hparse) rfl

/-- A block whose header runs past the input (R125). -/
theorem parseBlocks_headerTruncated {b : List Byte} {o : Nat} (n : Nat) (h : o + 8 > b.length) :
    parseBlocks b (n + 1) o = .error .ntrTrunc := by
  rw [parseBlocks, if_pos h]

/-- A block whose size field is below the size of its own header (R125). -/
theorem parseBlocks_sizeTooSmall {b : List Byte} {o : Nat} (n : Nat) (h8 : o + 8 ≤ b.length)
    (h : u32le b (o + 4) < 8) : parseBlocks b (n + 1) o = .error .ntrBlkSize := by
  rw [parseBlocks, if_neg (Nat.not_lt.2 h8), if_pos h]

/-- A block whose payload runs past the input (R125). -/
theorem parseBlocks_payloadTruncated {b : List Byte} {o : Nat} (n : Nat) (h8 : o + 8 ≤ b.length)
    (hsize : 8 ≤ u32le b (o + 4)) (h : o + u32le b (o + 4) > b.length) :
    parseBlocks b (n + 1) o = .error .ntrTrunc := by
  rw [parseBlocks, if_neg (Nat.not_lt.2 h8), if_neg (Nat.not_lt.2 hsize), if_pos h]

/-- `ntr_parse` reports the error of a block after fewer framed blocks than the header counts (R125). -/
theorem ntrParse_of_blockError {p : Params} {b : List Byte} {cap : Nat} {blocks : List Block} {e : ErrCode}
    (hheader : firstError (headerChecks p b cap) = none) (hcount : blocks.length < u16le b 14)
    (hframed : FramedFrom b 16 blocks)
    (h : ∀ n, parseBlocks b (n + 1) (16 + (blocks.map (fun k => k.len + 8)).sum) = .error e) :
    ntrParse p b cap = .error e := by
  obtain ⟨n, hn⟩ := Nat.exists_eq_add_of_lt hcount
  have hloop := parseBlocks_after hframed (h n)
  rw [← Nat.add_assoc, ← hn] at hloop
  simp only [ntrParse, hheader, hloop]

/-- Settles O56: the blocks before the cursor are read, and the one at it fails the block loop. -/
theorem ntrParseBlockErrorsInOrder : Obligations.NtrParseBlockErrorsInOrder := by
  intro s blocks o hwin h16 hbom hver hsize hcount hcap hframed ho
  subst ho
  have hheader := headerChecks_none h16 hbom hver hsize hcap
  have hwindows := (windowChecks_none s s.srcWindow).2 hwin
  rw [← u16le_srcBytes s 14 (by omega)] at hcount
  have hfails {e : ErrCode}
      (h : ∀ n, parseBlocks s.srcBytes (n + 1) (16 + (blocks.map (fun k => k.len + 8)).sum) = .error e) :
      exec .ntrParse s = .next (s.fail e) := by
    apply exec_ntrParse_of_error
    simp only [ntrParseResult, hwindows, ntrParse_of_blockError hheader hcount hframed h]
  generalize 16 + (blocks.map (fun k => k.len + 8)).sum = o at hfails
  rw [Nat.add_assoc s.srcAddr.toNat, ← srcBytes_length s]
  refine ⟨fun h => failsSpoiling_of (hfails fun n => parseBlocks_headerTruncated n h), fun h8 => ?_, fun h8 => ?_⟩
  all_goals rw [← u32le_srcBytes s (o + 4) (by rw [← srcBytes_length s]; omega)]
  · exact fun h => failsSpoiling_of (hfails fun n => parseBlocks_sizeTooSmall n h8 h)
  · exact fun hmin h => failsSpoiling_of (hfails fun n => parseBlocks_payloadTruncated n h8 hmin h)

/-! ## The bytes of a container -/

/-- A number read from a byte sequence is its first byte and 256 times the number after it; past the end both are 0. -/
theorem leNat_sliceOf_succ (b : List Byte) (o n : Nat) :
    leNat (sliceOf b o (n + 1)) = (byteOf b o).toNat + 256 * leNat (sliceOf b (o + 1) n) := by
  by_cases ho : o < b.length
  · rw [sliceOf, List.drop_eq_getElem_cons ho, List.take_succ_cons, leNat, byteOf_eq_getElem ho, sliceOf]
  · have hout : b.length ≤ o := Nat.not_lt.1 ho
    simp [sliceOf, byteOf, List.drop_eq_nil_of_le hout, List.drop_eq_nil_of_le (Nat.le_succ_of_le hout),
      List.getElem?_eq_none hout, leNat]

theorem leNat_sliceOf_zero (b : List Byte) (o : Nat) : leNat (sliceOf b o 0) = 0 := rfl

theorem u16le_eq_leNat (b : List Byte) (o : Nat) : u16le b o = leNat (sliceOf b o 2) := by
  simp only [u16le, leNat_sliceOf_succ, leNat_sliceOf_zero, Nat.mul_zero, Nat.add_zero]

theorem u32le_eq_leNat (b : List Byte) (o : Nat) : u32le b o = leNat (sliceOf b o 4) := by
  simp only [u32le, leNat_sliceOf_succ, leNat_sliceOf_zero, Nat.add_assoc, Nat.reduceAdd]
  omega

theorem sliceOf_eq_mid {b pre mid post : List Byte} {o n : Nat} (hb : b = pre ++ mid ++ post) (ho : o = pre.length)
    (hn : n = mid.length) : sliceOf b o n = mid := by
  rw [hb, ho, hn, sliceOf_append]

/-- The fields of a container's header (R121, R128). -/
theorem ntrBuild_header {p : Params} {tag : List Byte} {ver : Nat} {blocks : List (List Byte × List Byte)}
    {b : List Byte} (hb : b = ntrBuild p tag ver blocks) (ht : tag.length = 4) (htags : ∀ k ∈ blocks, k.1.length = 4) :
    sliceOf b 0 4 = tag ∧ sliceOf b 4 2 = le16 p.ntrBom.toNat ∧ sliceOf b 6 2 = le16 ver
      ∧ sliceOf b 8 4 = le32 b.length ∧ sliceOf b 12 2 = le16 16 ∧ sliceOf b 14 2 = le16 blocks.length := by
  have hlen : b.length = 16 + (blocks.flatMap (fun k => blockBytes k.1 k.2)).length := by
    rw [hb, ntrBuild_length p tag ver blocks ht htags, blocksBytes_length blocks htags]
  rw [hlen, hb, ntrBuild]
  obtain ⟨_, _, _, _, rfl⟩ := List.length_eq_four.1 ht
  exact ⟨rfl, rfl, rfl, rfl, rfl, rfl⟩

/-- The header of a container as `ntr_parse` reads it (R125). -/
theorem ntrBuild_fields {p : Params} {tag : List Byte} {ver : Nat} {blocks : List (List Byte × List Byte)}
    {b : List Byte} (hb : b = ntrBuild p tag ver blocks) (ht : tag.length = 4) (htags : ∀ k ∈ blocks, k.1.length = 4)
    (hver : ver < 2 ^ 16) (hcount : blocks.length < 2 ^ 16) (hlt : b.length < 2 ^ 32) :
    sliceOf b 0 4 = tag ∧ u16le b 4 = p.ntrBom.toNat ∧ u16le b 6 = ver ∧ u32le b 8 = b.length ∧ u16le b 12 = 16
      ∧ u16le b 14 = blocks.length := by
  obtain ⟨htag, hbom, hversion, htotal, hsize, hnblk⟩ := ntrBuild_header hb ht htags
  rw [u16le_eq_leNat, hbom, u16le_eq_leNat, hversion, u32le_eq_leNat, htotal, u16le_eq_leNat, hsize, u16le_eq_leNat,
    hnblk, leNat_le16 p.ntrBom.isLt, leNat_le16 hver, leNat_le32, Nat.mod_eq_of_lt hlt, leNat_le16 (by decide),
    leNat_le16 hcount]
  exact ⟨htag, rfl, rfl, rfl, rfl, rfl⟩

/-- The three parts of a block after `pre` (R122). -/
theorem blockBytes_parts {b pre tag payload post : List Byte} (hb : b = pre ++ blockBytes tag payload ++ post)
    (ht : tag.length = 4) :
    sliceOf b pre.length 4 = tag ∧ sliceOf b (pre.length + 4) 4 = le32 (payload.length + 8)
      ∧ sliceOf b (pre.length + 8) payload.length = payload := by
  refine ⟨sliceOf_eq_mid (pre := pre) (post := le32 (payload.length + 8) ++ payload ++ post) ?_ rfl ht.symm,
    sliceOf_eq_mid (pre := pre ++ tag) (post := payload ++ post) ?_ (by simp [ht]) rfl,
    sliceOf_eq_mid (pre := pre ++ tag ++ le32 (payload.length + 8)) (post := post) ?_ (by simp [ht]) rfl⟩
  all_goals simp only [hb, blockBytes, List.append_assoc]

theorem blockBytes_length {tag : List Byte} (payload : List Byte) (ht : tag.length = 4) :
    (blockBytes tag payload).length = payload.length + 8 := by
  simp only [blockBytes, List.length_append, le32_length, ht]
  omega

/-- Blocks written after `pre` are framed from there, and each gives its tag and its payload back (R132). -/
theorem framed_of_blockBytes {blocks : List (List Byte × List Byte)} (htags : ∀ k ∈ blocks, k.1.length = 4)
    (pre : List Byte) {b : List Byte} (hb : b = pre ++ blocks.flatMap (fun k => blockBytes k.1 k.2))
    (hlt : b.length < 2 ^ 32) :
    ∃ parsed, FramedFrom b pre.length parsed ∧ parsed.length = blocks.length
      ∧ parsed.map (fun k => (k.tag, sliceOf b k.off k.len)) = blocks := by
  induction blocks generalizing pre with
  | nil => exact ⟨[], trivial, rfl, rfl⟩
  | cons block rest ih =>
    have ht : block.1.length = 4 := htags _ List.mem_cons_self
    have hlen := blockBytes_length block.2 ht
    rw [List.flatMap_cons, ← List.append_assoc] at hb
    obtain ⟨parsed, hframed, hcount, hparsed⟩ :=
      ih (fun k hk => htags k (List.mem_cons_of_mem _ hk)) (pre ++ blockBytes block.1 block.2) hb
    obtain ⟨htag, hsize, hpayload⟩ := blockBytes_parts hb ht
    have hend : pre.length + (block.2.length + 8) ≤ b.length := by
      rw [hb, List.length_append, List.length_append, hlen]
      exact Nat.le_add_right _ _
    have hfield : u32le b (pre.length + 4) = block.2.length + 8 := by
      rw [u32le_eq_leNat, hsize, leNat_le32, Nat.mod_eq_of_lt (by omega)]
    rw [List.length_append, hlen] at hframed
    refine ⟨⟨block.1, pre.length + 8, block.2.length⟩ :: parsed, ⟨by omega, by omega, by omega, ?_, ?_⟩, ?_, ?_⟩
    · rw [htag, hfield, Nat.add_sub_cancel]
    · rwa [hfield]
    · rw [List.length_cons, hcount, List.length_cons]
    · rw [List.map_cons, hpayload, hparsed]

/-- The blocks of a container are framed from the end of its header, and each gives its tag and its payload back
(R132). -/
theorem ntrBuild_framed {p : Params} {tag : List Byte} {ver : Nat} {blocks : List (List Byte × List Byte)}
    {b : List Byte} (hb : b = ntrBuild p tag ver blocks) (ht : tag.length = 4) (htags : ∀ k ∈ blocks, k.1.length = 4)
    (hlt : b.length < 2 ^ 32) :
    ∃ parsed, FramedFrom b 16 parsed ∧ parsed.length = blocks.length
      ∧ parsed.map (fun k => (k.tag, sliceOf b k.off k.len)) = blocks := by
  have h := framed_of_blockBytes htags _ hb hlt
  simpa only [List.length_append, le16_length, le32_length, ht] using h

/-- The header checks of `ntr_parse` pass on a good header (R125). -/
theorem headerChecks_pass {p : Params} {b : List Byte} {cap : Nat} (h16 : 16 ≤ b.length)
    (hbom : u16le b 4 = p.ntrBom.toNat) (hver : u16le b 6 = p.ntrVerA.toNat ∨ u16le b 6 = p.ntrVerB.toNat)
    (hsize : u16le b 12 = 16) (hcap : 12 * u16le b 14 ≤ cap) : firstError (headerChecks p b cap) = none := by
  have hknown : versionKnown p (u16le b 6) = true := by simpa [versionKnown] using hver
  rw [firstError_eq_none, headerChecks, hbom, hknown, hsize]
  simp only [List.forall_mem_cons, List.not_mem_nil, false_imp_iff, implies_true, decide_eq_false_iff_not,
    bne_self_eq_false, Bool.not_true, true_and, and_true]
  omega

/-- Settles O59: the header fields and the blocks of what `ntr_build` makes read back. -/
theorem ntrStructuralRoundTrip : Obligations.NtrStructuralRoundTrip := by
  intro p tag ver cap blocks ht htags hver hcount hlt hcap
  have hver16 : ver < 2 ^ 16 := by rcases hver with rfl | rfl <;> exact BitVec.isLt _
  obtain ⟨htag, hbom, hversion, htotal, hsize, hnblk⟩ := ntrBuild_fields rfl ht htags hver16 (by omega) hlt
  obtain ⟨parsed, hframed, hparsedCount, hparsed⟩ := ntrBuild_framed rfl ht htags hlt
  have h16 : 16 ≤ (ntrBuild p tag ver blocks).length := by
    rw [ntrBuild_length p tag ver blocks ht htags]
    exact Nat.le_add_right _ _
  generalize ntrBuild p tag ver blocks = b at *
  have hheader : firstError (headerChecks p b cap) = none :=
    headerChecks_pass h16 hbom (hversion ▸ hver) hsize (hnblk ▸ hcap)
  have hloop : parseBlocks b (u16le b 14) 16 = .ok parsed := by
    rw [hnblk, ← hparsedCount]
    exact parseBlocks_of_framed hframed
  refine ⟨⟨sliceOf b 0 4, u16le b 6, u32le b 8, u16le b 14, parsed⟩, ?_, htag, hversion, htotal, hnblk, hparsed⟩
  simp only [ntrParse, hheader, hloop]

/-! ## The errors of NTR_BUILD -/

/-- The container NTR_BUILD makes ends where a block after its last would begin (R131). -/
theorem buildTotal_eq_blockOffset (s : State) : s.buildTotal = s.blockOffset s.ntrNblk.toNat := by
  rw [State.blockOffset, List.take_of_length_le (by simp [State.descriptors]), State.buildTotal]

/-- The checks of NTR_BUILD as claims about the state, in order (R131). -/
def State.buildOrder (s : State) : List (Prop × BitVec 4 × BitVec 8) :=
  windowOrder s s.srcAddr.toNat (12 * s.ntrNblk.toNat)
    ++ [(¬ VersionOk s s.ntrVer.toNat, 3#4, 0x45#8)]
    ++ (List.range s.ntrNblk.toNat).flatMap (fun k =>
        [((s.descriptor k).addr + (s.descriptor k).len > s.params.memBytes, 3#4, 0x02#8),
         (Overlap (s.descriptor k).addr (s.descriptor k).len s.dstAddr.toNat s.dstCap.toNat, 3#4, 0x04#8)])
    ++ [(s.blockOffset s.ntrNblk.toNat > s.dstCap.toNat, 3#4, 0x05#8)]

theorem buildChecks_states (s : State) : StateChecks s.buildChecks s.buildOrder := by
  rw [State.buildChecks, State.descriptors, List.flatMap_map, buildTotal_eq_blockOffset]
  refine stateChecks_append (stateChecks_append (stateChecks_append (windowChecks_states s s.tableWindow)
    fun _ => ?version) fun _ => stateChecks_flatMap (fun k => ?payload) _) fun _ => ?capacity
  case version => exact .cons (not_versionKnown_iff s _) rfl rfl fun _ => .nil
  case payload =>
    exact .cons (not_inMem_iff _ _) rfl rfl fun _ => .cons (overlaps_iff _ _) rfl rfl fun _ => .nil
  case capacity => exact .cons decide_eq_true_iff rfl rfl fun _ => .nil

/-- Settles O58: NTR_BUILD answers the first error of its checks, and the error order states them. -/
theorem ntrBuildErrorsInOrder : Obligations.NtrBuildErrorsInOrder := fun s =>
  reportsFirst_of_checks (rows := s.buildOrder) (buildChecks_states s) (fun _ => exec_of_error rfl)
    fun hpass => succeeds_of (exec_of_pass rfl hpass) rfl

/-! ## What NTR_BUILD writes -/

/-- The checks of NTR_BUILD pass on good windows, an accepted version and enough capacity (R131). -/
theorem buildChecks_none {s : State} (htable : WindowsOk s s.srcAddr.toNat (12 * s.ntrNblk.toNat))
    (hver : VersionOk s s.ntrVer.toNat)
    (hpayloads : ∀ k, k < s.ntrNblk.toNat → WindowsOk s (s.descriptor k).addr (s.descriptor k).len)
    (hcap : s.blockOffset s.ntrNblk.toNat ≤ s.dstCap.toNat) : firstError s.buildChecks = none := by
  refine firstError_none_of_rows (buildChecks_states s) fun row hrow => ?_
  obtain ⟨hsrc, hdst, hoverlap⟩ := htable
  simp only [State.buildOrder, windowOrder, List.mem_append, List.mem_cons, List.mem_flatMap, List.mem_range,
    List.not_mem_nil, or_false] at hrow
  rcases hrow with (((rfl | rfl | rfl) | rfl) | ⟨k, hk, rfl | rfl⟩) | rfl
  · exact Nat.not_lt.2 hsrc
  · exact Nat.not_lt.2 hdst
  · exact hoverlap
  · exact not_not_intro hver
  · exact Nat.not_lt.2 (hpayloads k hk).1
  · exact (hpayloads k hk).2.2
  · exact Nat.not_lt.2 hcap

/-- A slice of a block of bytes that was written reads back. -/
theorem memBytes_of_write {s t : State} {d : Nat} {bs : List Byte} (hm : t.mem = s.mem.write d bs)
    (hp : t.powerOns = s.powerOns) {o n : Nat} (h : o + n ≤ bs.length) : t.memBytes (d + o) n = sliceOf bs o n := by
  apply List.ext_getElem
  · rw [memBytes_length, sliceOf_length h]
  · intro i hi hi'
    rw [memBytes_length] at hi
    rw [memBytes_getElem, Nat.add_assoc, byteAt_congr (s := s.writeBytes d bs) hm hp,
      byteAt_writeBytes_inside s d _ bs (by omega)]
    simp [sliceOf]

theorem buildBlocks_length (s : State) : s.buildBlocks.length = s.ntrNblk.toNat := by
  simp [State.buildBlocks, State.descriptors]

theorem buildBlocks_getElem (s : State) {k : Nat} (hk : k < s.buildBlocks.length) :
    s.buildBlocks[k] = (s.memBytes (s.srcAddr.toNat + 12 * k) 4,
      s.memBytes (s.descriptor k).addr (s.descriptor k).len) := by
  simp [State.buildBlocks, State.descriptors, State.descriptor]

theorem buildBlocks_tags (s : State) : ∀ k ∈ s.buildBlocks, k.1.length = 4 := by
  intro block hmem
  obtain ⟨k, hk, rfl⟩ := List.getElem_of_mem hmem
  rw [buildBlocks_getElem, memBytes_length]

/-- The offset of a block in the container is 16 and the lengths of the blocks before it (R122). -/
theorem blockOffset_eq (s : State) (k : Nat) :
    s.blockOffset k = 16 + ((s.buildBlocks.take k).map (fun block => block.2.length + 8)).sum := by
  simp [State.blockOffset, State.buildBlocks, Function.comp_def, ← List.map_take]

/-- Every block lies in the container (R131). -/
theorem blockOffset_end_le (s : State) {k : Nat} (hk : k < s.ntrNblk.toNat) :
    s.blockOffset k + 8 + (s.descriptor k).len ≤ s.blockOffset s.ntrNblk.toNat := by
  have hlt : k < s.descriptors.length := by simpa [State.descriptors] using hk
  have hsplit : s.descriptors = s.descriptors.take k ++ s.descriptor k :: s.descriptors.drop (k + 1) := by
    have hget : s.descriptors[k] = s.descriptor k := by simp [State.descriptors]
    rw [← hget, ← List.drop_eq_getElem_cons hlt, List.take_append_drop]
  rw [← buildTotal_eq_blockOffset, State.buildTotal, hsplit, List.map_append, List.sum_append, List.map_cons,
    List.sum_cons, State.blockOffset]
  omega

/-- The parts of block `k` of a container stand at its offset (R122, R128). -/
theorem ntrBuild_block {p : Params} {tag : List Byte} {ver : Nat} {blocks : List (List Byte × List Byte)}
    {b : List Byte} (hb : b = ntrBuild p tag ver blocks) (ht : tag.length = 4) (htags : ∀ k ∈ blocks, k.1.length = 4)
    {k : Nat} (hk : k < blocks.length) {o : Nat}
    (ho : o = 16 + ((blocks.take k).map (fun block => block.2.length + 8)).sum) :
    sliceOf b o 4 = blocks[k].1 ∧ sliceOf b (o + 4) 4 = le32 (blocks[k].2.length + 8)
      ∧ sliceOf b (o + 8) blocks[k].2.length = blocks[k].2 := by
  have hbefore := blocksBytes_length (blocks.take k) fun block hmem => htags block (List.mem_of_mem_take hmem)
  rw [ntrBuild, flatMap_split _ _ k hk, ← List.append_assoc, ← List.append_assoc] at hb
  have hparts := blockBytes_parts hb (htags _ (List.getElem_mem hk))
  simp only [List.length_append, hbefore, ht, le16_length, le32_length, Nat.reduceAdd] at hparts
  rwa [← ho] at hparts

/-- Settles O57: the checks pass, and the header fields and each block are read back from the bytes written. -/
theorem ntrBuildWritesContainer : Obligations.NtrBuildWritesContainer := by
  intro s htable hver hpayloads hcap
  have hexec := exec_of_pass (i := .ntrBuild) (t := s.writeBuilt) rfl (buildChecks_none htable hver hpayloads hcap)
  have htotal := buildTotal_eq_blockOffset s
  have hlen := (built_length s).trans htotal
  have hcap32 := s.dstCap.isLt
  refine completes_of hexec (writes_built s (htotal ▸ hcap) htable.2.1) ⟨?total, ?resultLen, ?outside, ?parts⟩
  case total | resultLen =>
    show (BitVec.ofNat 32 s.buildTotal).toNat = _
    rw [BitVec.toNat_ofNat, htotal, Nat.mod_eq_of_lt (by omega)]
  case outside => exact writeBytes_outside_window s _ ⟨_, _⟩ _ rfl rfl hlen.le
  case parts =>
    have hread {o n : Nat} (h : o + n ≤ s.blockOffset s.ntrNblk.toNat) :=
      memBytes_of_write (s := s) (t := s.writeBuilt.finish) (d := s.dstAddr.toNat) (o := o) (n := n) rfl rfl
        (hlen.symm ▸ h)
    have h16 : 16 ≤ s.blockOffset s.ntrNblk.toNat := Nat.le_add_right _ _
    obtain ⟨htag, hbom, hversion, hsum, hsize, hnblk⟩ := ntrBuild_fields rfl (tagBytes_length s.ntrTag)
      (buildBlocks_tags s) s.ntrVer.isLt ((buildBlocks_length s).symm ▸ s.ntrNblk.isLt) (p := s.params) (by omega)
    rw [hlen] at hsum
    rw [buildBlocks_length] at hnblk
    refine ⟨?_, ?_, ?_, ?_, ?_, ?_, fun k hk => ?_⟩
    · rw [State.memRead, ← Nat.add_zero s.dstAddr.toNat, hread (by omega), htag, leNat_tagBytes]
    · rw [State.memRead, hread (by omega), ← u16le_eq_leNat, hbom]
    · rw [State.memRead, hread (by omega), ← u16le_eq_leNat, hversion]
    · rw [State.memRead, hread (by omega), ← u32le_eq_leNat, hsum]
    · rw [State.memRead, hread (by omega), ← u16le_eq_leNat, hsize]
    · rw [State.memRead, hread (by omega), ← u16le_eq_leNat, hnblk]
    · have hend := blockOffset_end_le s hk
      obtain ⟨hbtag, hbsize, hbpayload⟩ := ntrBuild_block rfl (tagBytes_length s.ntrTag) (buildBlocks_tags s)
        (by rwa [buildBlocks_length]) (blockOffset_eq s k) (p := s.params) (ver := s.ntrVer.toNat)
      rw [buildBlocks_getElem] at hbtag hbsize hbpayload
      simp only [memBytes_length] at hbsize hbpayload
      refine ⟨?_, ?_, ?_⟩
      · rw [hread (by omega), hbtag]
      · rw [State.memRead, Nat.add_assoc, hread (by omega), hbsize, leNat_le32, Nat.mod_eq_of_lt (by omega)]
      · rw [Nat.add_assoc, hread (by omega), hbpayload]

end Sys2Proof.Machine
end

section
/-! PROOFS. The family 41_tile_transform.md: the laws of the transforms as functions of byte sequences, the errors of
PIX2TILE and TILE2PIX in order, and where they and the flips put every byte. -/

namespace Sys2Proof.Machine

/-! ## The laws of the transforms -/

/-- A sequence that takes its bytes from `q` at `f`, where `q` takes its bytes from `p` at `g`, is the one that takes
them from `p` at `e`, if `e` is `g` after `f`. -/
theorem rearranged_twice_eq {p q r u : List Byte} {e f g : Nat → Nat}
    (hq : ∀ j (hj : j < q.length), q[j] = byteOf p (g j)) (hr : ∀ i (hi : i < r.length), r[i] = byteOf q (f i))
    (hu : ∀ i (hi : i < u.length), u[i] = byteOf p (e i)) (hqlen : q.length = u.length) (hrlen : r.length = u.length)
    (hindex : ∀ i, i < u.length → f i < u.length ∧ g (f i) = e i) : r = u := by
  refine List.ext_getElem hrlen fun i hi hi' => ?_
  obtain ⟨hf, hg⟩ := hindex i hi'
  rw [hr i hi, byteOf_eq_getElem (hqlen ▸ hf), hq, hg, hu i hi']

theorem getElem_eq_byteOf (p : List Byte) (i : Nat) (hi : i < p.length) : p[i] = byteOf p i :=
  (byteOf_eq_getElem hi).symm

theorem reverse_getElem (p : List Byte) (i : Nat) (hi : i < p.reverse.length) :
    p.reverse[i] = byteOf p (p.length - 1 - i) := by
  rw [List.getElem_reverse, getElem_eq_byteOf]

/-- Settles O40: the index maps are inverse to each other and stay inside the image. -/
theorem tileTransformsInvert : Obligations.TileTransformsInvert := by
  intro p w h64 hw hrows
  have hpos : 0 < w := Nat.pos_of_ne_zero hw
  constructor
  · exact rearranged_twice_eq (pixelsToTiles_getElem p w) (tilesToPixels_getElem _ w) (getElem_eq_byteOf p)
      (by simp) (by simp) fun i hi => ⟨tileIndex_lt hpos h64 hrows hi, pixelIndex_tileIndex hpos i⟩
  · exact rearranged_twice_eq (tilesToPixels_getElem p w) (pixelsToTiles_getElem _ w) (getElem_eq_byteOf p)
      (by simp) (by simp) fun j hj => ⟨pixelIndex_lt hpos h64 hrows hj, tileIndex_pixelIndex hpos j⟩

/-- Settles O41: each flip is an involution of the 64 indices, and the two in either order take index `i` to
`63 - i`. -/
theorem flipLaws : Obligations.FlipLaws := by
  intro t ht
  have hrev : t.reverse.length = 64 := by rw [List.length_reverse, ht]
  refine ⟨?_, ?_, ?_, ?_⟩
  · exact rearranged_twice_eq (hflip_getElem t) (hflip_getElem _) (getElem_eq_byteOf t)
      (by simp [ht]) (by simp [ht]) fun i hi => by omega
  · exact rearranged_twice_eq (vflip_getElem t) (vflip_getElem _) (getElem_eq_byteOf t)
      (by simp [ht]) (by simp [ht]) fun i hi => by omega
  · exact rearranged_twice_eq (vflip_getElem t) (hflip_getElem _) (reverse_getElem t)
      (by simp [ht]) (by simp [ht]) fun i hi => by omega
  · exact rearranged_twice_eq (hflip_getElem t) (vflip_getElem _) (reverse_getElem t)
      (by simp [ht]) (by simp [ht]) fun i hi => by omega

/-! ## The errors of PIX2TILE and TILE2PIX -/

/-- The checks of PIX2TILE and TILE2PIX as claims about the registers, in order (R164, R165, R162). -/
def State.tileOrder (s : State) : List (Prop × BitVec 4 × BitVec 8) :=
  windowOrder s s.srcAddr.toNat s.srcLen.toNat
    ++ [(s.srcLen.toNat % 64 ≠ 0, 3#4, 0x10#8), (s.tiles.toNat = 0, 3#4, 0x11#8),
        (s.srcLen.toNat / 64 % s.tiles.toNat ≠ 0, 3#4, 0x12#8), (s.srcLen.toNat > s.dstCap.toNat, 3#4, 0x05#8)]

theorem tileChecks_states (s : State) : StateChecks s.tileChecks s.tileOrder :=
  stateChecks_append (windowChecks_states s s.srcWindow) fun _ => .cons bne_iff_ne rfl rfl fun _ =>
    .cons beq_iff_eq rfl rfl fun _ => .cons bne_iff_ne rfl rfl fun _ => .cons decide_eq_true_iff rfl rfl fun _ => .nil

/-- A command with the tile checks reports their errors in the order that states them (R263). -/
theorem reportsFirst_tileOrder {i : Instr} {s : State} {out : List Byte}
    (hexec : exec i s = .next (s.complete (checked s.tileChecks (s.writeSameLength out)))) :
    ReportsFirst i s (Succeeds i s) s.tileOrder :=
  reportsFirst_of_checks (tileChecks_states s) (fun _ => exec_of_error hexec)
    fun hpass => succeeds_of (exec_of_pass hexec hpass) rfl

/-- Settles O37: both commands have the same checks. -/
theorem tileErrorsInOrder : Obligations.TileErrorsInOrder := by
  rintro i s (rfl | rfl)
  · exact reportsFirst_tileOrder rfl
  · exact reportsFirst_tileOrder rfl

/-- The tile checks pass on good windows, whole rows of tiles and enough capacity (R164, R165, R162). -/
theorem tileChecks_none {s : State} (hwin : WindowsOk s s.srcAddr.toNat s.srcLen.toNat)
    (h64 : s.srcLen.toNat % 64 = 0) (hw : s.tiles.toNat ≠ 0) (hrows : s.srcLen.toNat / 64 % s.tiles.toNat = 0)
    (hcap : s.srcLen.toNat ≤ s.dstCap.toNat) : firstError s.tileChecks = none := by
  rw [State.tileChecks, firstError_append, (windowChecks_none s s.srcWindow).2 hwin]
  simp [h64, hw, hrows, hcap]

/-! ## What PIX2TILE and TILE2PIX write -/

/-- A command whose output has the length of its input completes when its checks pass, and its claim about bytes follows
from the output standing at DST_ADDR (R164, R165). -/
theorem completes_sameLength {i : Instr} {s : State} {cs : List Check} {out : List Byte} {P : State → Prop}
    (hexec : exec i s = .next (s.complete (checked cs (s.writeSameLength out)))) (hpass : firstError cs = none)
    (hregs : writtenRegs i = [.resultLen]) (hwindow : s.writeWindow i = some s.dstWindow)
    (hlen : out.length = s.srcLen.toNat) (hcap : s.srcLen.toNat ≤ s.dstCap.toNat)
    (hdst : s.dstAddr.toNat + s.dstCap.toNat ≤ s.params.memBytes)
    (hbytes : ∀ t : State, (∀ k (hk : k < out.length), t.byteAt (s.dstAddr.toNat + k) = out[k]) → P t) :
    Completes i s fun t =>
      t.readReg .resultLen = s.srcLen ∧ SameMemOutside ⟨s.dstAddr.toNat, s.srcLen.toNat⟩ s t ∧ P t := by
  have hw := writes_sameLength i s out hregs hwindow (hlen.trans_le hcap) hdst
  exact completes_of (exec_of_pass hexec hpass) hw
    ⟨rfl, writeBytes_outside_window s _ ⟨_, _⟩ out rfl rfl hlen.le, hbytes _ (writeSameLength_byteAt s out)⟩

/-- Settles O35: the byte at a pixel's tile-major index is the pixel. -/
theorem pixToTileRearranges : Obligations.PixToTileRearranges := by
  intro s hwin h64 hw hrows hcap
  refine completes_sameLength rfl (tileChecks_none hwin h64 hw hrows hcap) rfl rfl (by simp) hcap hwin.2.1
    fun t hout y x hx hin => ?_
  have hlt := tileIndex_lt (Nat.pos_of_ne_zero hw) h64 hrows hin
  rw [tileIndex_pixel y hx] at hlt
  rw [hout _ (by simpa using hlt), pixelsToTiles_getElem, pixelIndex_tile y hx]
  exact byteOf_memBytes s _ _ _ hin

/-- Settles O36: the pixel is the byte at its tile-major index. -/
theorem tileToPixRearranges : Obligations.TileToPixRearranges := by
  intro s hwin h64 hw hrows hcap
  refine completes_sameLength rfl (tileChecks_none hwin h64 hw hrows hcap) rfl rfl (by simp) hcap hwin.2.1
    fun t hout y x hx hin => ?_
  have hlt := tileIndex_lt (Nat.pos_of_ne_zero hw) h64 hrows hin
  rw [hout _ (by simpa using hin), tilesToPixels_getElem, ← tileIndex_pixel y hx]
  exact byteOf_memBytes s _ _ _ hlt

/-! ## The flips -/

/-- The only check of a flip states that the tile is in MEM (R168, R169). -/
theorem firstError_flipChecks (s : State) :
    firstError s.flipChecks = if s.dstAddr.toNat + 64 > s.params.memBytes then some .dstRange else none := by
  rw [State.flipChecks, firstError_cons, firstError_nil]
  exact if_congr (not_inMem_iff s.tileWindow s.params) rfl rfl

/-- A flip whose tile is not in MEM fails with DST_RANGE and changes nothing else (R168, R169, R264). -/
theorem failsClean_flip {i : Instr} {s : State} {flip : List Byte → List Byte}
    (hexec : exec i s = .next (s.complete (checked s.flipChecks (s.writeFlipped flip))))
    (hout : s.dstAddr.toNat + 64 > s.params.memBytes) : FailsClean i 3#4 0x03#8 s :=
  failsClean_of (exec_of_error hexec ((firstError_flipChecks s).trans (if_pos hout))) rfl

/-- A flip whose tile is in MEM completes, and its claim about bytes follows from the flipped tile standing at DST_ADDR
(R168, R169). -/
theorem completes_flip {i : Instr} {s : State} {flip : List Byte → List Byte} {P : State → Prop}
    (hexec : exec i s = .next (s.complete (checked s.flipChecks (s.writeFlipped flip))))
    (hregs : writtenRegs i = [.resultLen]) (hwindow : s.writeWindow i = some s.tileWindow)
    (hlen : ∀ tile, (flip tile).length = 64) (hin : s.dstAddr.toNat + 64 ≤ s.params.memBytes)
    (hbytes : ∀ t : State, (∀ k (hk : k < (flip (s.memBytes s.dstAddr.toNat 64)).length),
      t.byteAt (s.dstAddr.toNat + k) = (flip (s.memBytes s.dstAddr.toNat 64))[k]) → P t) :
    Completes i s fun t =>
      t.readReg .resultLen = 64#32 ∧ SameMemOutside ⟨s.dstAddr.toNat, 64⟩ s t ∧ P t := by
  have hpass := (firstError_flipChecks s).trans (if_neg (Nat.not_lt.2 hin))
  exact completes_of (exec_of_pass hexec hpass) (writes_flipped i s flip hregs hwindow hlen hin)
    ⟨rfl, writeBytes_outside_window s _ ⟨_, _⟩ _ rfl rfl (hlen _).le,
      hbytes _ (byteAt_writeBytes_inside s s.dstAddr.toNat · _)⟩

/-- Settles O38: in row `r`, column `c` the flipped tile holds column `7 - c`. -/
theorem hflipMirrorsRows : Obligations.HflipMirrorsRows := by
  refine fun s => ⟨failsClean_flip rfl, fun hin => completes_flip rfl rfl rfl hflip_length hin
    fun t hout r c hr hc => ?_⟩
  have hindex : 8 * ((8 * r + c) / 8) + (7 - (8 * r + c) % 8) = 8 * r + 7 - c := by omega
  rw [hout _ (by rw [hflip_length]; omega), hflip_getElem, hindex, byteOf_memBytes s _ _ _ (by omega)]

/-- Settles O39: in row `r`, column `c` the flipped tile holds row `7 - r`. -/
theorem vflipMirrorsColumns : Obligations.VflipMirrorsColumns := by
  refine fun s => ⟨failsClean_flip rfl, fun hin => completes_flip rfl rfl rfl vflip_length hin
    fun t hout r c hr hc => ?_⟩
  have hindex : 8 * (7 - (8 * r + c) / 8) + (8 * r + c) % 8 = 8 * (7 - r) + c := by omega
  rw [hout _ (by rw [vflip_length]; omega), vflip_getElem, hindex, byteOf_memBytes s _ _ _ (by omega)]

end Sys2Proof.Machine
end

section
/-! PROOFS. The family 42_oam_codec.md: what OAM_DEC and OAM_ENC answer, the fields of a record and of a triple, and the
two round trips between them. -/

namespace Sys2Proof.Machine

/-! ## Fields of words -/

theorem extractLsb'_eq_iff {n k : Nat} (x : BitVec n) (a : Nat) (v : BitVec k) :
    x.extractLsb' a k = v ↔ x.toNat / 2 ^ a % 2 ^ k = v.toNat := by
  rw [← BitVec.toNat_inj, toNat_field]

theorem getLsbD_eq_iff {n : Nat} (x : BitVec n) (j : Nat) (b : Bool) :
    x.getLsbD j = b ↔ x.toNat / 2 ^ j % 2 = b.toNat := by
  rw [← toNat_getLsbD]
  cases x.getLsbD j <;> cases b <;> decide

/-! ## Signed fields -/

/-- `bias_N` of a field is its two's-complement value (R10). -/
theorem bias_toNat {n : Nat} (hn : 0 < n) (v : BitVec n) : bias n v.toNat = v.toInt := by
  have htwice := Nat.two_pow_pred_mul_two hn
  rw [bias, BitVec.toInt_eq_toNat_cond, ← ite_not]
  exact if_congr (by omega) rfl (by push_cast; rfl)

/-- `unbias_N` changes nothing mod `2^N` (R10). -/
theorem ofInt_unbias (n : Nat) (x : Int) : BitVec.ofInt n (unbias n x) = BitVec.ofInt n x := by
  apply BitVec.eq_of_toInt_eq
  rw [unbias, BitVec.toInt_ofInt, BitVec.toInt_ofInt]
  split
  · exact_mod_cast Int.add_bmod_right x _
  · rfl

/-- A value of `N` bits is stored without loss (R10). -/
theorem toNat_ofInt_unbias {n : Nat} (hn : 0 < n) {x : Int} (hlo : -2 ^ (n - 1) ≤ x) (hhi : x < 2 ^ (n - 1)) :
    ((BitVec.ofInt n (unbias n x)).toNat : Int) = unbias n x := by
  have htwice : (2 : Int) ^ (n - 1) * 2 = 2 ^ n := by exact_mod_cast Nat.two_pow_pred_mul_two hn
  have hrange : 0 ≤ unbias n x ∧ unbias n x < 2 ^ n := by
    unfold unbias
    split <;> omega
  obtain ⟨hnonneg, hlt⟩ := hrange
  rw [BitVec.toNat_ofInt, Nat.cast_pow, Nat.cast_ofNat, Int.emod_eq_of_lt hnonneg hlt, Int.toNat_of_nonneg hnonneg]

/-- The field a biased value came from is stored again (R194, R195). -/
theorem ofInt_unbias_bias {n : Nat} (hn : 0 < n) (v : BitVec n) : BitVec.ofInt n (unbias n (bias n v.toNat)) = v := by
  rw [ofInt_unbias, bias_toNat hn, BitVec.ofInt_toInt]

/-- A value of `N` bits comes back from its field (R194, R195). -/
theorem bias_ofInt_unbias {n : Nat} (hn : 0 < n) {x : Int} (hlo : -2 ^ (n - 1) ≤ x) (hhi : x < 2 ^ (n - 1)) :
    bias n (BitVec.ofInt n (unbias n x)).toNat = x := by
  rw [ofInt_unbias, bias_toNat hn, BitVec.toInt_ofInt_eq_self hn hlo hhi]

/-! ## OAM_DEC -/

/-- The record of a triple, whatever its shape (R196, R190). -/
def unpackTriple (w0 w1 w2 : Half) : OamRec where
  x := bias 9 (w1.extractLsb' 0 9).toNat
  y := bias 8 (w0.extractLsb' 0 8).toNat
  attr :=
    { affine := w0.getLsbD 8
      disable := w0.getLsbD 9
      objMode := w0.extractLsb' 10 2
      mosaic := w0.getLsbD 12
      color8 := w0.getLsbD 13
      shape := w0.extractLsb' 14 2
      hflip := w1.getLsbD 12
      vflip := w1.getLsbD 13
      size := w1.extractLsb' 14 2
      tile := w2.extractLsb' 0 10
      priority := w2.extractLsb' 10 2
      palette := w2.extractLsb' 12 4 }

theorem oamDecode_error {w0 : Half} (w1 w2 : Half) (h : w0.extractLsb' 14 2 = 3#2) :
    oamDecode w0 w1 w2 = .error .oamShape := if_pos h

theorem oamDecode_ok {w0 : Half} (w1 w2 : Half) (h : w0.extractLsb' 14 2 ≠ 3#2) :
    oamDecode w0 w1 w2 = .ok (unpackTriple w0 w1 w2) := if_neg h

theorem exec_oamDec_of_error {s : State} {e : ErrCode} (h : oamDecode s.oamW0 s.oamW1 s.oamW2 = .error e) :
    exec .oamDec s = .next (s.fail e) := by
  show Host.Outcome.next (s.complete (oamDecResult s)) = _
  rw [oamDecResult, h, complete_error]

theorem exec_oamDec_of_ok {s : State} {r : OamRec} (h : oamDecode s.oamW0 s.oamW1 s.oamW2 = .ok r) :
    exec .oamDec s = .next (s.writeRecord r).finish := by
  show Host.Outcome.next (s.complete (oamDecResult s)) = _
  rw [oamDecResult, h, complete_ok]

theorem shape_eq_three_iff (w0 : Half) : w0.extractLsb' 14 2 = 3#2 ↔ w0.toNat / 2 ^ 14 = 3 := by
  rw [extractLsb'_eq_iff, Nat.mod_eq_of_lt (by omega)]
  rfl

/-- Settles O42: the words of the unpacked record are sums of its fields. -/
theorem oamDecUnpacksTriple : Obligations.OamDecUnpacksTriple := by
  intro s
  rw [Ne, ← shape_eq_three_iff]
  refine ⟨fun hshape => failsClean_of (exec_oamDec_of_error (oamDecode_error _ _ hshape)) rfl, fun hshape => ?_⟩
  refine completes_of (exec_oamDec_of_ok (oamDecode_ok _ _ hshape)) (writes_record s _) ⟨fun _ => rfl, ?pos, ?attr⟩
  case pos =>
    simp only [State.readReg, toNat_append_add, finish_recX, finish_recY, writeRecord_recX, writeRecord_recY,
      BitVec.toNat_ofInt, unpackTriple, bias, toNat_field]
    omega
  case attr =>
    rw [recAttrWordLayout]
    simp only [finish_recAttr, writeRecord_recAttr, unpackTriple, toNat_field, toNat_getLsbD]
    omega

/-! ## OAM_ENC -/

/-- The records `oam_encode` accepts (R198, R211). -/
structure OamRec.InRange (r : OamRec) : Prop where
  x_ge : -256 ≤ r.x
  x_le : r.x ≤ 255
  y_ge : -128 ≤ r.y
  y_le : r.y ≤ 127
  shape : r.attr.shape ≠ 3#2

/-- The triple of a record, whether it is in range or not (R198). -/
def packRecord (r : OamRec) : Half × Half × Half := (encodeW0 r, encodeW1 r, encodeW2 r)

/-- OAM_ENC makes the checks of the record and writes its triple (R210, R263). -/
theorem exec_oamEnc (s : State) :
    exec .oamEnc s = .next (s.complete (checked (encodeChecks s.oamRec) (s.writeTriple (packRecord s.oamRec)))) := by
  show Host.Outcome.next (s.complete (oamEncResult s)) = _
  rw [oamEncResult, oamEncode, checked]
  cases firstError (encodeChecks s.oamRec) <;> rfl

theorem encodeChecks_states (r : OamRec) :
    StateChecks (encodeChecks r)
      [(r.x < -256 ∨ r.x > 255, 3#4, 0x21#8), (r.y < -128 ∨ r.y > 127, 3#4, 0x22#8),
       (r.attr.shape = 3#2, 3#4, 0x23#8)] :=
  .cons decide_eq_true_iff rfl rfl fun _ => .cons decide_eq_true_iff rfl rfl fun _ =>
    .cons beq_iff_eq rfl rfl fun _ => .nil

/-- Settles O44: the rows state the checks of `oam_encode`. -/
theorem oamEncErrorsInOrder : Obligations.OamEncErrorsInOrder := fun s =>
  reportsFirst_of_checks (encodeChecks_states s.oamRec) (fun _ => exec_of_error (exec_oamEnc s))
    fun hpass => succeeds_of (exec_of_pass (exec_oamEnc s) hpass) rfl

theorem exec_oamEnc_of_inRange {s : State} (h : s.oamRec.InRange) :
    exec .oamEnc s = .next (s.writeTriple (packRecord s.oamRec)).finish := by
  obtain ⟨hxlo, hxhi, hylo, hyhi, hshape⟩ := h
  exact exec_of_pass (exec_oamEnc s) (firstError_none_of_rows (encodeChecks_states s.oamRec) (by simp [*]))

theorem encodeW0_toNat (r : OamRec) :
    (encodeW0 r).toNat = (BitVec.ofInt 8 (unbias 8 r.y)).toNat + 2 ^ 8 * r.attr.affine.toNat
      + 2 ^ 9 * r.attr.disable.toNat + 2 ^ 10 * r.attr.objMode.toNat + 2 ^ 12 * r.attr.mosaic.toNat
      + 2 ^ 13 * r.attr.color8.toNat + 2 ^ 14 * r.attr.shape.toNat := by
  simp only [encodeW0, toNat_append_add, BitVec.toNat_ofBool]
  omega

theorem encodeW1_toNat (r : OamRec) :
    (encodeW1 r).toNat = (BitVec.ofInt 9 (unbias 9 r.x)).toNat + 2 ^ 12 * r.attr.hflip.toNat
      + 2 ^ 13 * r.attr.vflip.toNat + 2 ^ 14 * r.attr.size.toNat := by
  simp only [encodeW1, toNat_append_add, BitVec.toNat_ofBool, BitVec.toNat_ofNat]
  omega

theorem encodeW2_toNat (r : OamRec) :
    (encodeW2 r).toNat = r.attr.tile.toNat + 2 ^ 10 * r.attr.priority.toNat + 2 ^ 12 * r.attr.palette.toNat := by
  simp only [encodeW2, toNat_append_add]
  omega

/-- Settles O43: each word is the sum of its fields, and X and Y fit theirs. -/
theorem oamEncPacksRecord : Obligations.OamEncPacksRecord := by
  intro s hxlo hxhi hylo hyhi hshape
  refine completes_of (exec_oamEnc_of_inRange ⟨hxlo, hxhi, hylo, hyhi, hshape⟩) (writes_triple s _)
    ⟨fun _ => rfl, ?w0, ?w1, ?w2⟩
  all_goals simp only [State.readReg, finish_oamW0, finish_oamW1, finish_oamW2, writeTriple_oamW0, writeTriple_oamW1,
    writeTriple_oamW2, packRecord, BitVec.toNat_setWidth_of_le (show 16 ≤ 32 by decide)]
  case w0 =>
    have hy := toNat_ofInt_unbias (n := 8) (by decide) hylo (Int.lt_of_le_sub_one hyhi)
    rw [encodeW0_toNat]
    push_cast
    rw [State.oamRec, hy]
    rfl
  case w1 =>
    have hx := toNat_ofInt_unbias (n := 9) (by decide) hxlo (Int.lt_of_le_sub_one hxhi)
    rw [encodeW1_toNat]
    push_cast
    rw [State.oamRec, hx]
    rfl
  case w2 => exact encodeW2_toNat _

/-! ## From the triple to the record and back -/

/-- A biased field of 9 or 8 bits is in range, so the record of a triple is unless its shape is 3 (R194, R195). -/
theorem unpackTriple_inRange {w0 : Half} (w1 w2 : Half) (h : w0.extractLsb' 14 2 ≠ 3#2) :
    (unpackTriple w0 w1 w2).InRange := by
  have hx := (w1.extractLsb' 0 9).isLt
  have hy := (w0.extractLsb' 0 8).isLt
  constructor
  case shape => exact h
  all_goals
    simp only [unpackTriple, bias]
    split <;> omega

/-- The word with bits [11:9] cleared (R197). -/
theorem clearUnused_toNat (w : Half) : (w &&& 0xF1FF#16).toNat = 2 ^ 12 * (w.toNat / 2 ^ 12) + w.toNat % 2 ^ 9 := by
  have hm : ∀ j : Nat, j < 16 → (0xF1FF#16).getLsbD j = decide (j < 9 ∨ 12 ≤ j) := by decide
  have hparts : w &&& 0xF1FF#16 = w.extractLsb' 12 4 ++ 0#3 ++ w.extractLsb' 0 9 := by
    apply BitVec.eq_of_getLsbD_eq
    intro j hj
    rw [BitVec.getLsbD_and, hm j hj, BitVec.getLsbD_append, BitVec.getLsbD_append]
    interval_cases j <;> simp
  rw [hparts, toNat_append_add, toNat_append_add, toNat_field, toNat_field, BitVec.toNat_ofNat]
  omega

theorem encodeW0_unpackTriple (w0 w1 w2 : Half) : encodeW0 (unpackTriple w0 w1 w2) = w0 := by
  have hy : BitVec.ofInt 8 (unbias 8 (unpackTriple w0 w1 w2).y) = w0.extractLsb' 0 8 := ofInt_unbias_bias (by decide) _
  apply BitVec.eq_of_toNat_eq
  rw [encodeW0_toNat, hy]
  simp only [unpackTriple, toNat_field, toNat_getLsbD]
  omega

theorem encodeW1_unpackTriple (w0 w1 w2 : Half) : encodeW1 (unpackTriple w0 w1 w2) = w1 &&& 0xF1FF#16 := by
  have hx : BitVec.ofInt 9 (unbias 9 (unpackTriple w0 w1 w2).x) = w1.extractLsb' 0 9 := ofInt_unbias_bias (by decide) _
  apply BitVec.eq_of_toNat_eq
  rw [encodeW1_toNat, hx, clearUnused_toNat]
  simp only [unpackTriple, toNat_field, toNat_getLsbD]
  omega

theorem encodeW2_unpackTriple (w0 w1 w2 : Half) : encodeW2 (unpackTriple w0 w1 w2) = w2 := by
  apply BitVec.eq_of_toNat_eq
  rw [encodeW2_toNat]
  simp only [unpackTriple, toNat_field]
  omega

/-- A triple comes back from its record with W1[11:9] cleared (R197, R212). -/
theorem packRecord_unpackTriple (w0 w1 w2 : Half) :
    packRecord (unpackTriple w0 w1 w2) = (w0, w1 &&& 0xF1FF#16, w2) := by
  rw [packRecord, encodeW0_unpackTriple, encodeW1_unpackTriple, encodeW2_unpackTriple]

/-- REC_POS holds X and Y of a record in range without loss (R200, R210). -/
theorem oamRec_writeRecord (s : State) {r : OamRec} (h : r.InRange) : (s.writeRecord r).finish.oamRec = r := by
  obtain ⟨hxlo, hxhi, hylo, hyhi, -⟩ := h
  have hx : (BitVec.ofInt 16 r.x).toInt = r.x := BitVec.toInt_ofInt_eq_self (by decide) (by omega) (by omega)
  have hy : (BitVec.ofInt 16 r.y).toInt = r.y := BitVec.toInt_ofInt_eq_self (by decide) (by omega) (by omega)
  rw [State.oamRec, finish_recX, finish_recY, finish_recAttr, writeRecord_recX, writeRecord_recY, writeRecord_recAttr,
    hx, hy]

/-- Settles O45: the record of the triple is in range and packs into the triple again. -/
theorem oamTripleRoundTrip : Obligations.OamTripleRoundTrip := by
  intro s hshape
  have hrange := unpackTriple_inRange s.oamW1 s.oamW2 hshape
  have hrec := oamRec_writeRecord s hrange
  have henc := exec_oamEnc_of_inRange (hrec.symm ▸ hrange)
  rw [hrec, packRecord_unpackTriple] at henc
  refine ⟨_, _, exec_oamDec_of_ok (oamDecode_ok _ _ hshape), henc, rfl, rfl, rfl, rfl, rfl, fun hclear => ?_⟩
  apply BitVec.eq_of_toNat_eq
  rw [extractLsb'_eq_iff, BitVec.toNat_ofNat] at hclear
  exact (clearUnused_toNat s.oamW1).trans (by omega)

/-! ## From the record to the triple and back -/

theorem encodeW0_fields (r : OamRec) :
    (encodeW0 r).extractLsb' 0 8 = BitVec.ofInt 8 (unbias 8 r.y) ∧ (encodeW0 r).getLsbD 8 = r.attr.affine
      ∧ (encodeW0 r).getLsbD 9 = r.attr.disable ∧ (encodeW0 r).extractLsb' 10 2 = r.attr.objMode
      ∧ (encodeW0 r).getLsbD 12 = r.attr.mosaic ∧ (encodeW0 r).getLsbD 13 = r.attr.color8
      ∧ (encodeW0 r).extractLsb' 14 2 = r.attr.shape := by
  have haffine := r.attr.affine.toNat_le
  have hdisable := r.attr.disable.toNat_le
  have hmosaic := r.attr.mosaic.toNat_le
  have hcolor8 := r.attr.color8.toNat_le
  simp only [extractLsb'_eq_iff, getLsbD_eq_iff, encodeW0_toNat]
  refine ⟨?_, ?_, ?_, ?_, ?_, ?_, ?_⟩ <;> omega

theorem encodeW1_fields (r : OamRec) :
    (encodeW1 r).extractLsb' 0 9 = BitVec.ofInt 9 (unbias 9 r.x) ∧ (encodeW1 r).getLsbD 12 = r.attr.hflip
      ∧ (encodeW1 r).getLsbD 13 = r.attr.vflip ∧ (encodeW1 r).extractLsb' 14 2 = r.attr.size := by
  have hhflip := r.attr.hflip.toNat_le
  have hvflip := r.attr.vflip.toNat_le
  simp only [extractLsb'_eq_iff, getLsbD_eq_iff, encodeW1_toNat]
  refine ⟨?_, ?_, ?_, ?_⟩ <;> omega

theorem encodeW2_fields (r : OamRec) :
    (encodeW2 r).extractLsb' 0 10 = r.attr.tile ∧ (encodeW2 r).extractLsb' 10 2 = r.attr.priority
      ∧ (encodeW2 r).extractLsb' 12 4 = r.attr.palette := by
  simp only [extractLsb'_eq_iff, encodeW2_toNat]
  refine ⟨?_, ?_, ?_⟩ <;> omega

/-- Each field of a record in range comes back from its triple (R212). -/
theorem unpackTriple_encode {r : OamRec} (h : r.InRange) :
    unpackTriple (encodeW0 r) (encodeW1 r) (encodeW2 r) = r := by
  have hx := bias_ofInt_unbias (n := 9) (by decide) h.x_ge (Int.lt_of_le_sub_one h.x_le)
  have hy := bias_ofInt_unbias (n := 8) (by decide) h.y_ge (Int.lt_of_le_sub_one h.y_le)
  simp only [unpackTriple, encodeW0_fields, encodeW1_fields, encodeW2_fields, hx, hy]

/-- `oam_decode` inverts `oam_encode` on the records it accepts (R212). -/
theorem oamDecode_encode {r : OamRec} (h : r.InRange) :
    oamDecode (encodeW0 r) (encodeW1 r) (encodeW2 r) = .ok r := by
  obtain ⟨-, -, -, -, -, -, hshape⟩ := encodeW0_fields r
  rw [oamDecode_ok _ _ (hshape.symm ▸ h.shape), unpackTriple_encode h]

/-- Settles O46: the triple of the record decodes to the record again. -/
theorem oamRecordRoundTrip : Obligations.OamRecordRoundTrip := by
  intro s hxlo hxhi hylo hyhi hshape
  have hrange : s.oamRec.InRange := ⟨hxlo, hxhi, hylo, hyhi, hshape⟩
  refine ⟨_, _, exec_oamEnc_of_inRange hrange, exec_oamDec_of_ok (oamDecode_encode hrange), rfl, rfl, ?pos, rfl⟩
  show BitVec.ofInt 16 s.recY.toInt ++ BitVec.ofInt 16 s.recX.toInt = s.recY ++ s.recX
  rw [BitVec.ofInt_toInt, BitVec.ofInt_toInt]

end Sys2Proof.Machine
end

section
/-! PROOFS. The family 43_stream_cipher.md: the two steps of the generator, the round trips of `cipher` and `decipher`,
and what CIPHER and DECIPHER answer. -/

namespace Sys2Proof.Machine

/-! ## The generator -/

theorem lcgNext_lcgPrev : Function.LeftInverse lcgNext lcgPrev := by
  intro k
  have hinv : 1103515245#32 * 4005161829#32 = 1#32 := by decide
  rw [lcgNext, lcgPrev, ← BitVec.mul_assoc, hinv, BitVec.one_mul, BitVec.add_comm, BitVec.sub_add_cancel]

theorem lcgPrev_lcgNext : Function.LeftInverse lcgPrev lcgNext := by
  intro k
  have hinv : 4005161829#32 * 1103515245#32 = 1#32 := by decide
  rw [lcgPrev, lcgNext, BitVec.add_comm, BitVec.add_sub_cancel, ← BitVec.mul_assoc, hinv, BitVec.one_mul]

/-- Settles O47: the two multipliers are inverse to each other mod 2^32. -/
theorem lcgStepsInvert : Obligations.LcgStepsInvert := fun k => ⟨lcgNext_lcgPrev k, lcgPrev_lcgNext k⟩

/-- `n` steps forward and then `n - i` back are `i` steps forward. -/
theorem iterate_lcgPrev_lcgNext {n i : Nat} (h : i ≤ n) (k : Word) :
    lcgPrev^[n - i] (lcgNext^[n] k) = lcgNext^[i] k := by
  obtain ⟨j, rfl⟩ := Nat.exists_eq_add_of_le' h
  rw [Nat.add_sub_cancel, Function.iterate_add_apply, lcgPrev_lcgNext.iterate]

/-- `n` steps back and then `i` forward are `n - i` steps back. -/
theorem iterate_lcgNext_lcgPrev {n i : Nat} (h : i ≤ n) (k : Word) :
    lcgNext^[i] (lcgPrev^[n] k) = lcgPrev^[n - i] k := by
  obtain ⟨j, rfl⟩ := Nat.exists_eq_add_of_le h
  rw [Nat.add_sub_cancel_left, Function.iterate_add_apply, lcgNext_lcgPrev.iterate]

theorem keyMask_eq_setWidth (k : Word) : keyMask k = k.setWidth 16 :=
  (BitVec.setWidth_eq_extractLsb' (by decide)).symm

/-- The forward step mod 2^16 (R234). -/
def lcgNextLow (m : Half) : Half := 24691#16 + 20077#16 * m

/-- The low half of the forward step depends on the low half of the key only (R234). -/
theorem keyMask_lcgNext : Function.Semiconj keyMask lcgNext lcgNextLow := by
  intro k
  rw [keyMask_eq_setWidth, keyMask_eq_setWidth, lcgNext, BitVec.setWidth_add _ _ (by decide),
    BitVec.setWidth_mul _ _ (by decide)]
  rfl

/-- Keys with one low half give one mask after any number of forward steps (R234). -/
theorem keyMask_iterate_lcgNext_congr {k k' : Word} (h : keyMask k = keyMask k') (i : Nat) :
    keyMask (lcgNext^[i] k) = keyMask (lcgNext^[i] k') := by
  rw [(keyMask_lcgNext.iterate_right i).eq, (keyMask_lcgNext.iterate_right i).eq, h]

theorem keyMask_setWidth (m : Half) : keyMask (m.setWidth 32) = m := by
  rw [keyMask_eq_setWidth, BitVec.setWidth_setWidth_of_le _ (by decide), BitVec.setWidth_eq]

/-! ## The words of a byte sequence -/

/-- Word `i` of a byte sequence, little-endian (R231). -/
def wordOf (b : List Byte) (i : Nat) : Half := byteOf b (2 * i + 1) ++ byteOf b (2 * i)

theorem halves_getElem_eq_wordOf (b : List Byte) (i : Nat) (h : i < (halves b).length) : (halves b)[i] = wordOf b i :=
  halves_getElem b i h

theorem wordOf_of_bytes {b : List Byte} {i : Nat} {x : Half} (hlo : b[2 * i]? = some (x.extractLsb' 0 8))
    (hhi : b[2 * i + 1]? = some (x.extractLsb' 8 8)) : wordOf b i = x := by
  rw [wordOf, byteOf, byteOf, List.getD_eq_getElem?_getD, List.getD_eq_getElem?_getD, hlo, hhi]
  exact append_bytes x

/-- Word `i` of the source window's bytes stands in MEM at `SRC_ADDR + 2 i` (R12). -/
theorem wordOf_srcBytes (s : State) {i : Nat} (h : 2 * i + 1 < s.srcLen.toNat) :
    wordOf s.srcBytes i = s.byteAt (s.srcAddr.toNat + (2 * i + 1)) ++ s.byteAt (s.srcAddr.toNat + 2 * i) := by
  rw [wordOf, State.srcBytes, byteOf_memBytes s _ _ _ h, byteOf_memBytes s _ _ _ (by omega)]

/-- Where a byte sequence stands in MEM, so do its words. -/
theorem wordOf_eq_of_byteAt {t : State} {a : Nat} {b : List Byte} {i : Nat}
    (hb : ∀ k (hk : k < b.length), t.byteAt (a + k) = b[k]) (h : 2 * i + 1 < b.length) :
    t.byteAt (a + (2 * i + 1)) ++ t.byteAt (a + 2 * i) = wordOf b i := by
  rw [hb _ h, hb _ (by omega), wordOf, byteOf_eq_getElem h, byteOf_eq_getElem]

/-! ## The words `cipher` and `decipher` give -/

/-- The closed form of `cipher`: word `i` stays at its place and is masked `n - i` steps back from the key (R232). -/
theorem wordOf_cipher {d : List Byte} (k : Word) {i : Nat} (he : d.length % 2 = 0) (h : i < d.length / 2) :
    wordOf (cipher d k) i = wordOf d i ^^^ keyMask (lcgPrev^[d.length / 2 - i] k) := by
  have hn := halves_length d
  have hwalk : (cipherWalk (halves d).reverse k).length = d.length := by
    rw [cipherWalk_length, List.length_reverse]; omega
  obtain ⟨hhi, hlo⟩ := cipherWalk_getElem? (halves d).reverse k (d.length / 2 - 1 - i)
    (by rw [List.length_reverse]; omega)
  have hword : (halves d).length - 1 - (d.length / 2 - 1 - i) = i := by omega
  have hstep : d.length / 2 - 1 - i + 1 = d.length / 2 - i := by omega
  simp only [List.getElem_reverse, hword, hstep, halves_getElem_eq_wordOf] at hhi hlo
  refine wordOf_of_bytes ?_ ?_
  · rw [cipher, List.getElem?_reverse (by omega), ← hlo]
    congr 1
    omega
  · rw [cipher, List.getElem?_reverse (by omega), ← hhi]
    congr 1
    omega

/-- Word `i` that `decipher` gives is masked `i` steps on from the seed (R235). -/
theorem wordOf_decipher (c : List Byte) {i : Nat} (h : i < c.length / 2) :
    wordOf (decipher c).1 i = wordOf c i ^^^ keyMask (lcgNext^[i] (seedOf c)) := by
  obtain ⟨hlo, hhi⟩ := decipherWalk_getElem? (halves c) (seedOf c) i (by rwa [halves_length])
  rw [halves_getElem_eq_wordOf] at hlo hhi
  exact wordOf_of_bytes hlo hhi

/-- The final key of `decipher` is `n` steps on from the seed (R236). -/
theorem decipher_key (c : List Byte) : (decipher c).2 = lcgNext^[c.length / 2] (seedOf c) := by
  rw [decipher, decipherWalk_key, halves_length]

/-! ## The round trips -/

/-- Settles O52: `n - i` steps back from the final key is the key `decipher` masked word `i` with. -/
theorem recipherRestores : Obligations.RecipherRestores := by
  intro c he _
  have hlen := decipher_length c he
  have he' : (decipher c).1.length % 2 = 0 := hlen ▸ he
  have hlen' := (cipher_length _ (decipher c).2 he').trans hlen
  refine eq_of_words hlen' (hlen' ▸ he) fun i hi => ?_
  rw [hlen'] at hi
  calc wordOf (cipher (decipher c).1 (decipher c).2) i
      = wordOf (decipher c).1 i ^^^ keyMask (lcgPrev^[c.length / 2 - i] (decipher c).2) := by
        rw [wordOf_cipher _ he' (hlen ▸ hi), hlen]
    _ = wordOf c i ^^^ keyMask (lcgNext^[i] (seedOf c)) ^^^ keyMask (lcgNext^[i] (seedOf c)) := by
        rw [wordOf_decipher c hi, decipher_key, iterate_lcgPrev_lcgNext hi.le]
    _ = wordOf c i := by rw [BitVec.xor_assoc, BitVec.xor_self, BitVec.xor_zero]

theorem firstWord_zero_of_take {d : List Byte} (h : d.take 2 = [0#8, 0#8]) : 2 ≤ d.length ∧ wordOf d 0 = 0#16 := by
  obtain ⟨rest, rfl⟩ : ∃ rest, d = [0#8, 0#8] ++ rest := ⟨d.drop 2, by rw [← h, List.take_append_drop]⟩
  have hzero : 0#8 ++ 0#8 = 0#16 := by decide
  exact ⟨by simp, hzero⟩

/-- Where the first word is 0, `decipher` of what `cipher` gave is seeded with the low half of the key `n` steps back
(R242). -/
theorem keyMask_seedOf_cipher {d : List Byte} (k : Word) (he : d.length % 2 = 0) (hne : 2 ≤ d.length)
    (h0 : wordOf d 0 = 0#16) : keyMask (seedOf (cipher d k)) = keyMask (lcgPrev^[d.length / 2] k) := by
  have hseed : seedOf (cipher d k) = (wordOf (cipher d k) 0).setWidth 32 :=
    seedOf_eq _ (by rwa [cipher_length d k he])
  rw [hseed, keyMask_setWidth, wordOf_cipher k he (by omega), h0, BitVec.zero_xor, Nat.sub_zero]

/-- Settles O53: from a seed with the low half of the key `n` steps back, the masks of `decipher` are those of
`cipher`. -/
theorem cipherThenDecipher : Obligations.CipherThenDecipher := by
  intro d k he htake
  obtain ⟨hne, h0⟩ := firstWord_zero_of_take htake
  have hclen := cipher_length d k he
  have hmask : ∀ i, i ≤ d.length / 2 →
      keyMask (lcgNext^[i] (seedOf (cipher d k))) = keyMask (lcgPrev^[d.length / 2 - i] k) := fun i hi => by
    rw [keyMask_iterate_lcgNext_congr (keyMask_seedOf_cipher k he hne h0), iterate_lcgNext_lcgPrev hi]
  have hlen := (decipher_length (cipher d k) (hclen ▸ he)).trans hclen
  constructor
  · refine eq_of_words hlen (hlen ▸ he) fun i hi => ?_
    rw [hlen] at hi
    show wordOf (decipher (cipher d k)).1 i = wordOf d i
    rw [wordOf_decipher _ (hclen ▸ hi), wordOf_cipher k he hi, hmask i hi.le, BitVec.xor_assoc, BitVec.xor_self,
      BitVec.xor_zero]
  · show keyMask (decipher (cipher d k)).2 = keyMask k
    rw [decipher_key, hclen, hmask _ le_rfl, Nat.sub_self, Function.iterate_zero_apply]

/-! ## The errors of CIPHER and DECIPHER -/

theorem cipherChecks_states (s : State) : StateChecks s.cipherChecks
    (windowOrder s s.srcAddr.toNat s.srcLen.toNat
      ++ [(s.srcLen.toNat % 2 ≠ 0, 3#4, 0x30#8), (s.srcLen.toNat > s.dstCap.toNat, 3#4, 0x05#8)]) :=
  stateChecks_append (windowChecks_states s s.srcWindow) fun _ => .cons bne_iff_ne rfl rfl fun _ =>
    .cons decide_eq_true_iff rfl rfl fun _ => .nil

theorem decipherChecks_states (s : State) : StateChecks s.decipherChecks
    (windowOrder s s.srcAddr.toNat s.srcLen.toNat
      ++ [(s.srcLen.toNat % 2 ≠ 0, 3#4, 0x30#8), (s.srcLen.toNat = 0, 3#4, 0x31#8),
          (s.srcLen.toNat > s.dstCap.toNat, 3#4, 0x05#8)]) :=
  stateChecks_append (windowChecks_states s s.srcWindow) fun _ => .cons bne_iff_ne rfl rfl fun _ =>
    .cons beq_iff_eq rfl rfl fun _ => .cons decide_eq_true_iff rfl rfl fun _ => .nil

/-- Settles O50: CIPHER answers the first error of its checks, and the error order states them. -/
theorem cipherErrorsInOrder : Obligations.CipherErrorsInOrder := fun s =>
  reportsFirst_of_checks (cipherChecks_states s) (fun _ => exec_of_error rfl)
    fun hpass => succeeds_of (exec_of_pass rfl hpass) rfl

/-- Settles O51: DECIPHER answers the first error of its checks, and the error order states them. -/
theorem decipherErrorsInOrder : Obligations.DecipherErrorsInOrder := fun s =>
  reportsFirst_of_checks (decipherChecks_states s) (fun _ => exec_of_error rfl)
    fun hpass => succeeds_of (exec_of_pass rfl hpass) rfl

/-! ## What CIPHER and DECIPHER write -/

/-- The checks of CIPHER pass on good windows, whole words and enough capacity (R237). -/
theorem cipherChecks_none {s : State} (hwin : WindowsOk s s.srcAddr.toNat s.srcLen.toNat)
    (he : s.srcLen.toNat % 2 = 0) (hcap : s.srcLen.toNat ≤ s.dstCap.toNat) : firstError s.cipherChecks = none := by
  rw [State.cipherChecks, firstError_append, (windowChecks_none s s.srcWindow).2 hwin]
  simp [he, hcap]

/-- The checks of DECIPHER pass on good windows, at least one word, whole words and enough capacity (R241). -/
theorem decipherChecks_none {s : State} (hwin : WindowsOk s s.srcAddr.toNat s.srcLen.toNat)
    (he : s.srcLen.toNat % 2 = 0) (h0 : s.srcLen.toNat ≠ 0) (hcap : s.srcLen.toNat ≤ s.dstCap.toNat) :
    firstError s.decipherChecks = none := by
  rw [State.decipherChecks, firstError_append, (windowChecks_none s s.srcWindow).2 hwin]
  simp [he, h0, hcap]

/-- Settles O48: the output standing at DST_ADDR has the words of `cipher`. -/
theorem cipherMasksWords : Obligations.CipherMasksWords := by
  intro s hwin he hcap
  have he' : s.srcBytes.length % 2 = 0 := by rwa [srcBytes_length]
  have hlen : (cipher s.srcBytes s.keyIn).length = s.srcLen.toNat := by rw [cipher_length _ _ he', srcBytes_length]
  refine completes_sameLength rfl (cipherChecks_none hwin he hcap) rfl rfl hlen hcap hwin.2.1 fun t hout i hi => ?_
  rw [wordOf_eq_of_byteAt hout (by omega), wordOf_cipher _ he' (by rwa [srcBytes_length]), srcBytes_length,
    wordOf_srcBytes s (by omega)]
  rfl

/-- The seed of DECIPHER is the first word in MEM, zero extended (R241). -/
theorem seedOf_srcBytes (s : State) (h : 2 ≤ s.srcLen.toNat) :
    seedOf s.srcBytes = (s.byteAt (s.srcAddr.toNat + 1) ++ s.byteAt s.srcAddr.toNat).setWidth 32 :=
  (seedOf_eq _ (by rwa [srcBytes_length])).trans (congrArg _ (wordOf_srcBytes (i := 0) s (by omega)))

/-- Settles O49: the output standing at DST_ADDR has the words of `decipher`, and KEY_OUT its final key. -/
theorem decipherMasksWords : Obligations.DecipherMasksWords := by
  intro s hwin he h0 hcap
  have hlen : (decipher s.srcBytes).1.length = s.srcLen.toNat := by
    rw [decipher_length _ (by rwa [srcBytes_length]), srcBytes_length]
  rw [← seedOf_srcBytes s (by omega)]
  refine completes_of (exec_of_pass rfl (decipherChecks_none hwin he h0 hcap))
    (writes_deciphered s (hlen.trans_le hcap) hwin.2.1)
    ⟨rfl, writeBytes_outside_window s _ ⟨_, _⟩ _ rfl rfl hlen.le, ?key, fun i hi => ?word⟩
  case key =>
    rw [← srcBytes_length s]
    exact decipher_key s.srcBytes
  case word =>
    have hout := writeSameLength_byteAt s (decipher s.srcBytes).1
    rw [← wordOf_srcBytes s (by omega)]
    exact (wordOf_eq_of_byteAt hout (by omega)).trans (wordOf_decipher _ (by rwa [srcBytes_length]))

end Sys2Proof.Machine
end

section
/-! PROOFS. The family 60_exceptions.md: the interrupt output is the level of DONE and ERR under IE, and the error
identities a command can report. -/

namespace Sys2Proof.Machine

/-! ## The interrupt output -/

/-- Bit 0 of IRQEN is IE (R26). -/
theorem irqen_bit0 (s : State) : (s.readReg .irqen).getLsbD 0 = s.ie := by
  cases h : s.ie <;> simp [State.readReg, h]

/-- Bit 1 of STATUS is DONE (R25). -/
theorem status_bit1 (s : State) : (s.readReg .status).getLsbD 1 = s.status.done :=
  status_bits s.status 1 (by decide)

/-- Bit 2 of STATUS is ERR (R25). -/
theorem status_bit2 (s : State) : (s.readReg .status).getLsbD 2 = s.status.err :=
  status_bits s.status 2 (by decide)

/-- With neither flag set IRQ is low, whatever IE (R266). -/
theorem irq_low_of_flags {s : State} (hdone : s.status.done = false) (herr : s.status.err = false) : s.irq = false := by
  simp [State.irq, hdone, herr]

/-- A word that covers the mask of DONE and ERR has both bits 1. -/
theorem bits_of_covers_doneErr {v : Word} (h : v &&& 0x00000006#32 = 0x00000006#32) :
    v.getLsbD 1 = true ∧ v.getLsbD 2 = true := by
  have hbit (j : Nat) (hj : (0x00000006#32).getLsbD j = true) : v.getLsbD j = true := by
    rw [← h, BitVec.getLsbD_and, Bool.and_eq_true] at hj
    exact hj.1
  exact ⟨hbit 1 (by decide), hbit 2 (by decide)⟩

/-- Settles O22: the flags are bits of STATUS, a W1C write of both clears both, and so does an accepted CMD write. -/
theorem irqIsLevelOfCompletion : Obligations.IrqIsLevelOfCompletion := by
  refine ⟨fun s => ?level, fun s v rest hm hscript hv => ?acknowledged, fun s v rest hb hscript => ?started⟩
  case level =>
    rw [irqen_bit0, status_bit1, status_bit2, State.irq, Bool.and_eq_true, Bool.or_eq_true]
  case acknowledged =>
    obtain ⟨hv1, hv2⟩ := bits_of_covers_doneErr hv
    have hstatus : ((s.accessed rest).hostWriteReg .status v).status = (s.accessed rest).status.clear v := rfl
    refine ⟨_, step_write (r := .status) hm hscript, irq_low_of_flags ?_ ?_⟩
    · simp [hstatus, hv1]
    · simp [hstatus, hv2]
  case started =>
    exact ⟨_, step_cmdWrite_idle hb hscript, irq_low_of_flags rfl rfl⟩

/-! ## The error identity -/

/-- Settles O26: the state comes from the error commit of some check of the command, never of ILLEGAL_OPCODE, and each of
the other errors has its row in R261. -/
theorem errorIdentityIsInTable : Obligations.ErrorIdentityIsInTable := by
  intro i s t hexec herr0 herr
  rcases exec_answers i s with ⟨u, hok, hw⟩ | ⟨e, hfail, hlegal, -⟩
  · obtain rfl : u.finish = t := Host.Outcome.next.inj (hok.symm.trans hexec)
    rw [finish_status, status_finishOk_err, hw.status, herr0] at herr
    cases herr
  · obtain rfl : s.fail e = t := Host.Outcome.next.inj (hfail.symm.trans hexec)
    rw [fail_status, status_finishErr_errClass, status_finishErr_errCode]
    cases e with
    | illegalOpcode => exact absurd rfl hlegal
    | srcRange | dstRange | overlap | dstCap | tileLen | tileWidthZero | tileWidth | oamShape | oamXRange | oamYRange
    | oamRecShape | cipherOdd | cipherEmpty | ntrTrunc | ntrBom | ntrVersion | ntrHdrSize | ntrBlkSize | ntrVerArg =>
      decide

end Sys2Proof.Machine
end

section
/-! PROOFS. The family 70_reset_and_hazards.md: the hazard fault is sticky, what a reset returns, and that a running
command ends. -/

namespace Sys2Proof.Machine

/-! ## What the host's actions keep of the hazard, the turns and the script -/

theorem writeOffset_sameSurroundings (s : State) (off : Nat) (v : Word) : SameSurroundings s (s.writeOffset off v) := by
  unfold State.writeOffset
  split
  · exact (hostWriteReg_keeps s _ v).2
  · exact ⟨rfl, rfl, rfl, rfl, rfl, rfl⟩

@[simp] theorem storeByte_turns (s : State) (a : Nat) (b : Byte) : (s.storeByte a b).turns = s.turns := by
  unfold State.storeByte
  split <;> rfl

@[simp] theorem loadByte_turns (s : State) (a : Nat) : (s.loadByte a).turns = s.turns := by
  unfold State.loadByte
  split <;> rfl

@[simp] theorem abandon_hazard (s : State) : s.abandon.hazard = s.hazard := by rw [abandon_keeps]

@[simp] theorem abandon_turns (s : State) : s.abandon.turns = s.turns := by rw [abandon_keeps]

@[simp] theorem abandon_script (s : State) : s.abandon.script = s.script := by rw [abandon_keeps]

/-! ## The hazard fault -/

/-- Of the host's and the platform's actions a byte write in the footprint records the hazard, and none clears it, the
resets included (R300). -/
theorem hostEffect_hazard {s u t : State} (h : HostEffect s u t) :
    t.hazard = u.hazard ∨ t.hazard = some .footprintHazard := by
  cases h with
  | quiet | regRead off => exact .inl rfl
  | regWrite off v _ _ =>
    obtain ⟨hhazard, -⟩ := writeOffset_sameSurroundings u off v
    exact .inl hhazard
  | store a b _ =>
    rw [storeByte_hazard]
    split
    · exact .inr rfl
    · exact .inl rfl
  | load a _ => exact .inl (loadByte_hazard u a)
  | reset _ _ => exact .inl (abandon_hazard u)
  | powerOn _ _ => exact .inl rfl

/-- A step leaves the hazard as it was or records it (R300). -/
theorem step_hazard {s t : State} (h : step s = .next t) :
    t.hazard = s.hazard ∨ t.hazard = some .footprintHazard := by
  cases step_effect h with
  | host script t _ he =>
    rw [← endTurn_hazard s, ← withScript_hazard s.endTurn script]
    exact hostEffect_hazard he
  | done i u _ _ hw =>
    obtain ⟨hhazard, -⟩ := hw.surroundings
    exact .inl (hhazard.trans (endTurn_hazard s))
  | error e _ => exact .inl ((fail_hazard _ e).trans (endTurn_hazard s))

/-- Settles O16: a step leaves the hazard or records it, and the model has no fault but this one. -/
theorem hazardIsSticky : Obligations.HazardIsSticky := by
  intro s t f hstep hs
  rcases step_hazard hstep with hkept | hrecorded
  · cases f
    exact hkept.trans hs
  · exact hrecorded

/-! ## The resets -/

/-- The registers of R22 once they are reset, whatever they held (R290). -/
theorem resetRegs_readReg_value (s : State) (r : Reg) :
    s.resetRegs.readReg r = if r = .id then 0x4E545258#32 else 0#32 := by
  obtain ⟨hreset, -⟩ := resetStateRegisters
  exact (resetRegs_readReg s r).trans (hreset r)

/-- With no command running RESET leaves MEM (R291). -/
theorem reset_idle_sameMem {s : State} (hb : s.status.busy = false) (rest : List HostAction) :
    SameMem s (s.accessed rest).abandon.resetRegs := by
  intro a
  rw [resetRegs_byteAt, abandon_idle (by rw [accessed_status, hb]), accessed_byteAt]

/-- Settles O19: both resets end in the registers' reset; only a power-on touches MEM while no command runs. -/
theorem resetReturnsRegisters : Obligations.ResetReturnsRegisters := by
  rintro s rest hm (hreset | hpower)
  · refine ⟨_, step_reset hm hreset, resetRegs_readReg_value _, rfl, rfl, rfl, ?script,
      fun _ hb => reset_idle_sameMem hb rest⟩
    case script => rw [resetRegs_script, abandon_script, accessed_script]
  · refine ⟨_, step_powerOn hm hpower, fun r => ?regs, rfl, rfl, rfl, rfl, fun hreset => ?noReset⟩
    case regs => rw [powerOnMem_readReg, resetRegs_readReg_value]
    case noReset => simp [hpower] at hreset

/-! ## A running command ends -/

/-- No action of the host or the platform touches the schedule (log entry 4). -/
theorem hostEffect_turns {s u t : State} (h : HostEffect s u t) : t.turns = u.turns := by
  cases h with
  | quiet | regRead off => rfl
  | regWrite off v _ _ =>
    obtain ⟨-, -, -, -, hturns, -⟩ := writeOffset_sameSurroundings u off v
    exact hturns
  | store a b _ => exact storeByte_turns u a b
  | load a _ => exact loadByte_turns u a
  | reset _ _ => exact abandon_turns u
  | powerOn _ _ => rfl

/-- A host that moves while a command runs uses up the turn that let it move (log entry 4). -/
theorem endTurn_turns_lt {s : State} (hm : HostMoves s) (hb : s.status.busy = true) :
    s.endTurn.turns.length < s.turns.length := by
  obtain ⟨-, hturn⟩ := hm.resolve_left (by simp [hb])
  obtain ⟨later, hturns⟩ := List.head?_eq_some_iff.1 hturn
  rw [endTurn_busy hb, withTurns_turns, hturns]
  exact Nat.lt_succ_self _

/-- Settles O23: a step of the host uses up its turn, and a step of the engine completes the command, with or without
error. -/
theorem runningCommandEnds : Obligations.RunningCommandEnds := by
  intro s t hb hstep
  cases step_effect hstep with
  | host script t hm he =>
    rw [hostEffect_turns he, withScript_turns]
    exact .inr (endTurn_turns_lt hm hb)
  | done i u _ _ _ => exact .inl rfl
  | error e _ =>
    rw [fail_status]
    exact .inl rfl

end Sys2Proof.Machine
end
